-- ==== Sys2Proof/Word.lean ====
section
/-! DEFINITION. The two word types of the HBE: 32-bit registers (00_scope.md R6, `XLEN`) and bytes
(R2 of the same file's symbol width, D2; R8 numbers their bits from 0 at the least significant bit). -/

namespace Sys2Proof

/-- One host-visible register, one command word or one 32-bit bus datum (R6, `XLEN` = 32). -/
abbrev Word := BitVec 32

/-- One byte of data memory, one symbol (R6, `SYM_BITS` = 8), one codeword length (R6, `MAXLEN` = 255). -/
abbrev Byte := BitVec 8

end Sys2Proof
end

