-- ==== Sys2Proof/Syntax.lean ====
section
/-! DEFINITION. The commands of the HBE: one constructor per row of spec/opcode_table.json
(30_encoding.md R51). A command carries no operand: operands stand in registers (R50). -/

namespace Sys2Proof

/-- The nine commands (R51). -/
inductive Instr where
  /-- `NOP`, opcode 0x00 (R55). -/
  | nop
  /-- `TABLE_CLEAR`, opcode 0x01 (R56). -/
  | tableClear
  /-- `ENTRY_WRITE`, opcode 0x02 (R57). -/
  | entryWrite
  /-- `ENTRY_READ`, opcode 0x03 (R58). -/
  | entryRead
  /-- `TABLE_STORE`, opcode 0x04 (R63). -/
  | tableStore
  /-- `TABLE_LOAD`, opcode 0x05 (R64). -/
  | tableLoad
  /-- `ENCODE`, opcode 0x06 (R70). -/
  | encode
  /-- `TREE_BUILD`, opcode 0x07 (R74). -/
  | treeBuild
  /-- `DECODE`, opcode 0x08 (R78). -/
  | decode
  deriving DecidableEq, Repr

end Sys2Proof
end

