-- ==== Sys2Proof/WellFormed.lean ====
section
/-! DEFINITION. What is checked of a command before it means anything. A command has no operand field
(30_encoding.md R49, R50), so every `Instr` is well formed; the two checks are on the command WORD (R49, R51). -/

namespace Sys2Proof

/-- No command has an operand to be out of range (R50): every one is well formed. -/
def Instr.wellFormed : Instr → Bool
  | .nop | .tableClear | .entryWrite | .entryRead | .tableStore | .tableLoad | .encode | .treeBuild | .decode => true

/-- `RSV`, bits 31:8, must be zero (R49). -/
def wordReservedZero (w : Word) : Bool := w >>> 8 == 0#32

/-- `OPCODE`, bits 7:0, names one of the nine commands (R51). -/
def wordOpcodeAssigned (w : Word) : Bool := (w &&& 0xFF#32).toNat ≤ 8

/-- A legal command word (R51); every other word is illegal (R52). -/
def wordWellFormed (w : Word) : Bool := wordReservedZero w && wordOpcodeAssigned w

end Sys2Proof
end

