-- ==== Sys2Proof/Decode.lean ====
section
/-! DEFINITION. The decoder of command words, total and rejecting by name (30_encoding.md R49, R51, R52),
and after it the encoder. -/

namespace Sys2Proof

/-- Why a command word is illegal (R52). -/
inductive DecodeError where
  /-- `RSV != 0`, with whatever opcode (R52). -/
  | reservedBits (rsv : BitVec 24)
  /-- `RSV = 0` and `OPCODE` in 0x09 to 0xFF (R52). -/
  | unassignedOpcode (opcode : Byte)
  deriving DecidableEq, Repr

/-- `OPCODE`, bits 7:0 of the command word (R49). -/
def opcodeField (w : Word) : Byte := w.extractLsb' 0 8

/-- `RSV`, bits 31:8 of the command word (R49). -/
def reservedField (w : Word) : BitVec 24 := w.extractLsb' 8 24

/-- The opcode map (R51). -/
def opcodeCommand (opcode : Byte) : Option Instr :=
  match opcode.toNat with
  | 0x00 => some .nop
  | 0x01 => some .tableClear
  | 0x02 => some .entryWrite
  | 0x03 => some .entryRead
  | 0x04 => some .tableStore
  | 0x05 => some .tableLoad
  | 0x06 => some .encode
  | 0x07 => some .treeBuild
  | 0x08 => some .decode
  | _ => none

/-- The decoder reads the word whole (R49): a legal word selects its command, every other word is
rejected by name (R52). -/
def decode (w : Word) : Except DecodeError Instr :=
  if reservedField w = 0#24 then
    match opcodeCommand (opcodeField w) with
    | some i => .ok i
    | none => .error (.unassignedOpcode (opcodeField w))
  else .error (.reservedBits (reservedField w))

/-- The word column of the opcode map (R51). -/
def encode : Instr → Word
  | .nop => 0x00000000#32
  | .tableClear => 0x00000001#32
  | .entryWrite => 0x00000002#32
  | .entryRead => 0x00000003#32
  | .tableStore => 0x00000004#32
  | .tableLoad => 0x00000005#32
  | .encode => 0x00000006#32
  | .treeBuild => 0x00000007#32
  | .decode => 0x00000008#32

/-- What the decoder reads from a row of the opcode table whose `nbits` low bits are those of `w`
(a command word has 32 bits and is written to `CMD` whole, R21, R49); nothing longer is a command word. -/
def decodeTableWord (nbits w : Nat) : Option Instr :=
  if nbits ≤ 32 then
    match decode (BitVec.ofNat 32 (w % 2 ^ nbits)) with
    | .ok i => some i
    | .error _ => none
  else none

end Sys2Proof
end

