-- ==== Sys2Proof/Config.lean ====
section
/-! DEFINITION. What the spec fixes once for the machine (00_scope.md R6, R2) and what it leaves open:
the open values are opaque constants without a body, so nothing can be proved of them
(notes/assumptions 2, 3, 4, 11). -/

namespace Sys2Proof

/-- Which draw of free values: number `count` of HBE `unit`. The HBEs of a platform share no state
(60_exceptions.md R91), so each draws its own; no rule of the HBE reads a draw (notes/assumptions 2, 3, 4, 17). -/
structure Draw where
  unit : Nat
  count : Nat
  deriving DecidableEq, Repr

/-- The next draw of the same HBE. -/
def Draw.next (d : Draw) : Draw := { d with count := d.count + 1 }

end Sys2Proof

namespace Sys2Proof.Config

/-- `NSYM` = 2^SYM_BITS, the number of code table entries (R6). -/
def nsym : Nat := 256

/-- `MAXLEN`, the longest codeword in bits (R6). -/
def maxLen : Nat := 255

/-- `NODES`, the size of the decode tree arena (R6). -/
def nodes : Nat := 512

/-- `DMEM_SIZE`, the bytes of data memory (R6). -/
def dmemSize : Nat := 65536

/-- `DMEM_WINDOW`, the host bus offset of data memory byte 0 (R6, R37). -/
def dmemWindow : Nat := 0x10000

/-- What `ID` reads (R2, R18). -/
def idValue : Word := 0x48424531#32

/-- What `VERSION` reads (R2, R18). -/
def versionValue : Word := 0x00000001#32

/-- FREE VALUE. The contents of data memory byte `a` that draw `d` gives it at a reset (R34, U1):
an arbitrary value, drawn once and stable until written. -/
opaque dmemAtReset : (d : Draw) → (a : Nat) → BitVec 8

/-- FREE VALUE. The unspecified contents of arena node `n` under draw `d`
(R29, R74, U2): `left`, `right`, `has_sym`, `sym`. -/
opaque arenaContents : (d : Draw) → (n : Nat) → Fin 512 × Fin 512 × Bool × BitVec 8

/-- FREE VALUE. What the unspecified host read of draw `d` returns (R44, U3): a fresh draw with no law. -/
opaque unspecifiedRead : (d : Draw) → BitVec 32

/-- OPEN PARAMETER `HBE_BASE` of HBE `k` of a platform: the host bus address of its offset 0
(R37, D6, U10; 60_exceptions.md R91: each at its own base); the platform sets it. -/
opaque hbeBase : (k : Nat) → Nat

end Sys2Proof.Config
end

