-- ==== Sys2Proof/Machine/State.lean ====
section
/-! DEFINITION. The state of the HBE, everything 10_state.md R15 gives it, as plain data, with the inputs
that reach it from outside (the agenda) and what the host sees of each access (the bus response). -/

namespace Sys2Proof.Machine

/-- No step of the HBE stops the machine: it has no trap (60_exceptions.md R87), a failed command is a
completion record (R83) and a bad access a bus error response (20_memory.md R39). So there is no fault. -/
inductive Fault where
  deriving DecidableEq, Repr

/-- Why a step has no meaning. -/
inductive Refusal where
  /-- `exec` raises it for an instruction that has no meaning yet; no arm does. Safe. -/
  | notModelled (mnemonic : String)
  /-- The host port raises it for a host access while reset is asserted, which "is not defined"
  (70_reset_and_hazards.md R93; U5: refuse). Safe: nothing is claimed of it. -/
  | hostAccessDuringReset
  deriving DecidableEq, Repr

/-- The fields of `CTRL` (R19); bits 31:3 are RAZ/WI and hold nothing. -/
structure Ctrl where
  /-- bit 0 -/
  ieDone : Bool
  /-- bit 1 -/
  ieErr : Bool
  /-- bit 2: false = un-reduced padding, true = reduced -/
  padMode : Bool
  deriving DecidableEq, Repr

/-- The fields of `STATUS` (R20); bits 31:5 are RAZ/WI and hold nothing. -/
structure Status where
  /-- bit 0 -/
  busy : Bool
  /-- bit 1 -/
  done : Bool
  /-- bit 2 -/
  err : Bool
  /-- bit 3 -/
  treeValid : Bool
  /-- bit 4 -/
  collision : Bool
  deriving DecidableEq, Repr

/-- One entry of the code table (R28). `len` = 0 means "absent". Position `i` of the codeword
(0 to 254) is the `i`-th bit of `code` from its most significant end. -/
structure CTEntry where
  len : Byte
  code : BitVec 255
  deriving DecidableEq, Repr

/-- The code table memory `CT`: one entry per symbol (R28). -/
abbrev Table := Vector CTEntry 256

/-- One node of the decode tree arena (R29); child index 0 means "no child". -/
structure Node where
  left : Fin 512
  right : Fin 512
  hasSym : Bool
  sym : Byte
  deriving DecidableEq, Repr

/-- The data memory: the bytes written since the last reset, by rising address (`Memory.wf` in Ops.lean);
an address not listed holds the unspecified value drawn for it at that reset (R34). -/
abbrev Memory := List Host.Cell

/-- The arena: the nodes written since its contents were last unspecified, by rising index (R29);
an index not listed holds an unspecified node. -/
abbrev Arena := List (Nat × Node)

/-- The 26 host-visible registers (R16); `ECODE0` to `ECODE7` are one family. -/
inductive Reg where
  | id | version | ctrl | status | cmd | errCode | errPos | src | srcLen | dst | dstCap
  | outLen | bitLen | pad | symCount | nodeCount | esym | elen
  | ecode (n : Fin 8)
  deriving DecidableEq, Repr

/-- One host access to the HBE's port at an offset from its base (R37, R38, R53). -/
inductive HostAccess where
  /-- `RD8 off` -/
  | rd8 (off : BitVec 17)
  /-- `WR8 off, b` -/
  | wr8 (off : BitVec 17) (b : Byte)
  /-- `RD32 off` -/
  | rd32 (off : BitVec 17)
  /-- `WR32 off, v` -/
  | wr32 (off : BitVec 17) (v : Word)
  /-- An access of any width other than 8 and 32 bits, which the port does not have (R38, R39). -/
  | otherWidth (off : BitVec 17)
  deriving DecidableEq, Repr

/-- What the host sees of its last access. -/
inductive BusResp where
  /-- no access yet -/
  | none
  /-- a write completed (R38, R17; a dropped write too, R43) -/
  | ack
  /-- an 8-bit read returned `b` -/
  | data8 (b : Byte)
  /-- a 32-bit read returned `v` -/
  | data32 (v : Word)
  /-- the error response: no state changed, no data (R39) -/
  | error
  deriving DecidableEq, Repr

/-- One turn of the world outside or of the engine. The list of coming turns is the schedule: a model
"schedules [the engine's step] at any point after acceptance" (R81). -/
inductive Turn where
  /-- the engine's step, if a command is pending (R81) -/
  | engine
  /-- one host access (R45: one at a time, in issue order) -/
  | host (a : HostAccess)
  /-- the reset input is asserted (R93) -/
  | assertReset
  /-- the reset input is released (R93) -/
  | releaseReset
  deriving DecidableEq, Repr

/-- The HBE (R15), its reset input, and the model's own five fields at the end. `ID` and `VERSION` are
constants (R18) and have no field; `irq` is a function of `ctrl` and `status` (R89). -/
structure State where
  ctrl : Ctrl
  status : Status
  cmd : Word
  errCode : Byte
  errPos : Word
  src : Word
  srcLen : Word
  dst : Word
  dstCap : Word
  outLen : Word
  bitLen : Word
  pad : Word
  symCount : Word
  nodeCount : Word
  esym : Byte
  elen : Byte
  ecode : Vector Word 8
  ct : Table
  arena : Arena
  dmem : Memory
  /-- the level of the reset input: true while reset is asserted (R93) -/
  resetLine : Bool
  /-- the draw of unspecified memory contents in force since the last reset (log 2) -/
  dmemDraw : Draw
  /-- the draw of unspecified arena contents in force (log 3) -/
  arenaDraw : Draw
  /-- the draw the next unspecified host read takes (log 4) -/
  draws : Draw
  /-- the turns to come (log 1) -/
  agenda : List Turn
  /-- what the host saw of its last access (log 5) -/
  busResp : BusResp
  deriving DecidableEq, Repr

/-- The empty code table entry `{len: 0, code: zeros(255)}` (R28). -/
def CTEntry.empty : CTEntry := { len := 0#8, code := 0#255 }

/-- The machine right after reset (R33, R93): every register at its reset value, `CT` empty, no byte of
data memory and no arena node written, no pending command, the reset input released. -/
def State.reset : State where
  ctrl := { ieDone := false, ieErr := false, padMode := false }
  status := { busy := false, done := false, err := false, treeValid := false, collision := false }
  cmd := 0#32
  errCode := 0#8
  errPos := 0#32
  src := 0#32
  srcLen := 0#32
  dst := 0#32
  dstCap := 0#32
  outLen := 0#32
  bitLen := 0#32
  pad := 0#32
  symCount := 0#32
  nodeCount := 0#32
  esym := 0#8
  elen := 0#8
  ecode := Vector.replicate 8 0#32
  ct := Vector.replicate 256 CTEntry.empty
  arena := []
  dmem := []
  resetLine := false
  dmemDraw := ⟨0, 0⟩
  arenaDraw := ⟨0, 0⟩
  draws := ⟨0, 0⟩
  agenda := []
  busResp := .none

end Sys2Proof.Machine
end

