-- ==== Sys2Proof/Machine/Flags.lean ====
section
/-! DEFINITION. The flags of the HBE: the bits of `STATUS` and `CTRL` with every rule that sets, clears or
reads them (10_state.md R19, R20, R21, R30; 60_exceptions.md R83, R89). The HBE has no condition codes (R31). -/

namespace Sys2Proof.Machine

/-- One flag at bit `i` of a 32-bit register. -/
def flagBit (b : Bool) (i : Nat) : Word := BitVec.ofNat 32 (b.toNat * 2 ^ i)

/-- `CTRL` as the host reads it; bits 31:3 read zero (R19). -/
def Ctrl.word (c : Ctrl) : Word := flagBit c.ieDone 0 ||| flagBit c.ieErr 1 ||| flagBit c.padMode 2

/-- `CTRL` as a host write leaves it; bits 31:3 are ignored (R19). -/
def Ctrl.ofWord (v : Word) : Ctrl :=
  { ieDone := v.getLsbD 0, ieErr := v.getLsbD 1, padMode := v.getLsbD 2 }

/-- `STATUS` as the host reads it; bits 31:5 read zero (R20). -/
def Status.word (t : Status) : Word :=
  flagBit t.busy 0 ||| flagBit t.done 1 ||| flagBit t.err 2 ||| flagBit t.treeValid 3 ||| flagBit t.collision 4

/-- A host write of `v` to `STATUS`: each 1 clears its W1C bit (1, 2 and 4); a 0 leaves its bit, and `BUSY`,
`TREE_VALID` and the reserved bits ignore the write (R20). -/
def Status.writeOneToClear (t : Status) (v : Word) : Status :=
  { t with
    done := t.done && !v.getLsbD 1
    err := t.err && !v.getLsbD 2
    collision := t.collision && !v.getLsbD 4 }

/-- Acceptance of a command: `BUSY <- 1`, `DONE <- 0`, `ERR <- 0` (R21). -/
def Status.accept (t : Status) : Status := { t with busy := true, done := false, err := false }

/-- Completion of a command: `ERR <- (code != 0)`, `DONE <- 1`, `BUSY <- 0` (R83). -/
def Status.complete (t : Status) (failed : Bool) : Status :=
  { t with busy := false, done := true, err := failed }

/-- `TREE_VALID <- b` (R30). -/
def State.setTreeValid (s : State) (b : Bool) : State :=
  { s with status := { s.status with treeValid := b } }

/-- `COLLISION <- 1` (R43). -/
def State.setCollision (s : State) : State :=
  { s with status := { s.status with collision := true } }

/-- The interrupt output, a level recomputed after every state change (R89). -/
def State.irq (s : State) : Bool :=
  (s.ctrl.ieDone && s.status.done) || (s.ctrl.ieErr && s.status.err)

end Sys2Proof.Machine
end

