-- ==== Sys2Proof/Machine/Operands.lean ====
section
/-! DEFINITION. The operand forms of the commands (30_encoding.md R50): bit strings held most significant bit
first, code table entries, the entry registers, the two windows and the padding rule. -/

namespace Sys2Proof.Machine

/-! ### Bit strings (00_scope.md R9) -/

/-- The number whose binary digits, from the most significant down, are `f 0` to `f (n - 1)`. -/
def msbNat (f : Nat → Bool) : Nat → Nat
  | 0 => 0
  | n + 1 => 2 * msbNat f n + (f n).toNat

/-- The `n`-bit value whose position `i`, counted from the most significant bit, is `f i`. Every bit string
of the spec is laid out this way: `ECODE` (R25), payload bytes (R40, R69). -/
def msbFirst (n : Nat) (f : Nat → Bool) : BitVec n := BitVec.ofNat n (msbNat f n)

/-- Position `i` of a codeword, false past its end. -/
def bitAt (w : List Bool) (i : Nat) : Bool := w.getD i false

/-! ### Code table entries (10_state.md R28) -/

/-- `code[i]` of an entry. -/
def CTEntry.pos (e : CTEntry) (i : Nat) : Bool := e.code.getMsbD i

/-- The codeword `code[0 .. len - 1]` of an entry. -/
def CTEntry.word (e : CTEntry) : List Bool := (List.range e.len.toNat).map e.pos

/-- The entry `{len: L, code: w || zeros(255 - L)}` for the string `w` of positions `0 .. L-1` that `f` gives
(R57, R64). -/
def CTEntry.make (len : Byte) (f : Nat → Bool) : CTEntry :=
  { len := len, code := msbFirst 255 fun i => decide (i < len.toNat) && f i }

/-- The invariant of R28: `code[i] = 0` for every `i >= len`. -/
def CTEntry.zeroTail (e : CTEntry) : Prop := ∀ i, e.len.toNat ≤ i → e.pos i = false

/-- `CT[s]`. -/
def Table.get (t : Table) (sym : Byte) : CTEntry := t[sym.toNat]'sym.isLt

/-- `CT[s] <- e`. -/
def Table.put (t : Table) (sym : Byte) (e : CTEntry) : Table := t.set sym.toNat e sym.isLt

/-- The table with every entry `{len: 0, code: zeros(255)}`. -/
def Table.empty : Table := Vector.replicate 256 CTEntry.empty

/-- The symbols 0 to 255 in ascending order (R6). -/
def allSymbols : List Byte := (List.range Config.nsym).map (BitVec.ofNat 8)

/-- The present symbols (`len > 0`) in ascending order. -/
def Table.present (t : Table) : List Byte :=
  (t.toList.zipIdx.filter fun p => p.1.len ≠ 0#8).map fun p => BitVec.ofNat 8 p.2

/-- `CT[s]` of a state. -/
def State.entry (s : State) (sym : Byte) : CTEntry := s.ct.get sym

/-! ### The entry registers (10_state.md R25) -/

/-- `ECODEBit(i)`: `ECODE<i div 32>` bit `31 - (i mod 32)`. -/
def ecodeBit (ecode : Vector Word 8) (i : Nat) : Bool :=
  if h : i / 32 < 8 then ecode[i / 32].getLsbD (31 - i % 32) else false

/-- `ECODE<j>` with `ECODEBit(32 j + k)` = `f (32 j + k)`. -/
def ecodeWord (f : Nat → Bool) (j : Nat) : Word := msbFirst 32 fun k => f (32 * j + k)

/-- All eight `ECODE` registers with `ECODEBit(i)` = `f i`. -/
def ecodeOf (f : Nat → Bool) : Vector Word 8 :=
  #v[ecodeWord f 0, ecodeWord f 1, ecodeWord f 2, ecodeWord f 3,
     ecodeWord f 4, ecodeWord f 5, ecodeWord f 6, ecodeWord f 7]

/-! ### Windows (20_memory.md R36): sums and comparisons on unbounded integers -/

/-- `CheckWindow` passes: the window `[start, start + length)` stays in data memory. -/
def windowFits (start length : Word) : Bool := start.toNat + length.toNat ≤ Config.dmemSize

/-- The source window passes its check. -/
def State.srcFits (s : State) : Bool := windowFits s.src s.srcLen

/-- The destination window passes its check. -/
def State.dstFits (s : State) : Bool := windowFits s.dst s.dstCap

/-- `CheckOverlap` raises: the two windows share a byte. -/
def State.overlap (s : State) : Bool :=
  decide (0 < s.srcLen.toNat) && decide (0 < s.dstCap.toNat)
    && decide (s.src.toNat < s.dst.toNat + s.dstCap.toNat)
    && decide (s.dst.toNat < s.src.toNat + s.srcLen.toNat)

/-! ### Padding and packing (42_encoder.md R67, R69; 43_decode_tree_walker.md R76) -/

/-- `Pad(L, PADMODE)` (R67). -/
def padding (len : Nat) (reduced : Bool) : Nat :=
  if reduced then (8 - len % 8) % 8 else 8 - len % 8

/-- The first `n` payload bytes of a bit stream, most significant bit first (R69). -/
def packBytes : (n : Nat) → List Bool → List Byte
  | 0, _ => []
  | n + 1, w => (msbFirst 8 fun t => bitAt w t) :: packBytes n (w.drop 8)

end Sys2Proof.Machine
end

