-- ==== Sys2Proof/Machine/Ops.lean ====
section
/-! DEFINITION. The named operations over memory, arena and registers, and the frame every command runs in:
the start step (60_exceptions.md R82), `MemRead` and `MemWrite` (20_memory.md R35), the completion step with the
one error record of R83 in the place of a trap, acceptance (10_state.md R21), the acknowledgement by which a
host returns from an error (R88), and reset (70_reset_and_hazards.md R93). -/

namespace Sys2Proof.Machine

/-! ### Sparse cells: key and value pairs by rising key -/

/-- The value listed at a key. -/
def findCell {α : Type} : List (Nat × α) → Nat → Option α
  | [], _ => none
  | (k, v) :: m, a => if k = a then some v else findCell m a

/-- List a value at a key, in its place. -/
def writeCell {α : Type} : List (Nat × α) → Nat → α → List (Nat × α)
  | [], a, v => [(a, v)]
  | (k, w) :: m, a, v =>
    if a < k then (a, v) :: (k, w) :: m
    else if k = a then (a, v) :: m
    else (k, w) :: writeCell m a v

/-- The one canonical form of a list of cells: keys strictly rising and below `bound`. What an unlisted key
looks up as is `none`, which no entry holds, so cells with the same lookups are the same list. -/
abbrev cellsWf {α : Type} (bound : Nat) (m : List (Nat × α)) : Prop :=
  (m.map Prod.fst).Pairwise (· < ·) ∧ ∀ c ∈ m, c.1 < bound

/-- The canonical form of data memory (log 2). -/
abbrev Memory.wf (m : Memory) : Prop := cellsWf Config.dmemSize m

/-- The canonical form of the arena (log 3). -/
abbrev Arena.wf (m : Arena) : Prop := cellsWf Config.nodes m

/-! ### Data memory (20_memory.md R34, R35, R40) -/

/-- The byte at address `a` of a memory: what was last written, else the unspecified value drawn for it at
the last reset (R34). The ONE definition of what an unlisted address reads as. -/
def Memory.read (draw : Draw) (m : Memory) (a : Nat) : Byte :=
  (findCell m a).getD (Config.dmemAtReset draw a)

/-- Write bytes at consecutive addresses, the first at `a`. -/
def Memory.writeBytes (m : Memory) (a : Nat) : List Byte → Memory
  | [] => m
  | b :: bs => Memory.writeBytes (writeCell m a b) (a + 1) bs

/-- `MemRead(a, 1)` (R35). -/
def State.byteAt (s : State) (a : Nat) : Byte := Memory.read s.dmemDraw s.dmem a

/-- The four bytes of a word, little-endian (R40). -/
def wordBytes (v : Word) : List Byte :=
  [v.extractLsb' 0 8, v.extractLsb' 8 8, v.extractLsb' 16 8, v.extractLsb' 24 8]

/-- The little-endian composition of four bytes (R40). -/
def bytesWord (b0 b1 b2 b3 : Byte) : Word := b3 ++ b2 ++ b1 ++ b0

/-- The 32-bit word at address `a` (R40). -/
def State.wordAt (s : State) (a : Nat) : Word :=
  bytesWord (s.byteAt a) (s.byteAt (a + 1)) (s.byteAt (a + 2)) (s.byteAt (a + 3))

/-! ### The arena (10_state.md R29) -/

/-- `{left: 0, right: 0, has_sym: 0, sym: 0}` (R74). -/
def Node.fresh : Node := { left := 0, right := 0, hasSym := false, sym := 0#8 }

/-- The child on bit `b`: 0 = left, 1 = right (R9, R77). -/
def Node.child (n : Node) (b : Bool) : Fin 512 := if b then n.right else n.left

/-- Set the child on bit `b`. -/
def Node.setChild (n : Node) (b : Bool) (c : Fin 512) : Node :=
  if b then { n with right := c } else { n with left := c }

/-- The unspecified contents of node `n` under a draw (R29). -/
def Node.unspecified (draw : Draw) (n : Nat) : Node :=
  { left := (Config.arenaContents draw n).1
    right := (Config.arenaContents draw n).2.1
    hasSym := (Config.arenaContents draw n).2.2.1
    sym := (Config.arenaContents draw n).2.2.2 }

/-- `NODE[n]` of an arena: what was last written, else unspecified. -/
def Arena.node (draw : Draw) (ar : Arena) (n : Nat) : Node :=
  (findCell ar n).getD (Node.unspecified draw n)

/-- `NODE[n]` of a state. -/
def State.nodeAt (s : State) (n : Fin 512) : Node := Arena.node s.arenaDraw s.arena n.val

/-- The arena contents become unspecified (R74, R83): nothing listed, a new draw. -/
def State.forgetArena (s : State) : State := { s with arena := [], arenaDraw := s.arenaDraw.next }

/-! ### The code table -/

/-- Every entry empty (R56, R64). -/
def State.clearTable (s : State) : State := { s with ct := Table.empty }

/-! ### The frame of a command -/

/-- The error codes a command may raise (R84); 0x00 is success. -/
inductive ErrCode where
  | illegalCmd | range | overlap | symbolNotInTable | dstOverflow | noTree | artifactEmpty | padExceeds
  | decodeNullChild | decodeTruncated | notPrefixFree | treeOverflow | tableFormat
  deriving DecidableEq, Repr

/-- The code held in `ERRCODE[7:0]` (R84). -/
def ErrCode.byte : ErrCode → Byte
  | .illegalCmd => 0x01#8
  | .range => 0x02#8
  | .overlap => 0x03#8
  | .symbolNotInTable => 0x04#8
  | .dstOverflow => 0x05#8
  | .noTree => 0x06#8
  | .artifactEmpty => 0x07#8
  | .padExceeds => 0x08#8
  | .decodeNullChild => 0x09#8
  | .decodeTruncated => 0x0A#8
  | .notPrefixFree => 0x0B#8
  | .treeOverflow => 0x0C#8
  | .tableFormat => 0x0D#8

/-- A state inside a command: the machine and `written`, the count of its `MemWrite` calls (R82).
It lives only inside the one atomic transition of a command (R81, R32). -/
structure Run where
  st : State
  written : Nat
  deriving DecidableEq, Repr

/-- How a command's body ends: without a `raise`, or by `raise CmdError(code, pos)` (R11). -/
inductive Ended where
  | done (r : Run)
  | raised (r : Run) (code : ErrCode) (pos : Nat)
  deriving DecidableEq, Repr

/-- `MemWrite(a, 1, v)`, counted in `written` (R35, R82). -/
def Run.memWrite (r : Run) (a : Nat) (v : Byte) : Run :=
  { st := { r.st with dmem := writeCell r.st.dmem a v }, written := r.written + 1 }

/-- `MemWrite` of each byte of a list, from address `a` up. -/
def Run.memWriteAll (r : Run) (a : Nat) : List Byte → Run
  | [] => r
  | b :: bs => (r.memWrite a b).memWriteAll (a + 1) bs

/-- The start step's register writes (R82); its check of the command word is the decoder's (R52) and
`runPending` in Engine.lean makes it. -/
def startState (s : State) : State :=
  { s with errCode := 0#8, errPos := 0#32, outLen := 0#32, bitLen := 0#32, pad := 0#32, symCount := 0#32 }

/-- The start step: the registers, and `written <- 0` (R82). -/
def startStep (s : State) : Run := { st := startState s, written := 0 }

/-- The completion step after a success (R83). -/
def completeOk (s : State) : State := { s with status := s.status.complete false }

/-- The completion step after `raise CmdError(code, pos)`: the error record of R83. This is the HBE's only
"exception entry": nothing is saved, no mode changes, control stays with the host (R87). -/
def completeError (r : Run) (code : ErrCode) (pos : Nat) : State :=
  { r.st with
    errCode := code.byte
    errPos := BitVec.ofNat 32 pos
    outLen := BitVec.ofNat 32 r.written
    bitLen := 0#32
    pad := 0#32
    symCount := 0#32
    status := r.st.status.complete true }

/-- The completion step with the command's own error effect (R83). -/
def complete (errorEffect : ErrCode → State → State) : Ended → State
  | .done r => completeOk r.st
  | .raised r code pos => errorEffect code (completeError r code pos)

/-- Most commands have no error effect of their own (R83). -/
def noErrorEffect (_ : ErrCode) (s : State) : State := s

/-- One command as one atomic transition: start step, body, completion step (R81). -/
def runCommand (errorEffect : ErrCode → State → State) (body : Run → Ended) (s : State) : State :=
  complete errorEffect (body (startStep s))

/-- The engine's transition on an illegal command word: the start step raises `ILLEGAL_CMD` at position 0
(R52, R82, R83). -/
def runIllegal (s : State) : State := runCommand noErrorEffect (fun r => .raised r .illegalCmd 0) s

/-! ### Acceptance, acknowledgement, reset -/

/-- The engine accepts the command word `c` (R21). -/
def State.acceptCommand (s : State) (c : Word) : State := { s with cmd := c, status := s.status.accept }

/-- The host's "return" from a completion: a write of `v` to `STATUS` (R88, R20). -/
def State.acknowledge (s : State) (v : Word) : State :=
  { s with status := s.status.writeOneToClear v }

/-- Reset (R93) with the reset input at `level`: everything at its reset value, memory and arena contents
unspecified anew. The outside world's turns and the model's count of draws go on. -/
def State.applyReset (s : State) (level : Bool) : State :=
  { State.reset with
    resetLine := level
    dmemDraw := s.dmemDraw.next
    arenaDraw := s.arenaDraw.next
    draws := s.draws
    agenda := s.agenda }

end Sys2Proof.Machine
end

