-- ==== Sys2Proof/Machine/Encoder.lean ====
section
/-! DEFINITION. The bitstream encoder: the Encoded Artifact and ENCODE (42_encoder.md R66 to R70). -/

namespace Sys2Proof.Machine

/-- The input symbols `MemRead(SRC + j, 1)`, `j = 0 .. SRC_LEN - 1` (R70). -/
def State.inputSymbols (s : State) : List Byte :=
  (List.range s.srcLen.toNat).map fun j => s.byteAt (s.src.toNat + j)

/-- The index of the first input symbol without a codeword (R70, phase 1). -/
def firstUncovered (ct : Table) (syms : List Byte) : Option Nat :=
  syms.findIdx? fun b => (ct.get b).len == 0#8

/-- `L`, the sum of the codeword lengths (R68, R70). -/
def streamBits (ct : Table) (syms : List Byte) : Nat := (syms.map fun b => (ct.get b).len.toNat).sum

/-- `W`, the concatenated codewords (R68). -/
def codeStream (ct : Table) (syms : List Byte) : List Bool := syms.flatMap fun b => (ct.get b).word

/-- `P`, the payload bytes (R70). -/
def payloadBytes (len : Nat) (reduced : Bool) : Nat := (len + padding len reduced) / 8

/-- The Encoded Artifact of an input: the padding count, then the packed padded stream (R66, R68, R69). -/
def artifact (ct : Table) (reduced : Bool) (syms : List Byte) : List Byte :=
  let len := streamBits ct syms
  let pad := padding len reduced
  BitVec.ofNat 8 pad :: packBytes (payloadBytes len reduced) (codeStream ct syms ++ List.replicate pad false)

/-- `ENCODE` (R70): every error comes before any `MemWrite`. -/
def encodeBody (r : Run) : Ended :=
  let s := r.st
  if !s.srcFits then .raised r .range 0
  else if !s.dstFits then .raised r .range 1
  else if s.overlap then .raised r .overlap 0
  else
    match firstUncovered s.ct s.inputSymbols with
    | some j => .raised r .symbolNotInTable j
    | none =>
      let len := streamBits s.ct s.inputSymbols
      let size := 1 + payloadBytes len s.ctrl.padMode
      if size > s.dstCap.toNat then .raised r .dstOverflow size
      else
        let r := r.memWriteAll s.dst.toNat (artifact s.ct s.ctrl.padMode s.inputSymbols)
        .done { r with
          st := { r.st with
            outLen := BitVec.ofNat 32 size
            bitLen := BitVec.ofNat 32 len
            pad := BitVec.ofNat 32 (padding len s.ctrl.padMode)
            symCount := s.srcLen } }

/-- The meaning of `ENCODE` (R70, R81). -/
def execEncode (s : State) : Host.Outcome State Fault Refusal :=
  .next (runCommand noErrorEffect encodeBody s)

end Sys2Proof.Machine
end

