-- ==== Sys2Proof/Machine/Serializer.lean ====
section
/-! DEFINITION. The canonical code table serializer: canonical order, the table image, TABLE_STORE and
TABLE_LOAD (41_table_serializer.md R59 to R64). -/

namespace Sys2Proof.Machine

/-! ### Canonical order -/

/-- `Key(w)` (R59): each bit 0 a digit 1, each bit 1 a digit 2, read in base 10. -/
def canonicalKey (w : List Bool) : Nat := w.foldl (fun k b => 10 * k + (if b then 2 else 1)) 0

/-- Symbol `s` precedes symbol `t` in canonical order (R60): the smaller key first, equal keys by symbol. -/
def canonBefore (ct : Table) (s t : Byte) : Bool :=
  let ks := canonicalKey (ct.get s).word
  let kt := canonicalKey (ct.get t).word
  decide (ks < kt) || (decide (ks = kt) && decide (s.toNat < t.toNat))

/-- Put a symbol in its place in a list in canonical order. -/
def canonInsert (ct : Table) (s : Byte) : List Byte → List Byte
  | [] => [s]
  | t :: ts => if canonBefore ct s t then s :: t :: ts else t :: canonInsert ct s ts

/-- Sort symbols into canonical order. -/
def canonSort (ct : Table) : List Byte → List Byte
  | [] => []
  | s :: ss => canonInsert ct s (canonSort ct ss)

/-- The present symbols in canonical order (R60, R63). -/
def Table.canonical (ct : Table) : List Byte := canonSort ct ct.present

/-! ### The table image (R62) -/

/-- The ASCII character of one codeword position: 0x30 or 0x31 (R62). -/
def bitChar (b : Bool) : Byte := if b then 0x31#8 else 0x30#8

/-- The record of symbol `s` (R62). -/
def record (ct : Table) (s : Byte) : List Byte :=
  s :: (ct.get s).len :: (ct.get s).word.map bitChar

/-- The size of the image: `2 + sum of (2 + L)` over the present entries (R62, R63). -/
def Table.imageSize (ct : Table) : Nat := 2 + (ct.canonical.map fun s => 2 + (ct.get s).len.toNat).sum

/-- The table image: the entry count, little-endian, then the records in canonical order (R62, R63). -/
def Table.image (ct : Table) : List Byte :=
  BitVec.ofNat 8 (ct.canonical.length % 256) :: BitVec.ofNat 8 (ct.canonical.length / 256)
    :: ct.canonical.flatMap (record ct)

/-! ### TABLE_STORE -/

/-- `TABLE_STORE` (R63): both errors come before any `MemWrite`. -/
def tableStoreBody (r : Run) : Ended :=
  let s := r.st
  if !s.dstFits then .raised r .range 1
  else if s.ct.imageSize > s.dstCap.toNat then .raised r .dstOverflow s.ct.imageSize
  else
    let r := r.memWriteAll s.dst.toNat s.ct.image
    .done { r with
      st := { r.st with
        outLen := BitVec.ofNat 32 s.ct.imageSize
        symCount := BitVec.ofNat 32 s.ct.canonical.length } }

/-- The meaning of `TABLE_STORE` (R63, R81). -/
def execTableStore (s : State) : Host.Outcome State Fault Refusal :=
  .next (runCommand noErrorEffect tableStoreBody s)

/-! ### TABLE_LOAD -/

/-- `Byte(o)`: image byte `o`, or nothing at or past `SRC_LEN` (R64). -/
def State.imageByte (s : State) (o : Nat) : Option Byte :=
  if o < s.srcLen.toNat then some (s.byteAt (s.src.toNat + o)) else none

/-- `n` codeword characters from image offset `o`; an error is the offset of the first byte found missing
or wrong (R64). -/
def loadBits (s : State) : (n o : Nat) → Except Nat (List Bool)
  | 0, _ => .ok []
  | n + 1, o =>
    match s.imageByte o with
    | none => .error o
    | some c =>
      if c = 0x30#8 then (loadBits s n (o + 1)).map (false :: ·)
      else if c = 0x31#8 then (loadBits s n (o + 1)).map (true :: ·)
      else .error o

/-- One record at image offset `o` into a table: the table and the offset after it (R64). -/
def loadRecord (s : State) (o : Nat) (ct : Table) : Except Nat (Nat × Table) :=
  match s.imageByte o with
  | none => .error o
  | some sym =>
    if (ct.get sym).len ≠ 0#8 then .error o
    else
      match s.imageByte (o + 1) with
      | none => .error (o + 1)
      | some len =>
        if len = 0#8 then .error (o + 1)
        else
          match loadBits s len.toNat (o + 2) with
          | .error e => .error e
          | .ok w => .ok (o + 2 + len.toNat, ct.put sym (CTEntry.make len (bitAt w)))

/-- `n` records from image offset `o` (R64). -/
def loadRecords (s : State) : (n o : Nat) → Table → Except Nat (Nat × Table)
  | 0, o, ct => .ok (o, ct)
  | n + 1, o, ct =>
    match loadRecord s o ct with
    | .error e => .error e
    | .ok (o', ct') => loadRecords s n o' ct'

/-- The whole image: its entry count and the table it holds, or the error offset (R64). -/
def loadImage (s : State) : Except Nat (Nat × Table) :=
  match s.imageByte 0 with
  | none => .error 0
  | some lo =>
    match s.imageByte 1 with
    | none => .error 1
    | some hi =>
      let n := lo.toNat + 256 * hi.toNat
      if n > 256 then .error 0
      else
        match loadRecords s n 2 Table.empty with
        | .error e => .error e
        | .ok (o, ct) => if o ≠ s.srcLen.toNat then .error o else .ok (n, ct)

/-- `TABLE_LOAD` (R64). After its window check the old table and tree are gone, whatever follows. -/
def tableLoadBody (r : Run) : Ended :=
  if !r.st.srcFits then .raised r .range 0
  else
    let r := { r with st := r.st.clearTable.setTreeValid false }
    match loadImage r.st with
    | .error o => .raised r .tableFormat o
    | .ok (n, ct) => .done { r with st := { r.st with ct := ct, symCount := BitVec.ofNat 32 n } }

/-- TABLE_LOAD's own error effect: after its window check every entry is cleared (R64, R83). -/
def tableLoadErrorEffect (code : ErrCode) (s : State) : State :=
  if code = .range then s else s.clearTable

/-- The meaning of `TABLE_LOAD` (R64, R81). -/
def execTableLoad (s : State) : Host.Outcome State Fault Refusal :=
  .next (runCommand tableLoadErrorEffect tableLoadBody s)

end Sys2Proof.Machine
end

