-- ==== Sys2Proof/Machine/TableAccess.lean ====
section
/-! DEFINITION. The code table access commands: NOP, TABLE_CLEAR, ENTRY_WRITE, ENTRY_READ
(40_table_access.md R55 to R58). None touches data memory and none raises an error. -/

namespace Sys2Proof.Machine

/-- `NOP` (R55): nothing between the start and the completion step. -/
def nopBody (r : Run) : Ended := .done r

/-- `TABLE_CLEAR` (R56). -/
def tableClearBody (r : Run) : Ended :=
  .done { r with st := r.st.clearTable.setTreeValid false }

/-- The entry that `ELEN` and `ECODE0` to `ECODE7` stage: positions `>= ELEN` are discarded (R57). -/
def State.stagedEntry (s : State) : CTEntry := CTEntry.make s.elen (ecodeBit s.ecode)

/-- `ENTRY_WRITE` (R57). -/
def entryWriteBody (r : Run) : Ended :=
  .done { r with st := { r.st with ct := r.st.ct.put r.st.esym r.st.stagedEntry }.setTreeValid false }

/-- `ENTRY_READ` (R58). -/
def entryReadBody (r : Run) : Ended :=
  let e := r.st.entry r.st.esym
  .done { r with
    st := { r.st with
      elen := e.len
      ecode := ecodeOf fun i => decide (i < e.len.toNat) && e.pos i } }

/-- The meaning of `NOP` (R55, R81). -/
def execNop (s : State) : Host.Outcome State Fault Refusal :=
  .next (runCommand noErrorEffect nopBody s)

/-- The meaning of `TABLE_CLEAR` (R56, R81). -/
def execTableClear (s : State) : Host.Outcome State Fault Refusal :=
  .next (runCommand noErrorEffect tableClearBody s)

/-- The meaning of `ENTRY_WRITE` (R57, R81). -/
def execEntryWrite (s : State) : Host.Outcome State Fault Refusal :=
  .next (runCommand noErrorEffect entryWriteBody s)

/-- The meaning of `ENTRY_READ` (R58, R81). -/
def execEntryRead (s : State) : Host.Outcome State Fault Refusal :=
  .next (runCommand noErrorEffect entryReadBody s)

end Sys2Proof.Machine
end

