-- ==== Sys2Proof/Machine/Walker.lean ====
section
/-! DEFINITION. The decode tree reconstructor and walker: TREE_BUILD and DECODE
(43_decode_tree_walker.md R73 to R78). -/

namespace Sys2Proof.Machine

/-! ### TREE_BUILD -/

/-- The arena under construction and its allocation count (R74). -/
structure Builder where
  arena : Arena
  count : Nat
  deriving DecidableEq, Repr

/-- Only the root: `NODE[0]` fresh, `count = 1` (R74); the other nodes keep what they held. -/
def Builder.root (ar : Arena) : Builder := { arena := writeCell ar 0 Node.fresh, count := 1 }

/-- Allocate node `count` as the child of `cur` on bit `b` (R74). -/
def Builder.grow (draw : Draw) (t : Builder) (cur : Fin 512) (b : Bool) : Builder :=
  let ar := writeCell t.arena t.count Node.fresh
  { arena := writeCell ar cur.val ((Arena.node draw ar cur.val).setChild b (Fin.ofNat 512 t.count))
    count := t.count + 1 }

/-- Walk a codeword from node `cur`, creating missing children; the node it ends at (R74's inner loop). -/
def insertPath (draw : Draw) : List Bool → Builder → Fin 512 → Except ErrCode (Builder × Fin 512)
  | [], t, cur => .ok (t, cur)
  | b :: w, t, cur =>
    if (Arena.node draw t.arena cur.val).hasSym then .error .notPrefixFree
    else
      let child := (Arena.node draw t.arena cur.val).child b
      if child = 0 then
        if t.count = Config.nodes then .error .treeOverflow
        else insertPath draw w (t.grow draw cur b) (Fin.ofNat 512 t.count)
      else insertPath draw w t child

/-- Insert the codeword `w` of symbol `sym` (R74's loop body). -/
def insertSymbol (draw : Draw) (t : Builder) (sym : Byte) (w : List Bool) : Except ErrCode Builder :=
  match insertPath draw w t 0 with
  | .error e => .error e
  | .ok (t', cur) =>
    let n := Arena.node draw t'.arena cur.val
    if n.hasSym = true ∨ n.left ≠ 0 ∨ n.right ≠ 0 then .error .notPrefixFree
    else .ok { t' with arena := writeCell t'.arena cur.val { n with hasSym := true, sym := sym } }

/-- Insert the codewords of a list of symbols in turn; an error carries the symbol being inserted (R74). -/
def insertSymbols (draw : Draw) (ct : Table) : List Byte → Builder → Except (ErrCode × Byte) Builder
  | [], t => .ok t
  | sym :: syms, t =>
    match insertSymbol draw t sym (ct.get sym).word with
    | .error e => .error (e, sym)
    | .ok t' => insertSymbols draw ct syms t'

/-- The decode tree of a table, built over an arena: the present symbols in ascending order (R74). -/
def buildTree (draw : Draw) (ar : Arena) (ct : Table) : Except (ErrCode × Byte) Builder :=
  insertSymbols draw ct ct.present (Builder.root ar)

/-- `TREE_BUILD` (R74). -/
def treeBuildBody (r : Run) : Ended :=
  let r := { r with st := r.st.setTreeValid false }
  match buildTree r.st.arenaDraw r.st.arena r.st.ct with
  | .error (code, sym) => .raised r code sym.toNat
  | .ok t =>
    .done { r with
      st := { r.st with
        arena := t.arena
        nodeCount := BitVec.ofNat 32 t.count
        symCount := BitVec.ofNat 32 r.st.ct.present.length }.setTreeValid true }

/-- TREE_BUILD's own error effect: `NODE_COUNT <- 0`, arena contents unspecified (R74, R83). -/
def treeBuildErrorEffect (_ : ErrCode) (s : State) : State := { s.forgetArena with nodeCount := 0#32 }

/-- The meaning of `TREE_BUILD` (R74, R81). -/
def execTreeBuild (s : State) : Host.Outcome State Fault Refusal :=
  .next (runCommand treeBuildErrorEffect treeBuildBody s)

/-! ### DECODE -/

/-- Payload bit `k` of the artifact in the source window (R76). -/
def State.payloadBit (s : State) (k : Nat) : Bool :=
  (s.byteAt (s.src.toNat + 1 + k / 8)).getLsbD (7 - k % 8)

/-- The results of a DECODE that walked all `B` bits at the root with `n` symbols emitted (R78). -/
def Run.decodeResults (r : Run) (n B p : Nat) : Run :=
  { r with
    st := { r.st with
      outLen := BitVec.ofNat 32 n
      symCount := BitVec.ofNat 32 n
      bitLen := BitVec.ofNat 32 B
      pad := BitVec.ofNat 32 p } }

/-- The walk over the `m` payload bits from bit `k` on, at node `pos`, with `n` symbols emitted (R77, R78);
`p` is the artifact's header. At the end of the bits `k` is `B`. -/
def decodeWalk (p : Nat) : (m k n : Nat) → Fin 512 → Run → Ended
  | 0, k, n, pos, r =>
    if pos ≠ 0 then .raised r .decodeTruncated k
    else .done (r.decodeResults n k p)
  | m + 1, k, n, pos, r =>
    let child := (r.st.nodeAt pos).child (r.st.payloadBit k)
    if child = 0 then .raised r .decodeNullChild k
    else if (r.st.nodeAt child).hasSym then
      if n = r.st.dstCap.toNat then .raised r .dstOverflow k
      else decodeWalk p m (k + 1) (n + 1) 0 (r.memWrite (r.st.dst.toNat + n) (r.st.nodeAt child).sym)
    else decodeWalk p m (k + 1) n child r

/-- The artifact's header byte `p` (R78). -/
def State.header (s : State) : Nat := (s.byteAt s.src.toNat).toNat

/-- `A`, the payload bits of the source window (R78). -/
def State.payloadBits (s : State) : Nat := 8 * (s.srcLen.toNat - 1)

/-- `DECODE` (R78). -/
def decodeBody (r : Run) : Ended :=
  let s := r.st
  if !s.srcFits then .raised r .range 0
  else if !s.dstFits then .raised r .range 1
  else if s.overlap then .raised r .overlap 0
  else if !s.status.treeValid then .raised r .noTree 0
  else if s.srcLen = 0#32 then .raised r .artifactEmpty 0
  else if s.header > s.payloadBits then .raised r .padExceeds s.header
  else decodeWalk s.header (s.payloadBits - s.header) 0 0 0 r

/-- The meaning of `DECODE` (R78, R81). -/
def execDecode (s : State) : Host.Outcome State Fault Refusal :=
  .next (runCommand noErrorEffect decodeBody s)

end Sys2Proof.Machine
end

