-- ==== Sys2Proof/Machine/Dispatch.lean ====
section
/-! DEFINITION. One arm per command, each one direct call of its meaning. -/

namespace Sys2Proof.Machine

/-- The engine's transition for the command `i` (60_exceptions.md R81). -/
def exec (i : Instr) (s : State) : Host.Outcome State Fault Refusal :=
  match i with
  | .nop => Sys2Proof.Machine.execNop s
  | .tableClear => Sys2Proof.Machine.execTableClear s
  | .entryWrite => Sys2Proof.Machine.execEntryWrite s
  | .entryRead => Sys2Proof.Machine.execEntryRead s
  | .tableStore => Sys2Proof.Machine.execTableStore s
  | .tableLoad => Sys2Proof.Machine.execTableLoad s
  | .encode => Sys2Proof.Machine.execEncode s
  | .treeBuild => Sys2Proof.Machine.execTreeBuild s
  | .decode => Sys2Proof.Machine.execDecode s

end Sys2Proof.Machine
end

