-- ==== Sys2Proof/Machine/HostPort.lean ====
section
/-! DEFINITION. The host port: the address map, legal accesses and bus errors, register and data memory
reads and writes, idle and busy (10_state.md R16 to R25; 20_memory.md R37 to R44). -/

namespace Sys2Proof.Machine

/-! ### The address map -/

/-- The register window offset of a register (R16). -/
def Reg.offset : Reg → Nat
  | .id => 0x000
  | .version => 0x004
  | .ctrl => 0x008
  | .status => 0x00C
  | .cmd => 0x010
  | .errCode => 0x014
  | .errPos => 0x018
  | .src => 0x01C
  | .srcLen => 0x020
  | .dst => 0x024
  | .dstCap => 0x028
  | .outLen => 0x02C
  | .bitLen => 0x030
  | .pad => 0x034
  | .symCount => 0x038
  | .nodeCount => 0x03C
  | .esym => 0x040
  | .elen => 0x044
  | .ecode n => 0x048 + 4 * n.val

/-- The registers in the order of R16. -/
def allRegs : List Reg :=
  [.id, .version, .ctrl, .status, .cmd, .errCode, .errPos, .src, .srcLen, .dst, .dstCap, .outLen, .bitLen,
    .pad, .symCount, .nodeCount, .esym, .elen, .ecode 0, .ecode 1, .ecode 2, .ecode 3, .ecode 4, .ecode 5,
    .ecode 6, .ecode 7]

/-- The register at a register window offset; none at a misaligned offset or from 0x068 up (R16). -/
def regAt (off : Nat) : Option Reg := allRegs.find? fun r => r.offset == off

/-- What an access addresses. -/
inductive Target where
  | reg (r : Reg)
  /-- one byte of data memory -/
  | byte (a : Nat)
  /-- four bytes of data memory from a multiple of 4 -/
  | word (a : Nat)
  deriving DecidableEq, Repr

/-- The target of a 32-bit access (R37, R38). -/
def target32 (off : BitVec 17) : Option Target :=
  if off.toNat % 4 ≠ 0 then none
  else if off.toNat < Config.dmemWindow then (regAt off.toNat).map Target.reg
  else some (.word (off.toNat - Config.dmemWindow))

/-- The target of an 8-bit access (R37, R38). -/
def target8 (off : BitVec 17) : Option Target :=
  if off.toNat < Config.dmemWindow then none else some (.byte (off.toNat - Config.dmemWindow))

/-- The target of a legal access (R38); none is a bus error (R39). -/
def HostAccess.target : HostAccess → Option Target
  | .rd8 off | .wr8 off _ => target8 off
  | .rd32 off | .wr32 off _ => target32 off
  | .otherWidth _ => none

/-- The legal accesses (R38). -/
def HostAccess.legal (a : HostAccess) : Bool := a.target.isSome

/-- The offset at which a platform access at address `addr` reaches the HBE whose two windows lie at the base
`base` (R37, D6; R91); none where it does not. -/
def platformOffset (base addr : Nat) : Option (BitVec 17) :=
  if base ≤ addr ∧ addr < base + 2 * Config.dmemWindow then
    some (BitVec.ofNat 17 (addr - base))
  else none

/-! ### Reads -/

/-- The value of a register (R16 to R25); reserved bits read as zero (R17). -/
def State.readReg (s : State) : Reg → Word
  | .id => Config.idValue
  | .version => Config.versionValue
  | .ctrl => s.ctrl.word
  | .status => s.status.word
  | .cmd => s.cmd
  | .errCode => s.errCode.setWidth 32
  | .errPos => s.errPos
  | .src => s.src
  | .srcLen => s.srcLen
  | .dst => s.dst
  | .dstCap => s.dstCap
  | .outLen => s.outLen
  | .bitLen => s.bitLen
  | .pad => s.pad
  | .symCount => s.symCount
  | .nodeCount => s.nodeCount
  | .esym => s.esym.setWidth 32
  | .elen => s.elen.setWidth 32
  | .ecode n => s.ecode[n]

/-- The registers whose reads stay exact while a command is pending (R44). -/
def Reg.exactWhileBusy : Reg → Bool
  | .id | .version | .ctrl | .status | .cmd | .src | .srcLen | .dst | .dstCap | .esym => true
  | .errCode | .errPos | .outLen | .bitLen | .pad | .symCount | .nodeCount | .elen | .ecode _ => false

/-- The value of a target read while idle: a register, a byte or a little-endian word (R40). -/
def State.readTarget (s : State) : Target → Word
  | .reg r => s.readReg r
  | .byte a => (s.byteAt a).setWidth 32
  | .word a => s.wordAt a

/-- A read of the target returns an unspecified value while a command is pending (R44). -/
def Target.unspecifiedWhileBusy : Target → Bool
  | .reg r => !r.exactWhileBusy
  | .byte _ | .word _ => true

/-- The bits of a register that are not reserved (R17, R22, R25): reserved bits read as zero "whether or not the
engine is busy" (R17). -/
def Reg.implemented : Reg → Word
  | .errCode | .esym | .elen => 0x000000FF#32
  | .ctrl => 0x00000007#32
  | .status => 0x0000001F#32
  | .id | .version | .cmd | .errPos | .src | .srcLen | .dst | .dstCap | .outLen | .bitLen | .pad | .symCount
  | .nodeCount | .ecode _ => 0xFFFFFFFF#32

/-- The value of an unspecified read (R44): a draw `v`, zero in the reserved bits of a register (R17; log 4). -/
def Target.unspecifiedValue (t : Target) (v : Word) : Word :=
  match t with
  | .reg r => v &&& r.implemented
  | .byte _ | .word _ => v

/-- The response that carries read data at the target's width. -/
def Target.response (t : Target) (v : Word) : BusResp :=
  match t with
  | .byte _ => .data8 (v.setWidth 8)
  | .reg _ | .word _ => .data32 v

/-- The response the host sees of an access; nothing else changes. -/
def State.respond (s : State) (r : BusResp) : State := { s with busResp := r }

/-- A legal host read: no side effect (R42), a fresh draw where the value is unspecified (R44). -/
def hostRead (s : State) (t : Target) : State :=
  if s.status.busy && t.unspecifiedWhileBusy then
    { s with draws := s.draws.next }.respond (t.response (t.unspecifiedValue (Config.unspecifiedRead s.draws)))
  else s.respond (t.response (s.readTarget t))

/-! ### Writes -/

/-- A host write of `v` to a register while no command is pending (R17, R19 to R25). -/
def State.writeReg (s : State) (v : Word) : Reg → State
  | .id | .version | .errCode | .errPos | .outLen | .bitLen | .pad | .symCount | .nodeCount => s
  | .ctrl => { s with ctrl := Ctrl.ofWord v }
  | .status => s.acknowledge v
  | .cmd => s.acceptCommand v
  | .src => { s with src := v }
  | .srcLen => { s with srcLen := v }
  | .dst => { s with dst := v }
  | .dstCap => { s with dstCap := v }
  | .esym => { s with esym := v.setWidth 8 }
  | .elen => { s with elen := v.setWidth 8 }
  | .ecode n => { s with ecode := s.ecode.set n.val v }

/-- A host write of `v` to a target while no command is pending (R38, R40). -/
def State.writeTarget (s : State) (v : Word) : Target → State
  | .reg r => s.writeReg v r
  | .byte a => { s with dmem := s.dmem.writeBytes a [v.setWidth 8] }
  | .word a => { s with dmem := s.dmem.writeBytes a (wordBytes v) }

/-- A legal host write: while a command is pending every write but one to `STATUS` is dropped and sets
`COLLISION` (R43). -/
def hostWrite (s : State) (t : Target) (v : Word) : State :=
  if s.status.busy && t != .reg .status then s.setCollision.respond .ack
  else (s.writeTarget v t).respond .ack

/-! ### One access -/

/-- One host access: a legal one is performed, every other completes with the error response and changes no
HBE state (R38, R39; log 5). -/
def hostAccess (a : HostAccess) (s : State) : State :=
  match a.target with
  | none => s.respond .error
  | some t =>
    match a with
    | .rd8 _ | .rd32 _ | .otherWidth _ => hostRead s t
    | .wr8 _ b => hostWrite s t (b.setWidth 32)
    | .wr32 _ v => hostWrite s t v

end Sys2Proof.Machine
end

