-- ==== Sys2Proof/Machine/Engine.lean ====
section
/-! DEFINITION. What one turn does: the engine's step on the pending command (60_exceptions.md R81, R82), a host
access, an edge of the reset input (70_reset_and_hazards.md R93). Step.lean only calls `takeTurn`. -/

namespace Sys2Proof.Machine

/-- The engine's transition on the command word in `CMD`: a legal word's command, else `ILLEGAL_CMD` (R51, R82). -/
def runPending (s : State) : Host.Outcome State Fault Refusal :=
  match decode s.cmd with
  | .ok i => exec i s
  | .error _ => .next (runIllegal s)

/-- A command is pending and the engine may run it (R81); none is while reset is asserted (R93). -/
def State.pending (s : State) : Bool := s.status.busy && !s.resetLine

/-- The engine's turn; with no pending command it waits (R94). -/
def engineTurn (s : State) : Host.Outcome State Fault Refusal :=
  if s.pending then runPending s else .next s

/-- The host's turn: one access; during reset it "is not defined" and is refused (R93; log 6). -/
def hostTurn (a : HostAccess) (s : State) : Host.Outcome State Fault Refusal :=
  if s.resetLine then .refused .hostAccessDuringReset else .next (hostAccess a s)

/-- Reset is released: everything is at its reset value still (R93). Without a reset asserted before it
there is no edge and nothing happens. -/
def releaseTurn (s : State) : State := if s.resetLine then s.applyReset false else s

/-- One turn of the agenda. -/
def takeTurn (t : Turn) (s : State) : Host.Outcome State Fault Refusal :=
  match t with
  | .engine => engineTurn s
  | .host a => hostTurn a s
  | .assertReset => .next (s.applyReset true)
  | .releaseReset => .next (releaseTurn s)

/-- The next turn: the head of the agenda, which it takes off; with an empty agenda the engine's (log 1). -/
def nextTurn (s : State) : Turn × State :=
  match s.agenda with
  | [] => (.engine, s)
  | t :: rest => (t, { s with agenda := rest })

/-- `s` with the command word `w` accepted and the next turn the engine's: what a host write of `w` to `CMD`
does (R21), whatever stood pending before, with reset released (log 8). -/
def State.withPending (s : State) (w : Word) : State :=
  { s.acceptCommand w with agenda := .engine :: s.agenda, resetLine := false }

end Sys2Proof.Machine
end

