-- ==== Sys2Proof/Machine/Step.lean ====
section
/-! DEFINITION. One step of the machine: the next turn of its agenda (log 1), and the placing of a command
word where the next step runs it (log 8). -/

namespace Sys2Proof.Machine

/-- One step: the next turn is taken (60_exceptions.md R81; 20_memory.md R45). -/
def step (s : State) : Host.Outcome State Fault Refusal :=
  takeTurn (nextTurn s).1 (nextTurn s).2

/-- The HBE fetches no instruction (20_memory.md R47): a command is the word the host writes to `CMD`. So the
word is placed as an accepted `CMD` write places it, and the next turn is the engine's. -/
def State.withFetchWord (s : State) (nbits w : Nat) : State :=
  s.withPending (BitVec.ofNat 32 (w % 2 ^ nbits))

end Sys2Proof.Machine
end

