-- ==== Sys2Proof/Machine/HostProgram.lean ====
section
/-! DEFINITION. Host programs: one bus operation per line, with the pseudo-operations and their expansions
(30_encoding.md R53, R54), run against the machine. Variables, the current line and branches are "the host's own
state and are not HBE state" (R53), so they stand beside `State`, not in it (log 12). -/

namespace Sys2Proof.Machine

/-- One line of a host program (R53). Variables and labels are numbered. -/
inductive HostLine where
  /-- `WR32 off, v` -/
  | wr32 (off : BitVec 17) (v : Word)
  /-- `RD32 off -> t` -/
  | rd32 (off : BitVec 17) (t : Nat)
  /-- `WR8 off, b` -/
  | wr8 (off : BitVec 17) (b : Byte)
  /-- `RD8 off -> t` -/
  | rd8 (off : BitVec 17) (t : Nat)
  /-- `label:` names the next line -/
  | label (l : Nat)
  /-- `BNZ t, mask, label` -/
  | bnz (t : Nat) (mask : Word) (l : Nat)
  deriving DecidableEq, Repr

/-! ### Names of offsets (R53) and pseudo-operations (R54) -/

/-- The offset of a register by its name. -/
def regOffset (r : Reg) : BitVec 17 := BitVec.ofNat 17 r.offset

/-- `D+a`: the offset of data memory byte `a`. DESIGN CHOICE (log 12): for `a` of 0x10000 or more, which is no byte of
data memory and has no offset in R53 or R54, `0x10000 + a` modulo 2^17, the width of an offset (R37). -/
def dmemOffset (a : Nat) : BitVec 17 := BitVec.ofNat 17 (Config.dmemWindow + a)

/-- `CMD op`. -/
def linesCmd (i : Instr) : List HostLine := [.wr32 (regOffset .cmd) (encode i)]

/-- `WAIT` with the fresh label `l` and the variable `t`. -/
def linesWait (l t : Nat) : List HostLine := [.label l, .rd32 (regOffset .status) t, .bnz t 0x1#32 l]

/-- `WRBYTES a, b0 b1 ... bm`. -/
def linesWrBytes (a : Nat) : List Byte → List HostLine
  | [] => []
  | b :: bs => .wr8 (dmemOffset a) b :: linesWrBytes (a + 1) bs

/-- `RUN op`. -/
def linesRun (i : Instr) (l t : Nat) : List HostLine := linesCmd i ++ linesWait l t

/-- `PUTENTRY s, L, c0 c1 ... c7`; codes that are left out are written as 0. DESIGN CHOICE (log 12): codes past the
eighth, which R54's form does not have, are dropped. -/
def linesPutEntry (sym len : Word) (codes : List Word) (l t : Nat) : List HostLine :=
  [.wr32 (regOffset .esym) sym, .wr32 (regOffset .elen) len]
    ++ (List.range 8).map (fun j => HostLine.wr32 (BitVec.ofNat 17 (0x048 + 4 * j)) (codes.getD j 0#32))
    ++ linesRun .entryWrite l t

/-! ### Running a program -/

/-- The host's own state: the line it performs next and its variables. -/
structure HostProc where
  line : Nat
  vars : List (Nat × Word)
  deriving DecidableEq, Repr

/-- Why a program does not go on. -/
inductive HostStop where
  /-- its last line has been performed (R96) -/
  | ended
  /-- a branch to a label that names no line, or on a variable that no read has set (log 12) -/
  | illFormed
  /-- the machine refused the access (reset asserted, log 6) -/
  | refused
  deriving DecidableEq, Repr

/-- What one line does: the host and the machine after it, or a stop. -/
inductive HostResult where
  | moved (h : HostProc) (s : State)
  | stopped (why : HostStop)
  deriving DecidableEq, Repr

/-- The bus operation of a line, if it has one (R53). -/
def HostLine.access : HostLine → Option HostAccess
  | .wr32 off v => some (.wr32 off v)
  | .rd32 off _ => some (.rd32 off)
  | .wr8 off b => some (.wr8 off b)
  | .rd8 off _ => some (.rd8 off)
  | .label _ | .bnz _ _ _ => none

/-- The variable a line reads into. -/
def HostLine.variable? : HostLine → Option Nat
  | .rd32 _ t | .rd8 _ t => some t
  | .wr32 _ _ | .wr8 _ _ | .label _ | .bnz _ _ _ => none

/-- The variables after a line whose access the port answered; an error response carries no data (R39). -/
def HostProc.receive (h : HostProc) (t : Option Nat) (r : BusResp) : List (Nat × Word) :=
  match t, r with
  | some t, .data32 v => writeCell h.vars t v
  | some t, .data8 b => writeCell h.vars t (b.setWidth 32)
  | _, _ => h.vars

/-- The line that a label names. DESIGN CHOICE (log 12): where a label stands on two lines of one program, of which
R53 says nothing, the first of them. -/
def labelLine (p : List HostLine) (l : Nat) : Option Nat :=
  if .label l ∈ p then some (p.findIdx (· == .label l)) else none

/-- The host performs the line it stands at: its bus operation is the machine's next turn. -/
def hostLineStep (p : List HostLine) (h : HostProc) (s : State) : HostResult :=
  match p[h.line]? with
  | none => .stopped .ended
  | some ln =>
    match ln.access with
    | some a =>
      match step { s with agenda := .host a :: s.agenda } with
      | .next s' => .moved { line := h.line + 1, vars := h.receive ln.variable? s'.busResp } s'
      | .fault _ | .refused _ => .stopped .refused
    | none =>
      match ln with
      | .bnz t mask l =>
        match findCell h.vars t, labelLine p l with
        | some v, some n => .moved { h with line := if v &&& mask ≠ 0#32 then n else h.line + 1 } s
        | _, _ => .stopped .illFormed
      | .label _ | .wr32 _ _ | .rd32 _ _ | .wr8 _ _ | .rd8 _ _ => .moved { h with line := h.line + 1 } s

/-- Run a program under a schedule: at each `true` the engine takes a turn, at each `false` the host performs
a line (R81: the engine's step falls anywhere after acceptance). -/
def runHostProgram (p : List HostLine) : List Bool → HostProc → State → HostResult
  | [], h, s => .moved h s
  | true :: turns, h, s =>
    match step { s with agenda := .engine :: s.agenda } with
    | .next s' => runHostProgram p turns h s'
    | .fault _ | .refused _ => .stopped .refused
  | false :: turns, h, s =>
    match hostLineStep p h s with
    | .moved h' s' => runHostProgram p turns h' s'
    | .stopped why => .stopped why

end Sys2Proof.Machine
end

