-- ==== Sys2Proof/Machine/Platform.lean ====
section
/-! DEFINITION. A platform that holds several HBEs, each at its own base (60_exceptions.md R91; 20_memory.md R37):
which of them a bus access reaches, and one turn of one of them. They share no state: each slot holds a whole `State`
(log 17). -/

namespace Sys2Proof.Machine

/-- One HBE of a platform with its base `HBE_BASE` (R91). -/
structure PlatformSlot where
  base : Nat
  hbe : State
  deriving DecidableEq, Repr

/-- The HBEs of a platform, numbered from 0. The number is the model's: "the base address tells [them] apart"
(R91). -/
abbrev Platform := List PlatformSlot

/-- One access on the platform's bus, without its address. -/
inductive BusOp where
  | rd8
  | wr8 (b : Byte)
  | rd32
  | wr32 (v : Word)
  | otherWidth
  deriving DecidableEq, Repr

/-- The access to an HBE's port that a bus access makes at an offset. -/
def BusOp.toAccess (op : BusOp) (off : BitVec 17) : HostAccess :=
  match op with
  | .rd8 => .rd8 off
  | .wr8 b => .wr8 off b
  | .rd32 => .rd32 off
  | .wr32 v => .wr32 off v
  | .otherWidth => .otherWidth off

/-- One turn on a platform. -/
inductive PlatformTurn where
  /-- a bus access at a platform address; accesses come one at a time (R45) -/
  | bus (addr : Nat) (op : BusOp)
  /-- the engine of HBE `k` takes its step (R81) -/
  | engine (k : Nat)
  /-- the reset input of HBE `k` is asserted (R93) -/
  | assertReset (k : Nat)
  /-- the reset input of HBE `k` is released (R93) -/
  | releaseReset (k : Nat)
  deriving DecidableEq, Repr

/-- The HBE that an address reaches, and the offset there. DESIGN CHOICE (log 17): where two HBEs' windows overlap,
of which R91 says nothing, the first. -/
def Platform.route : Platform → Nat → Option (Nat × BitVec 17)
  | [], _ => none
  | sl :: p, addr =>
    match platformOffset sl.base addr with
    | some off => some (0, off)
    | none => (Platform.route p addr).map fun r => (r.1 + 1, r.2)

/-- HBE `k` takes the turn `t`; every other HBE stays as it is. -/
def Platform.turnAt (p : Platform) (k : Nat) (t : Turn) : Host.Outcome Platform Fault Refusal :=
  match p[k]? with
  | none => .next p
  | some sl =>
    match step { sl.hbe with agenda := t :: sl.hbe.agenda } with
    | .next s => .next (p.set k { sl with hbe := s })
    | .fault f => .fault f
    | .refused r => .refused r

/-- One step of a platform. An access that reaches no HBE changes none (R37); what the platform answers it is the
platform's (log 17). -/
def platformStep (p : Platform) (t : PlatformTurn) : Host.Outcome Platform Fault Refusal :=
  match t with
  | .bus addr op =>
    match p.route addr with
    | none => .next p
    | some (k, off) => p.turnAt k (.host (op.toAccess off))
  | .engine k => p.turnAt k .engine
  | .assertReset k => p.turnAt k .assertReset
  | .releaseReset k => p.turnAt k .releaseReset

/-- HBE number `u` right after reset: its unspecified contents are draws of its own (R34, R29; log 17). -/
def State.resetOf (u : Nat) : State :=
  { State.reset with dmemDraw := ⟨u, 0⟩, arenaDraw := ⟨u, 0⟩, draws := ⟨u, 0⟩ }

/-- A platform of `n` HBEs right after reset, each at its own base (R91). -/
def Platform.reset (n : Nat) : Platform :=
  (List.range n).map fun k => { base := Config.hbeBase k, hbe := State.resetOf k }

end Sys2Proof.Machine
end

