-- ==== Sys2Proof/Safety.lean ====
section
/-! DEFINITION. The terms claims are stated in: the two records a command can leave (60_exceptions.md R83), what a
command does to the bytes of memory, the properties of tables and trees the spec speaks of, and the invariant of
the machine. They are written from the spec's words, apart from the definitions the step calls. -/

namespace Sys2Proof.Machine

/-! ### Completion records -/

/-- What a successful command leaves of a state when it writes nothing but the result registers
(R82, R83): `ERRCODE` and `ERR_POS` 0, the four results, `BUSY` 0, `DONE` 1, `ERR` 0, all else as it was. -/
def State.okRecord (s : State) (outLen bitLen pad symCount : Nat) : State :=
  { s with
    errCode := 0#8
    errPos := 0#32
    outLen := BitVec.ofNat 32 outLen
    bitLen := BitVec.ofNat 32 bitLen
    pad := BitVec.ofNat 32 pad
    symCount := BitVec.ofNat 32 symCount
    status := { s.status with busy := false, done := true, err := false } }

/-- What a failed command leaves of a state when it has no other effect (R83): the error record,
`OUT_LEN` = the bytes written, the other results 0, `BUSY` 0, `DONE` 1, `ERR` 1, all else as it was. -/
def State.errRecord (s : State) (code pos written : Nat) : State :=
  { s with
    errCode := BitVec.ofNat 8 code
    errPos := BitVec.ofNat 32 pos
    outLen := BitVec.ofNat 32 written
    bitLen := 0#32
    pad := 0#32
    symCount := 0#32
    status := { s.status with busy := false, done := true, err := true } }

/-- `t` is the record `u` of a command but for data memory, where it holds the bytes `bs` from address `a` up
and every other byte as `s` had it. -/
def State.isRecordWith (t u s : State) (a : Nat) (bs : List Byte) : Prop :=
  { t with dmem := s.dmem } = u ∧
  (∀ i (h : i < bs.length), t.byteAt (a + i) = bs[i]) ∧
  (∀ b, b < a ∨ a + bs.length ≤ b → t.byteAt b = s.byteAt b)

/-- `s` with `TREE_VALID = 0` (R30). -/
def State.withoutTree (s : State) : State := { s with status := { s.status with treeValid := false } }

/-- `s` with the host's response `r`. -/
def State.answered (s : State) (r : BusResp) : State := { s with busResp := r }

/-! ### Windows (20_memory.md R36) -/

/-- Both windows lie in data memory and share no byte. -/
def State.windowsGood (s : State) : Prop :=
  s.src.toNat + s.srcLen.toNat ≤ 65536 ∧
  s.dst.toNat + s.dstCap.toNat ≤ 65536 ∧
  (s.srcLen.toNat = 0 ∨ s.dstCap.toNat = 0 ∨
    s.src.toNat + s.srcLen.toNat ≤ s.dst.toNat ∨ s.dst.toNat + s.dstCap.toNat ≤ s.src.toNat)

/-- The source window lies in data memory and holds exactly the bytes `bs`. -/
def State.sourceHolds (s : State) (bs : List Byte) : Prop :=
  s.src.toNat + s.srcLen.toNat ≤ 65536 ∧ s.srcLen.toNat = bs.length ∧
  ∀ i (h : i < bs.length), s.byteAt (s.src.toNat + i) = bs[i]

/-! ### Table images (41_table_serializer.md R62) -/

/-- The bytes of one record: the symbol, the length, one ASCII character a position. -/
def recordBytes (r : Byte × List Bool) : List Byte :=
  r.1 :: BitVec.ofNat 8 r.2.length :: r.2.map fun b => if b then 0x31#8 else 0x30#8

/-- The two bytes of a record count, little-endian. -/
def countBytes (n : Nat) : List Byte := [BitVec.ofNat 8 (n % 256), BitVec.ofNat 8 (n / 256)]

/-- The table image of a list of records. -/
def imageBytes (recs : List (Byte × List Bool)) : List Byte :=
  countBytes recs.length ++ recs.flatMap recordBytes

/-- Records an image may hold: distinct symbols, codewords of length 1 to 255. -/
def recordsGood (recs : List (Byte × List Bool)) : Prop :=
  (recs.map Prod.fst).Nodup ∧ ∀ r ∈ recs, 1 ≤ r.2.length ∧ r.2.length ≤ 255

/-- The records of a table in canonical order (R60, R63). -/
def Table.records (ct : Table) : List (Byte × List Bool) :=
  ct.canonical.map fun s => (s, (ct.get s).word)

/-! ### Tables and trees -/

/-- "No code is a prefix of another" (00_scope.md R13), over the present entries. -/
def Table.prefixFree (ct : Table) : Prop :=
  ∀ s t : Byte, s ≠ t → (ct.get s).len ≠ 0#8 → (ct.get t).len ≠ 0#8 →
    ¬ (ct.get s).word <+: (ct.get t).word

/-- Two symbols conflict: both are present and one codeword is a prefix of, or equal to, the other (R84). -/
def Table.conflict (ct : Table) (s t : Byte) : Prop :=
  (ct.get s).len ≠ 0#8 ∧ (ct.get t).len ≠ 0#8 ∧
    ((ct.get s).word <+: (ct.get t).word ∨ (ct.get t).word <+: (ct.get s).word)

/-- The present codewords of the symbols below `bound` have `n` distinct prefixes, the empty one among
them: the nodes their tree needs, one a prefix (43_decode_tree_walker.md R74). -/
def Table.prefixCount (ct : Table) (bound n : Nat) : Prop :=
  ∃ ps : List (List Bool), ps.Nodup ∧ ps.length = n ∧
    ∀ p, p ∈ ps ↔ p = [] ∨ ∃ s : Byte, s.toNat < bound ∧ (ct.get s).len ≠ 0#8 ∧ p <+: (ct.get s).word

/-- Follow a path of bits from a node, 0 = left and 1 = right (43_decode_tree_walker.md R77); none at a
missing child. -/
def State.follow (s : State) : Fin 512 → List Bool → Option (Fin 512)
  | n, [] => some n
  | n, b :: w =>
    let child := if b then (s.nodeAt n).right else (s.nodeAt n).left
    if child = 0 then none else s.follow child w

/-- The arena is what TREE_BUILD makes of the current table, over whatever it held before
(10_state.md R30). -/
def State.treeOfTable (s : State) : Prop :=
  ∃ (before : Arena) (t : Builder),
    buildTree s.arenaDraw before s.ct = .ok t ∧ s.arena = t.arena ∧ s.nodeCount = BitVec.ofNat 32 t.count

/-- The payload of the artifact in the source window begins with the bits `bits`: payload bit `k` is bit
`7 - (k mod 8)` of payload byte `k div 8` (20_memory.md R40, 43_decode_tree_walker.md R76). -/
def State.payloadBegins (s : State) (bits : List Bool) : Prop :=
  ∀ k (h : k < bits.length), (s.byteAt (s.src.toNat + 1 + k / 8)).getLsbD (7 - k % 8) = bits[k]

/-- The source window holds an artifact with header `p` whose payload gives `B` bits to the walk: `A = 8P`
payload bits and `B = A - p` (R66, R76). -/
def State.holdsArtifact (s : State) (p B : Nat) : Prop :=
  0 < s.srcLen.toNat ∧ (s.byteAt s.src.toNat).toNat = p ∧ 8 * (s.srcLen.toNat - 1) = B + p

/-- The codewords of a list of symbols, one after the other (42_encoder.md R68). -/
def Table.stream (ct : Table) (syms : List Byte) : List Bool := syms.flatMap fun b => (ct.get b).word

/-- DECODE may walk: both windows good and a decode tree of the current table in the arena (R78, R30). -/
def State.walkReady (s : State) : Prop :=
  s.windowsGood ∧ s.status.treeValid = true ∧ s.treeOfTable

/-! ### Platforms of several HBEs (60_exceptions.md R91) -/

/-- Each HBE is at its own base: no two have an address in common. -/
def Platform.apart (p : Platform) : Prop :=
  p.Pairwise fun a b => a.base + 0x20000 ≤ b.base ∨ b.base + 0x20000 ≤ a.base

/-- HBE `k` takes its unspecified values from draws of its own, so no two HBEs share one (log 17). -/
def Platform.ownDraws (p : Platform) : Prop :=
  ∀ (k : Nat) (h : k < p.length),
    p[k].hbe.dmemDraw.unit = k ∧ p[k].hbe.arenaDraw.unit = k ∧ p[k].hbe.draws.unit = k

/-- `p'` is `p` but for HBE `k`, whose state is `s` now. -/
def Platform.differsAt (p p' : Platform) (k : Nat) (s : State) : Prop :=
  p'.length = p.length ∧
  (∃ sl, p[k]? = some sl ∧ p'[k]? = some { base := sl.base, hbe := s }) ∧
  ∀ j, j ≠ k → p'[j]? = p[j]?

/-! ### The invariant -/

/-- What holds of the machine at reset and after every step. -/
structure State.Inv (s : State) : Prop where
  /-- data memory keeps its canonical form, with addresses below `DMEM_SIZE` (R34) -/
  dmemWf : s.dmem.wf
  /-- the arena keeps its canonical form, with indices below `NODES` (R29) -/
  arenaWf : s.arena.wf
  /-- `CT[s].code[i] = 0` for every `i >= CT[s].len` (R28) -/
  zeroTail : ∀ sym, (s.entry sym).zeroTail
  /-- `DONE` and `ERR` are 0 while `BUSY = 1` (R20) -/
  busyQuiet : s.status.busy = true → s.status.done = false ∧ s.status.err = false
  /-- `ERR = 1` only with an error code in `ERRCODE` (R20) -/
  errHasCode : s.status.err = true → s.errCode ≠ 0#8
  /-- codes 0x0E to 0xFF are never written (R84) -/
  codeRange : s.errCode.toNat ≤ 0x0D
  /-- `NODE_COUNT` is at most `NODES` (R24, R29) -/
  nodeCountRange : s.nodeCount.toNat ≤ 512
  /-- `TREE_VALID = 1` states that the arena holds the decode tree of the current `CT` (R30) -/
  treeCurrent : s.status.treeValid = true → s.treeOfTable
  /-- while reset is asserted everything is at its reset value (R93) -/
  resetHeld : s.resetLine = true →
    s = { State.reset with
      resetLine := true, dmemDraw := s.dmemDraw, arenaDraw := s.arenaDraw, draws := s.draws, agenda := s.agenda }

end Sys2Proof.Machine
end

