-- ==== Sys2Proof/Certificates/Slice0/Obligations.lean ====
section
/-! DEFINITION. The statements for the provers. Terms such as `okRecord`, `isRecordWith`, `walkReady` stand in
Safety.lean. A statement that ends in `exec i s = .next _` is its instruction's completion statement. -/

open Sys2Proof Sys2Proof.Machine

/-! ### Command words and steps -/

/-- R51: the legal command words are exactly the nine of the opcode map; decoding and encoding agree. -/
def Obligations.LegalWordsAreExactlyTheNine : Prop :=
  (∀ (w : Word) (i : Instr), decode w = .ok i ↔ w = encode i) ∧
  encode .nop = 0x00000000#32 ∧ encode .tableClear = 0x00000001#32 ∧ encode .entryWrite = 0x00000002#32 ∧
  encode .entryRead = 0x00000003#32 ∧ encode .tableStore = 0x00000004#32 ∧ encode .tableLoad = 0x00000005#32 ∧
  encode .encode = 0x00000006#32 ∧ encode .treeBuild = 0x00000007#32 ∧ encode .decode = 0x00000008#32

/-- Words written out from R49, R51 and R52 decode to their commands or are rejected by name. -/
def Obligations.WordsDecodeAsTheTableSays : Prop :=
  decode 0b00000000000000000000000000000010#32 = .ok .entryWrite ∧
  decode 0b00000000000000000000000000000101#32 = .ok .tableLoad ∧
  decode 0b00000000000000000000000000000110#32 = .ok .encode ∧
  decode 0b00000000000000000000000000001000#32 = .ok .decode ∧
  decode 0b00000000000000000000000000001001#32 = .error (.unassignedOpcode 9#8) ∧
  decode 0b00000000000000000000000100000110#32 = .error (.reservedBits 1#24)

/-- R52: every other word is illegal; it is still accepted by `CMD`, and its execution changes nothing but
what the start and completion steps write, with `ERRCODE = ILLEGAL_CMD` and `ERR_POS = 0`. -/
def Obligations.IllegalWordCompletesWithIllegalCmd : Prop :=
  ∀ (s : State) (w : Word), (∀ i : Instr, w ≠ encode i) →
    (s.status.busy = false →
      hostAccess (.wr32 0x010#17 w) s =
        ({ s with cmd := w, status := { s.status with busy := true, done := false, err := false } }).answered .ack) ∧
    (s.cmd = w → s.status.busy = true → s.resetLine = false →
      ∀ rest, step { s with agenda := .engine :: rest } = .next ({ s with agenda := rest }.errRecord 0x01 0 0))

/-- R81: when a legal command word is pending and the turn is the engine's, the step is `exec` of the decoded
command. The turn is the engine's when it stands first in the agenda or the agenda is empty
(the model's choice of a schedule, log 1). -/
def Obligations.StepRunsTheDecodedCommand : Prop :=
  ∀ (s : State) (i : Instr), decode s.cmd = .ok i → s.status.busy = true → s.resetLine = false →
    (∀ rest, step { s with agenda := .engine :: rest } = exec i { s with agenda := rest }) ∧
    (s.agenda = [] → step s = exec i s)

/-- The other turns: a host access reaches the port, an engine turn with no pending command changes nothing
(R94), and placing a command word makes the next step run it (logs 1 and 8). -/
def Obligations.StepTakesHostAndIdleTurns : Prop :=
  (∀ (s : State) (a : HostAccess) (rest : List Turn), s.resetLine = false →
    step { s with agenda := .host a :: rest } = .next (hostAccess a { s with agenda := rest })) ∧
  (∀ (s : State) (rest : List Turn), s.status.busy = false →
    step { s with agenda := .engine :: rest } = .next { s with agenda := rest }) ∧
  (∀ (s : State), s.status.busy = false → s.agenda = [] → step s = .next s) ∧
  (∀ (s : State) (i : Instr), step (s.withFetchWord 32 (encode i).toNat) =
    exec i { s with
      cmd := encode i
      status := { s.status with busy := true, done := false, err := false }
      resetLine := false })

/-! ### Reset -/

/-- R33: the state after reset. -/
def Obligations.ResetLeavesEveryRegisterAtItsValue : Prop :=
  (∀ r : Reg, State.reset.readReg r =
    match r with
    | .id => 0x48424531#32
    | .version => 0x00000001#32
    | _ => 0x00000000#32) ∧
  (∀ sym, (State.reset.entry sym).len = 0#8 ∧ ∀ i, (State.reset.entry sym).pos i = false) ∧
  (∀ n, State.reset.nodeAt n = Node.unspecified ⟨0, 0⟩ n.val) ∧
  (∀ a, State.reset.byteAt a = Config.dmemAtReset ⟨0, 0⟩ a) ∧
  State.reset.pending = false ∧ State.reset.irq = false

/-- R93: asserting reset in any state drops a pending command without completing it and puts everything at its
reset value, memory and arena unspecified anew; until release the engine stands still and a host access is refused
(U5, log 6); release leaves the reset state. -/
def Obligations.ResetInputResetsFromAnyState : Prop :=
  ∀ (s : State) (rest : List Turn), ∃ t,
    step { s with agenda := .assertReset :: rest } = .next t ∧
    t = { State.reset with
      resetLine := true, dmemDraw := s.dmemDraw.next, arenaDraw := s.arenaDraw.next, draws := s.draws,
      agenda := rest } ∧
    t.irq = false ∧ t.status.done = false ∧
    (∀ a, t.byteAt a = Config.dmemAtReset s.dmemDraw.next a) ∧
    step { t with agenda := .engine :: rest } = .next t ∧
    (∀ a, step { t with agenda := .host a :: rest } = .refused .hostAccessDuringReset) ∧
    ∃ u, step { t with agenda := .releaseReset :: rest } = .next u ∧
      u = { State.reset with
        dmemDraw := s.dmemDraw.next.next, arenaDraw := s.arenaDraw.next.next, draws := s.draws, agenda := rest }

/-! ### The frame of every command -/

/-- R83, R84: every command ends with `BUSY = 0`, `DONE = 1`, `ERR = (ERRCODE != 0)` and a code of the table;
after a success `ERR_POS = 0`, after a failure `BIT_LEN = PAD = SYM_COUNT = 0`; it never writes `CTRL`, `CMD`, the
window registers, `ESYM` or `COLLISION` (R23, R25, R31); the results of an earlier command never reach it (R82, R98). -/
def Obligations.EveryCommandEndsInACompletionRecord : Prop :=
  ∀ (i : Instr) (s : State), ∃ t, exec i s = .next t ∧
    t.status.busy = false ∧ t.status.done = true ∧ (t.status.err = true ↔ t.errCode ≠ 0#8) ∧
    t.errCode.toNat ≤ 0x0D ∧ (t.status.err = false → t.errPos = 0#32) ∧
    (t.status.err = true → t.bitLen = 0#32 ∧ t.pad = 0#32 ∧ t.symCount = 0#32) ∧
    t.status.collision = s.status.collision ∧ t.ctrl = s.ctrl ∧ t.cmd = s.cmd ∧ t.src = s.src ∧
    t.srcLen = s.srcLen ∧ t.dst = s.dst ∧ t.dstCap = s.dstCap ∧ t.esym = s.esym ∧
    t.resetLine = s.resetLine ∧ t.agenda = s.agenda ∧ t.busResp = s.busResp ∧
    ∀ (c : Byte) (p o b d n : Word),
      exec i { s with errCode := c, errPos := p, outLen := o, bitLen := b, pad := d, symCount := n } = .next t

/-- R83: `written` is 0 for every error except the walk errors of DECODE, so such a failure leaves every byte of
memory and reports `OUT_LEN = 0`. -/
def Obligations.FailuresOtherThanWalkErrorsWriteNothing : Prop :=
  ∀ (i : Instr) (s t : State), exec i s = .next t → t.status.err = true →
    (i ≠ .decode ∨ (t.errCode ≠ 0x05#8 ∧ t.errCode ≠ 0x09#8 ∧ t.errCode ≠ 0x0A#8)) →
    t.outLen = 0#32 ∧ ∀ a, t.byteAt a = s.byteAt a

/-- R36: no command writes a byte of memory outside its destination window. -/
def Obligations.CommandsWriteOnlyTheDestinationWindow : Prop :=
  ∀ (i : Instr) (s t : State) (a : Nat), exec i s = .next t →
    (a < s.dst.toNat ∨ s.dst.toNat + s.dstCap.toNat ≤ a) → t.byteAt a = s.byteAt a

/-- R36: a command's whole effect depends on memory only through the bytes of its source window: on two
memories that agree there it leaves the same registers, table and arena, and every byte it does not leave alone in
both it leaves the same. -/
def Obligations.CommandsReadOnlyTheSourceWindow : Prop :=
  ∀ (i : Instr) (s : State) (m : Memory) (d : Draw),
    (∀ a, s.src.toNat ≤ a → a < s.src.toNat + s.srcLen.toNat →
      State.byteAt { s with dmem := m, dmemDraw := d } a = s.byteAt a) →
    ∃ t u, exec i s = .next t ∧ exec i { s with dmem := m, dmemDraw := d } = .next u ∧
      { u with dmem := t.dmem, dmemDraw := t.dmemDraw } = t ∧
      ∀ a, u.byteAt a = t.byteAt a ∨
        (t.byteAt a = s.byteAt a ∧ u.byteAt a = State.byteAt { s with dmem := m, dmemDraw := d } a)

/-- R26, R100: `CTRL` reaches no command but ENCODE: under any other `CTRL` the command does the same. -/
def Obligations.OnlyEncodeReadsThePaddingMode : Prop :=
  ∀ (i : Instr) (s : State) (c : Ctrl), i ≠ .encode →
    ∃ t, exec i s = .next t ∧ exec i { s with ctrl := c } = .next { t with ctrl := c }

/-! ### Code table access -/

/-- R55: NOP only runs the start and completion steps. -/
def Obligations.NopOnlyCompletes : Prop :=
  encode .nop = 0x00000000#32 ∧
  (∀ s : State, exec .nop s = .next (s.okRecord 0 0 0 0)) ∧
  ∃ t, exec .nop State.reset = .next t ∧ t.status.word = 0x00000002#32 ∧ t.errCode = 0#8

/-- R56: TABLE_CLEAR empties every entry and clears `TREE_VALID`, and does nothing else; `NODE_COUNT` and the
arena are unchanged. -/
def Obligations.TableClearEmptiesTheTable : Prop :=
  encode .tableClear = 0x00000001#32 ∧
  ∀ s : State, ∃ t, exec .tableClear s = .next t ∧
    (∀ sym, (t.entry sym).len = 0#8 ∧ ∀ i, (t.entry sym).pos i = false) ∧
    { t with ct := s.ct } = s.withoutTree.okRecord 0 0 0 0

/-- R57: ENTRY_WRITE stores `ELEN` and the positions below it, zeros after them, in the entry `ESYM` selects,
clears `TREE_VALID`, and changes no other entry and nothing else. -/
def Obligations.EntryWriteStoresTheStagedEntry : Prop :=
  encode .entryWrite = 0x00000002#32 ∧
  ∀ s : State, ∃ t, exec .entryWrite s = .next t ∧
    (t.entry s.esym).len = s.elen ∧
    (∀ i (h : i < 255), (t.entry s.esym).pos i =
      (decide (i < s.elen.toNat) && (s.ecode[i / 32]).getLsbD (31 - i % 32))) ∧
    (∀ sym, sym ≠ s.esym → t.entry sym = s.entry sym) ∧
    { t with ct := s.ct } = s.withoutTree.okRecord 0 0 0 0

/-- R58: ENTRY_READ copies the entry `ESYM` selects into `ELEN` and `ECODE0` to `ECODE7`, 0 at and past its
length, and changes nothing else. Followed by ENTRY_WRITE with the same `ESYM` it rewrites the same entry, for a
table whose entries keep the zero tail of R28, and clears `TREE_VALID`. -/
def Obligations.EntryReadCopiesTheEntry : Prop :=
  encode .entryRead = 0x00000003#32 ∧
  (∀ s : State, ∃ t, exec .entryRead s = .next t ∧
    t.elen = (s.entry s.esym).len ∧
    (∀ i (h : i < 256), (t.ecode[i / 32]).getLsbD (31 - i % 32) =
      (decide (i < (s.entry s.esym).len.toNat) && (s.entry s.esym).pos i)) ∧
    { t with elen := s.elen, ecode := s.ecode } = s.okRecord 0 0 0 0) ∧
  ∀ s : State, (∀ sym, (s.entry sym).zeroTail) →
    ∃ t u, exec .entryRead s = .next t ∧ exec .entryWrite t = .next u ∧ u.ct = s.ct ∧
      u.status.treeValid = false

/-! ### Serializer -/

/-- R59: the canonical key is the decimal numeral of the substituted digits. -/
def Obligations.CanonicalKeyIsTheDecimalNumeral : Prop :=
  ∀ w : List Bool, canonicalKey w =
    ((List.range w.length).map fun i => ((bitAt w i).toNat + 1) * 10 ^ (w.length - 1 - i)).sum

/-- R60: the canonical list holds exactly the present symbols, each key smaller than the next or the keys equal
and the symbols ascending; keys are equal only for equal codewords, which no prefix-free table has. -/
def Obligations.CanonicalListIsSortedByKeyThenSymbol : Prop :=
  ∀ ct : Table,
    ct.canonical.Pairwise (fun s t =>
      canonicalKey (ct.get s).word < canonicalKey (ct.get t).word ∨
      (canonicalKey (ct.get s).word = canonicalKey (ct.get t).word ∧ s.toNat < t.toNat)) ∧
    (∀ s : Byte, s ∈ ct.canonical ↔ (ct.get s).len ≠ 0#8) ∧
    ∀ s t : Byte, canonicalKey (ct.get s).word = canonicalKey (ct.get t).word →
      (ct.get s).word = (ct.get t).word ∧ (ct.prefixFree → (ct.get s).len ≠ 0#8 → s = t)

/-- R61: the order by key and symbol is shortlex order with ties by symbol. -/
def Obligations.CanonicalOrderIsShortlex : Prop :=
  ∀ (ct : Table) (s t : Byte), canonBefore ct s t = true ↔
    (ct.get s).len.toNat < (ct.get t).len.toNat ∨
    ((ct.get s).len = (ct.get t).len ∧
      ∃ i < (ct.get s).len.toNat, (∀ j < i, (ct.get s).pos j = (ct.get t).pos j) ∧
        (ct.get s).pos i = false ∧ (ct.get t).pos i = true) ∨
    ((ct.get s).word = (ct.get t).word ∧ s.toNat < t.toNat)

/-- R63, R62: TABLE_STORE writes the image of the table's records in canonical order at `DST`, with its size (2, and
2 + L for each present entry) and entry count as results, and changes nothing else. -/
def Obligations.TableStoreWritesTheImage : Prop :=
  ∀ s : State, (imageBytes s.ct.records).length =
      2 + ((allSymbols.filter fun x => (s.ct.get x).len ≠ 0#8).map fun x => 2 + (s.ct.get x).len.toNat).sum ∧
    (s.dst.toNat + s.dstCap.toNat ≤ 65536 → (imageBytes s.ct.records).length ≤ s.dstCap.toNat →
    ∃ t, exec .tableStore s = .next t ∧
      t.isRecordWith (s.okRecord (imageBytes s.ct.records).length 0 0 s.ct.records.length) s
        s.dst.toNat (imageBytes s.ct.records))

/-- R63: TABLE_STORE's two errors, in their order, with nothing else changed. -/
def Obligations.TableStoreErrors : Prop :=
  ∀ s : State,
    (65536 < s.dst.toNat + s.dstCap.toNat → exec .tableStore s = .next (s.errRecord 0x02 1 0)) ∧
    (s.dst.toNat + s.dstCap.toNat ≤ 65536 → s.dstCap.toNat < (imageBytes s.ct.records).length →
      exec .tableStore s = .next (s.errRecord 0x05 (imageBytes s.ct.records).length 0))

/-- R64: TABLE_LOAD of any well-formed image, its records in any order, replaces the table by them, clears
`TREE_VALID`, and changes nothing else. -/
def Obligations.TableLoadReadsEveryWellFormedImage : Prop :=
  ∀ (s : State) (recs : List (Byte × List Bool)), recordsGood recs → s.sourceHolds (imageBytes recs) →
    ∃ t, exec .tableLoad s = .next t ∧
      (∀ r ∈ recs, (t.entry r.1).word = r.2) ∧
      (∀ sym, sym ∉ recs.map Prod.fst → (t.entry sym).len = 0#8) ∧
      (∀ sym, (t.entry sym).zeroTail) ∧
      { t with ct := s.ct } = s.withoutTree.okRecord 0 0 0 recs.length

/-- R64: TABLE_LOAD's errors at the ends: the window check changes nothing; any later error leaves the table
empty and `TREE_VALID` 0; an image without its two count bytes, or with a count above 256. That a failed window check
leaves `TREE_VALID` and the table as they were is the model's reading where R30 and R64 differ (log 16). -/
def Obligations.TableLoadErrors : Prop :=
  ∀ s : State,
    (65536 < s.src.toNat + s.srcLen.toNat → exec .tableLoad s = .next (s.errRecord 0x02 0 0)) ∧
    (s.src.toNat + s.srcLen.toNat ≤ 65536 → ∀ t, exec .tableLoad s = .next t → t.status.err = true →
      ∃ o ≤ s.srcLen.toNat, t = { s.withoutTree with ct := Vector.replicate 256 ⟨0#8, 0#255⟩ }.errRecord 0x0D o 0) ∧
    (s.src.toNat ≤ 65536 → s.srcLen = 0#32 →
      exec .tableLoad s =
        .next ({ s.withoutTree with ct := Vector.replicate 256 ⟨0#8, 0#255⟩ }.errRecord 0x0D 0 0)) ∧
    (s.src.toNat + 1 ≤ 65536 → s.srcLen = 1#32 →
      exec .tableLoad s =
        .next ({ s.withoutTree with ct := Vector.replicate 256 ⟨0#8, 0#255⟩ }.errRecord 0x0D 1 0)) ∧
    (s.src.toNat + s.srcLen.toNat ≤ 65536 → 2 ≤ s.srcLen.toNat →
      256 < (s.byteAt s.src.toNat).toNat + 256 * (s.byteAt (s.src.toNat + 1)).toNat →
      exec .tableLoad s =
        .next ({ s.withoutTree with ct := Vector.replicate 256 ⟨0#8, 0#255⟩ }.errRecord 0x0D 0 0))

/-- R64: after a count `n` and good records `recs`, the first missing or wrong byte is where TABLE_LOAD fails:
a missing symbol byte, a repeated symbol, a missing or zero length, a missing or wrong character, and a byte
left over after the last record. -/
def Obligations.TableLoadReportsTheFirstBadByte : Prop :=
  ∀ (s : State) (n : Nat) (recs : List (Byte × List Bool)) (good : List Byte) (o : Nat),
    s.src.toNat + s.srcLen.toNat ≤ 65536 → n ≤ 256 → recs.length ≤ n → recordsGood recs →
    good = countBytes n ++ recs.flatMap recordBytes → o = good.length → o ≤ s.srcLen.toNat →
    (∀ i (h : i < good.length), s.byteAt (s.src.toNat + i) = good[i]) →
    let at' := fun k => s.byteAt (s.src.toNat + k)
    let fails := fun k => exec .tableLoad s =
      .next ({ s.withoutTree with ct := Vector.replicate 256 ⟨0#8, 0#255⟩ }.errRecord 0x0D k 0)
    (recs.length < n →
      (o = s.srcLen.toNat → fails o) ∧
      (o < s.srcLen.toNat → at' o ∈ recs.map Prod.fst → fails o) ∧
      (o < s.srcLen.toNat → at' o ∉ recs.map Prod.fst →
        (o + 1 = s.srcLen.toNat → fails (o + 1)) ∧
        (o + 1 < s.srcLen.toNat → at' (o + 1) = 0#8 → fails (o + 1)) ∧
        (o + 1 < s.srcLen.toNat → ∀ j < (at' (o + 1)).toNat,
          (∀ i < j, o + 2 + i < s.srcLen.toNat ∧ (at' (o + 2 + i) = 0x30#8 ∨ at' (o + 2 + i) = 0x31#8)) →
          (o + 2 + j = s.srcLen.toNat ∨
            (o + 2 + j < s.srcLen.toNat ∧ at' (o + 2 + j) ≠ 0x30#8 ∧ at' (o + 2 + j) ≠ 0x31#8)) →
          fails (o + 2 + j)))) ∧
    (recs.length = n → o < s.srcLen.toNat → fails o)

/-- R65: loading what TABLE_STORE stored gives the table back, with the number of its entries. An image with its
records in any order is stored back in canonical order: the loaded table's records are a rearrangement of them. -/
def Obligations.StoreThenLoadRestoresTheTable : Prop :=
  (∀ s t l : State, (∀ sym, (s.entry sym).zeroTail) →
    exec .tableStore s = .next t → t.status.err = false →
    l.src.toNat + l.srcLen.toNat ≤ 65536 → l.srcLen = t.outLen →
    (∀ i < t.outLen.toNat, l.byteAt (l.src.toNat + i) = t.byteAt (s.dst.toNat + i)) →
    ∃ u, exec .tableLoad l = .next u ∧ u.status.err = false ∧ u.ct = s.ct ∧ u.symCount = t.symCount ∧
      u.symCount.toNat = (allSymbols.filter fun x => (s.ct.get x).len ≠ 0#8).length) ∧
  ∀ (l : State) (recs : List (Byte × List Bool)), recordsGood recs → l.sourceHolds (imageBytes recs) →
    ∃ u, exec .tableLoad l = .next u ∧ u.ct.records.Perm recs

/-! ### Encoder -/

/-- R67: the padding function in both modes, with its ranges. -/
def Obligations.PaddingRanges : Prop :=
  ∀ len : Nat,
    padding len false = 8 - len % 8 ∧ 1 ≤ padding len false ∧ padding len false ≤ 8 ∧
    padding len true = (8 - len % 8) % 8 ∧ padding len true ≤ 7 ∧
    (len % 8 = 0 → padding len false = 8 ∧ padding len true = 0)

/-- R68, R69, R70: ENCODE writes the padding count and then the codewords packed most significant bit first with
zero filler bits, reports size, bits, padding and symbols, and changes nothing else. -/
def Obligations.EncodeWritesTheArtifact : Prop :=
  ∀ (s : State) (syms : List Byte) (L pad : Nat),
    s.windowsGood →
    syms = (List.range s.srcLen.toNat).map (fun j => s.byteAt (s.src.toNat + j)) →
    (∀ x ∈ syms, (s.entry x).len ≠ 0#8) →
    L = (syms.map fun x => (s.entry x).len.toNat).sum →
    pad = (if s.ctrl.padMode then (8 - L % 8) % 8 else 8 - L % 8) →
    1 + (L + pad) / 8 ≤ s.dstCap.toNat →
    ∃ t, exec .encode s = .next t ∧
      { t with dmem := s.dmem } = s.okRecord (1 + (L + pad) / 8) L pad s.srcLen.toNat ∧
      (t.byteAt s.dst.toNat).toNat = pad ∧
      (∀ k < L + pad, (t.byteAt (s.dst.toNat + 1 + k / 8)).getLsbD (7 - k % 8) = bitAt (s.ct.stream syms) k) ∧
      (∀ a, a < s.dst.toNat ∨ s.dst.toNat + (1 + (L + pad) / 8) ≤ a → t.byteAt a = s.byteAt a)

/-- R70, R86: ENCODE's errors, each with its position, in their order, with nothing else changed. -/
def Obligations.EncodeErrors : Prop :=
  ∀ (s : State) (L pad : Nat),
    L = ((List.range s.srcLen.toNat).map fun j => (s.entry (s.byteAt (s.src.toNat + j))).len.toNat).sum →
    pad = (if s.ctrl.padMode then (8 - L % 8) % 8 else 8 - L % 8) →
    (65536 < s.src.toNat + s.srcLen.toNat → exec .encode s = .next (s.errRecord 0x02 0 0)) ∧
    (s.src.toNat + s.srcLen.toNat ≤ 65536 → 65536 < s.dst.toNat + s.dstCap.toNat →
      exec .encode s = .next (s.errRecord 0x02 1 0)) ∧
    (s.src.toNat + s.srcLen.toNat ≤ 65536 → s.dst.toNat + s.dstCap.toNat ≤ 65536 → ¬ s.windowsGood →
      exec .encode s = .next (s.errRecord 0x03 0 0)) ∧
    (s.windowsGood → ∀ j < s.srcLen.toNat, (s.entry (s.byteAt (s.src.toNat + j))).len = 0#8 →
      (∀ i < j, (s.entry (s.byteAt (s.src.toNat + i))).len ≠ 0#8) →
      exec .encode s = .next (s.errRecord 0x04 j 0)) ∧
    (s.windowsGood → (∀ j < s.srcLen.toNat, (s.entry (s.byteAt (s.src.toNat + j))).len ≠ 0#8) →
      s.dstCap.toNat < 1 + (L + pad) / 8 →
      exec .encode s = .next (s.errRecord 0x05 (1 + (L + pad) / 8) 0))

/-- R71: the size law of a successful ENCODE, on the registers it leaves. -/
def Obligations.ArtifactSizeLaw : Prop :=
  ∀ s t : State, exec .encode s = .next t → t.status.err = false →
    t.outLen.toNat = 1 + (t.bitLen.toNat + t.pad.toNat) / 8 ∧ (t.bitLen.toNat + t.pad.toNat) % 8 = 0 ∧
    (s.ctrl.padMode = false → t.outLen.toNat = 1 + t.bitLen.toNat / 8 + 1) ∧
    (s.ctrl.padMode = true → t.outLen.toNat = 1 + (t.bitLen.toNat + 7) / 8)

/-! ### Tree builder -/

/-- R74, R73: TREE_BUILD succeeds exactly on a prefix-free table whose tree fits the arena, and then sets
`TREE_VALID`, counts one node for each distinct prefix and one entry for each present symbol, and changes nothing
else but the arena. -/
def Obligations.TreeBuildSucceedsExactlyOnPrefixFreeTablesThatFit : Prop :=
  ∀ (s : State) (n : Nat), s.ct.prefixCount 256 n →
    (s.ct.prefixFree → n ≤ 512 →
      ∃ t, exec .treeBuild s = .next t ∧
        { t with arena := s.arena } =
          { s with
            status := { s.status with treeValid := true }
            nodeCount := BitVec.ofNat 32 n }.okRecord 0 0 0
              (allSymbols.filter fun x => (s.ct.get x).len ≠ 0#8).length) ∧
    (¬ (s.ct.prefixFree ∧ n ≤ 512) →
      ∃ t, exec .treeBuild s = .next t ∧ t.status.err = true)

/-- R74, R83: a failed TREE_BUILD leaves `TREE_VALID = 0`, `NODE_COUNT = 0`, the arena unspecified (a new draw, log 3)
and everything else as it was. `NOT_PREFIX_FREE` names the first symbol, in ascending order, that conflicts with a
smaller one; `TREE_OVERFLOW` names the symbol whose insertion needed a 513th node, before any conflict. -/
def Obligations.TreeBuildNamesTheSymbolItStoppedAt : Prop :=
  ∀ s t : State, exec .treeBuild s = .next t → t.status.err = true →
    ∃ (code : Nat) (sym : Byte), (code = 0x0B ∨ code = 0x0C) ∧ (s.entry sym).len ≠ 0#8 ∧
      t = { s.withoutTree with nodeCount := 0#32, arena := [], arenaDraw := s.arenaDraw.next }.errRecord
        code sym.toNat 0 ∧
      (∀ x y : Byte, x.toNat < y.toNat → y.toNat < sym.toNat → ¬ s.ct.conflict x y) ∧
      (code = 0x0B → ∃ x : Byte, x.toNat < sym.toNat ∧ s.ct.conflict x sym) ∧
      (code = 0x0C → (∀ x : Byte, x.toNat < sym.toNat → ¬ s.ct.conflict x sym) ∧
        (∀ n, s.ct.prefixCount sym.toNat n → n ≤ 512) ∧
        (∀ n, s.ct.prefixCount (sym.toNat + 1) n → 512 < n))

/-- R75: in the tree of a successful TREE_BUILD the root holds no symbol, each present codeword leads to a
childless node that holds its symbol, every node that holds a symbol is such a leaf, and every other node but the
root has a child. -/
def Obligations.AcceptedTreeHasTheTablesLeaves : Prop :=
  ∀ s t : State, exec .treeBuild s = .next t → t.status.err = false →
    (t.nodeAt 0).hasSym = false ∧
    (∀ sym, (s.entry sym).len ≠ 0#8 → ∃ n, t.follow 0 (s.entry sym).word = some n ∧
      (t.nodeAt n).hasSym = true ∧ (t.nodeAt n).sym = sym ∧ (t.nodeAt n).left = 0 ∧ (t.nodeAt n).right = 0) ∧
    (∀ w n, t.follow 0 w = some n → (t.nodeAt n).hasSym = true →
      (s.entry (t.nodeAt n).sym).len ≠ 0#8 ∧ (s.entry (t.nodeAt n).sym).word = w) ∧
    (∀ w n, w ≠ [] → t.follow 0 w = some n → (t.nodeAt n).hasSym = false →
      (t.nodeAt n).left ≠ 0 ∨ (t.nodeAt n).right ≠ 0)

/-! ### Decoder -/

/-- R78, R76, R77: an artifact whose walked bits are the codewords of a list of symbols decodes to that list, whatever
its padding count and its dropped bits, and nothing else changes. -/
def Obligations.DecodeRecoversTheSymbols : Prop :=
  ∀ (s : State) (syms : List Byte) (p : Nat), s.walkReady →
    (∀ x ∈ syms, (s.entry x).len ≠ 0#8) →
    s.holdsArtifact p (s.ct.stream syms).length → s.payloadBegins (s.ct.stream syms) →
    syms.length ≤ s.dstCap.toNat →
    ∃ t, exec .decode s = .next t ∧
      t.isRecordWith (s.okRecord syms.length (s.ct.stream syms).length p syms.length) s s.dst.toNat syms

/-- R78, R86: DECODE's errors before the walk, each with its position, in their order, with nothing changed but the
record. -/
def Obligations.DecodeErrorsBeforeTheWalk : Prop :=
  ∀ s : State,
    (65536 < s.src.toNat + s.srcLen.toNat → exec .decode s = .next (s.errRecord 0x02 0 0)) ∧
    (s.src.toNat + s.srcLen.toNat ≤ 65536 → 65536 < s.dst.toNat + s.dstCap.toNat →
      exec .decode s = .next (s.errRecord 0x02 1 0)) ∧
    (s.src.toNat + s.srcLen.toNat ≤ 65536 → s.dst.toNat + s.dstCap.toNat ≤ 65536 → ¬ s.windowsGood →
      exec .decode s = .next (s.errRecord 0x03 0 0)) ∧
    (s.windowsGood → s.status.treeValid = false → exec .decode s = .next (s.errRecord 0x06 0 0)) ∧
    (s.windowsGood → s.status.treeValid = true → s.srcLen = 0#32 →
      exec .decode s = .next (s.errRecord 0x07 0 0)) ∧
    (s.windowsGood → s.status.treeValid = true → s.srcLen ≠ 0#32 →
      8 * (s.srcLen.toNat - 1) < (s.byteAt s.src.toNat).toNat →
      exec .decode s = .next (s.errRecord 0x08 (s.byteAt s.src.toNat).toNat 0))

/-- R78: after the symbols `syms` and the bits `u` of a codeword that goes on, a bit that no codeword goes on with is
`DECODE_NULL_CHILD` at its index; the symbols already emitted stay in memory and `OUT_LEN` counts them. -/
def Obligations.DecodeNullChildKeepsTheEmittedSymbols : Prop :=
  ∀ (s : State) (syms : List Byte) (u : List Bool) (b : Bool) (p B : Nat), s.walkReady →
    (∀ x ∈ syms, (s.entry x).len ≠ 0#8) → syms.length ≤ s.dstCap.toNat →
    (u = [] ∨ ∃ y, (s.entry y).len ≠ 0#8 ∧ u <+: (s.entry y).word ∧ u ≠ (s.entry y).word) →
    (∀ y, (s.entry y).len ≠ 0#8 → ¬ (u ++ [b]) <+: (s.entry y).word) →
    s.holdsArtifact p B → (s.ct.stream syms ++ u ++ [b]).length ≤ B →
    s.payloadBegins (s.ct.stream syms ++ u ++ [b]) →
    ∃ t, exec .decode s = .next t ∧
      t.isRecordWith (s.errRecord 0x09 (s.ct.stream syms ++ u).length syms.length) s s.dst.toNat syms

/-- R78: bits that run out inside a codeword are `DECODE_TRUNCATED` at `B`; the symbols already emitted stay in
memory and `OUT_LEN` counts them. -/
def Obligations.DecodeTruncatedKeepsTheEmittedSymbols : Prop :=
  ∀ (s : State) (syms : List Byte) (u : List Bool) (p : Nat), s.walkReady →
    (∀ x ∈ syms, (s.entry x).len ≠ 0#8) → syms.length ≤ s.dstCap.toNat → u ≠ [] →
    (∃ y, (s.entry y).len ≠ 0#8 ∧ u <+: (s.entry y).word ∧ u ≠ (s.entry y).word) →
    s.holdsArtifact p (s.ct.stream syms ++ u).length → s.payloadBegins (s.ct.stream syms ++ u) →
    ∃ t, exec .decode s = .next t ∧
      t.isRecordWith (s.errRecord 0x0A (s.ct.stream syms ++ u).length syms.length) s s.dst.toNat syms

/-- R78: the bit that completes a symbol with no room left is `DST_OVERFLOW` at its index; the `DST_CAP` symbols
already emitted stay in memory and `OUT_LEN` counts them. -/
def Obligations.DecodeOverflowKeepsTheEmittedSymbols : Prop :=
  ∀ (s : State) (syms : List Byte) (last : Byte) (p B : Nat), s.walkReady →
    (∀ x ∈ syms, (s.entry x).len ≠ 0#8) → (s.entry last).len ≠ 0#8 → syms.length = s.dstCap.toNat →
    s.holdsArtifact p B → (s.ct.stream (syms ++ [last])).length ≤ B →
    s.payloadBegins (s.ct.stream (syms ++ [last])) →
    ∃ t, exec .decode s = .next t ∧
      t.isRecordWith (s.errRecord 0x05 ((s.ct.stream (syms ++ [last])).length - 1) syms.length) s s.dst.toNat syms

/-- R78: whatever its outcome, DECODE writes at most the first `OUT_LEN` bytes of its destination window and the
result registers, and leaves `CT`, the arena, `TREE_VALID` and everything else as it was. -/
def Obligations.DecodeFrame : Prop :=
  ∀ s t : State, exec .decode s = .next t →
    t.outLen.toNat ≤ s.dstCap.toNat ∧
    (∀ a, a < s.dst.toNat ∨ s.dst.toNat + t.outLen.toNat ≤ a → t.byteAt a = s.byteAt a) ∧
    t = { s with
      errCode := t.errCode, errPos := t.errPos, outLen := t.outLen, bitLen := t.bitLen, pad := t.pad,
      symCount := t.symCount, dmem := t.dmem,
      status := { s.status with busy := false, done := true, err := decide (t.errCode ≠ 0#8) } }

/-- R79: decoding what ENCODE encoded under a table whose tree is in the arena gives the input back. The artifact
may have moved: only its bytes count. -/
def Obligations.EncodeThenDecodeIsTheIdentity : Prop :=
  ∀ b b' e e' d : State,
    exec .treeBuild b = .next b' → b'.status.err = false →
    e.ct = b.ct → exec .encode e = .next e' → e'.status.err = false →
    d.ct = b.ct → d.arena = b'.arena → d.arenaDraw = b'.arenaDraw → d.status.treeValid = true →
    d.windowsGood → d.srcLen = e'.outLen →
    (∀ i < e'.outLen.toNat, d.byteAt (d.src.toNat + i) = e'.byteAt (e.dst.toNat + i)) →
    e.srcLen.toNat ≤ d.dstCap.toNat →
    ∃ d', exec .decode d = .next d' ∧ d'.status.err = false ∧ d'.outLen = e'.symCount ∧
      d'.bitLen = e'.bitLen ∧ d'.pad = e'.pad ∧
      ∀ j < e.srcLen.toNat, d'.byteAt (d.dst.toNat + j) = e.byteAt (e.src.toNat + j)

/-! ### Invariants and whole-machine rules -/

/-- The invariant holds at reset. -/
def Obligations.InvariantHoldsAtReset : Prop := State.reset.Inv

/-- The invariant is kept by every step, from every state that has it (R20, R28, R29, R30, R34, R84, R93). -/
def Obligations.EveryStepKeepsTheInvariant : Prop :=
  ∀ s t : State, s.Inv → step s = .next t → t.Inv

/-- R30: `TREE_VALID` goes from 0 to 1 only in a step of the engine that completes a TREE_BUILD with success. -/
def Obligations.TreeValidIsSetOnlyByTreeBuild : Prop :=
  ∀ s t : State, step s = .next t → s.status.treeValid = false → t.status.treeValid = true →
    s.status.busy = true ∧ s.cmd = 0x00000007#32 ∧ t.status.done = true ∧ t.status.err = false

/-- R99: a step after which `CT` is another table leaves `TREE_VALID = 0`. -/
def Obligations.TableChangeClearsTreeValid : Prop :=
  ∀ s t : State, step s = .next t → t.ct ≠ s.ct → t.status.treeValid = false

/-! ### Host port -/

/-- R16: while no command is pending a read of each of the 26 offsets answers its own register, narrower fields
zero-extended, and changes nothing; after reset each reads its reset value; the offsets from 0x068 up hold no register,
and an access there is the error response, a completed step with no state change (the model's choice, log 5). -/
def Obligations.RegisterMap : Prop :=
  (∀ s : State, s.status.busy = false →
    hostAccess (.rd32 0x000#17) s = s.answered (.data32 0x48424531#32) ∧
    hostAccess (.rd32 0x004#17) s = s.answered (.data32 0x00000001#32) ∧
    (∃ w, hostAccess (.rd32 0x008#17) s = s.answered (.data32 w) ∧
      w.getLsbD 0 = s.ctrl.ieDone ∧ w.getLsbD 1 = s.ctrl.ieErr ∧ w.getLsbD 2 = s.ctrl.padMode ∧ w.toNat < 8) ∧
    (∃ w, hostAccess (.rd32 0x00C#17) s = s.answered (.data32 w) ∧
      w.getLsbD 0 = s.status.busy ∧ w.getLsbD 1 = s.status.done ∧ w.getLsbD 2 = s.status.err ∧
      w.getLsbD 3 = s.status.treeValid ∧ w.getLsbD 4 = s.status.collision ∧ w.toNat < 32) ∧
    hostAccess (.rd32 0x010#17) s = s.answered (.data32 s.cmd) ∧
    hostAccess (.rd32 0x014#17) s = s.answered (.data32 (s.errCode.setWidth 32)) ∧
    hostAccess (.rd32 0x018#17) s = s.answered (.data32 s.errPos) ∧
    hostAccess (.rd32 0x01C#17) s = s.answered (.data32 s.src) ∧
    hostAccess (.rd32 0x020#17) s = s.answered (.data32 s.srcLen) ∧
    hostAccess (.rd32 0x024#17) s = s.answered (.data32 s.dst) ∧
    hostAccess (.rd32 0x028#17) s = s.answered (.data32 s.dstCap) ∧
    hostAccess (.rd32 0x02C#17) s = s.answered (.data32 s.outLen) ∧
    hostAccess (.rd32 0x030#17) s = s.answered (.data32 s.bitLen) ∧
    hostAccess (.rd32 0x034#17) s = s.answered (.data32 s.pad) ∧
    hostAccess (.rd32 0x038#17) s = s.answered (.data32 s.symCount) ∧
    hostAccess (.rd32 0x03C#17) s = s.answered (.data32 s.nodeCount) ∧
    hostAccess (.rd32 0x040#17) s = s.answered (.data32 (s.esym.setWidth 32)) ∧
    hostAccess (.rd32 0x044#17) s = s.answered (.data32 (s.elen.setWidth 32)) ∧
    ∀ n : Fin 8, hostAccess (.rd32 (BitVec.ofNat 17 (0x048 + 4 * n.val))) s =
      s.answered (.data32 s.ecode[n])) ∧
  (∀ p ∈ [(0x000#17, 0x48424531#32), (0x004#17, 1#32), (0x008#17, 0#32), (0x00C#17, 0#32), (0x010#17, 0#32),
      (0x014#17, 0#32), (0x018#17, 0#32), (0x01C#17, 0#32), (0x020#17, 0#32), (0x024#17, 0#32), (0x028#17, 0#32),
      (0x02C#17, 0#32), (0x030#17, 0#32), (0x034#17, 0#32), (0x038#17, 0#32), (0x03C#17, 0#32), (0x040#17, 0#32),
      (0x044#17, 0#32), (0x048#17, 0#32), (0x04C#17, 0#32), (0x050#17, 0#32), (0x054#17, 0#32), (0x058#17, 0#32),
      (0x05C#17, 0#32), (0x060#17, 0#32), (0x064#17, 0#32)],
    (hostAccess (.rd32 p.1) State.reset).busResp = .data32 p.2) ∧
  (∀ (s : State) (off : BitVec 17) (v : Word), 0x068 ≤ off.toNat → off.toNat < 0x10000 →
    hostAccess (.rd32 off) s = s.answered .error ∧ hostAccess (.wr32 off v) s = s.answered .error)

/-- R18: `ID` and `VERSION` always read their constants; a write changes nothing, a reset neither. -/
def Obligations.IdentityRegistersAreConstant : Prop :=
  ∀ s : State,
    hostAccess (.rd32 0x000#17) s = s.answered (.data32 0x48424531#32) ∧
    hostAccess (.rd32 0x004#17) s = s.answered (.data32 0x00000001#32) ∧
    (s.status.busy = false → ∀ v, hostAccess (.wr32 0x000#17 v) s = s.answered .ack ∧
      hostAccess (.wr32 0x004#17 v) s = s.answered .ack) ∧
    ∀ level, (s.applyReset level).readReg .id = 0x48424531#32 ∧ (s.applyReset level).readReg .version = 1#32

/-- R17, R22, R24: while no command is pending, a host write to a read-only register is accepted and changes
nothing. -/
def Obligations.WritesToReadOnlyRegistersChangeNothing : Prop :=
  ∀ (s : State) (off : BitVec 17) (v : Word), s.status.busy = false →
    off ∈ [0x000#17, 0x004#17, 0x014#17, 0x018#17, 0x02C#17, 0x030#17, 0x034#17, 0x038#17, 0x03C#17] →
    hostAccess (.wr32 off v) s = s.answered .ack

/-- R19, R23, R25: while no command is pending, a written register reads back: the window and code registers whole,
`ESYM` and `ELEN` their low 8 bits, `CTRL` its low 3; nothing else changes. -/
def Obligations.WrittenRegistersReadBack : Prop :=
  ∀ (s : State) (v : Word), s.status.busy = false →
    hostAccess (.wr32 0x008#17 v) s =
      { s with ctrl := ⟨v.getLsbD 0, v.getLsbD 1, v.getLsbD 2⟩ }.answered .ack ∧
    (∀ c : Ctrl, c = ⟨v.getLsbD 0, v.getLsbD 1, v.getLsbD 2⟩ →
      hostAccess (.rd32 0x008#17) { s with ctrl := c } = { s with ctrl := c }.answered (.data32 (v &&& 7#32))) ∧
    hostAccess (.wr32 0x01C#17 v) s = { s with src := v }.answered .ack ∧
    hostAccess (.rd32 0x01C#17) { s with src := v } = { s with src := v }.answered (.data32 v) ∧
    hostAccess (.wr32 0x020#17 v) s = { s with srcLen := v }.answered .ack ∧
    hostAccess (.rd32 0x020#17) { s with srcLen := v } = { s with srcLen := v }.answered (.data32 v) ∧
    hostAccess (.wr32 0x024#17 v) s = { s with dst := v }.answered .ack ∧
    hostAccess (.rd32 0x024#17) { s with dst := v } = { s with dst := v }.answered (.data32 v) ∧
    hostAccess (.wr32 0x028#17 v) s = { s with dstCap := v }.answered .ack ∧
    hostAccess (.rd32 0x028#17) { s with dstCap := v } = { s with dstCap := v }.answered (.data32 v) ∧
    hostAccess (.wr32 0x040#17 v) s = { s with esym := v.extractLsb' 0 8 }.answered .ack ∧
    hostAccess (.rd32 0x040#17) { s with esym := v.extractLsb' 0 8 } =
      { s with esym := v.extractLsb' 0 8 }.answered (.data32 (v &&& 0xFF#32)) ∧
    hostAccess (.wr32 0x044#17 v) s = { s with elen := v.extractLsb' 0 8 }.answered .ack ∧
    hostAccess (.rd32 0x044#17) { s with elen := v.extractLsb' 0 8 } =
      { s with elen := v.extractLsb' 0 8 }.answered (.data32 (v &&& 0xFF#32)) ∧
    ∀ n : Fin 8, ∃ t, hostAccess (.wr32 (BitVec.ofNat 17 (0x048 + 4 * n.val)) v) s = t ∧
      t.ecode[n] = v ∧ (∀ m : Fin 8, m ≠ n → t.ecode[m] = s.ecode[m]) ∧
      { t with ecode := s.ecode } = s.answered .ack ∧
      (hostAccess (.rd32 (BitVec.ofNat 17 (0x048 + 4 * n.val))) t).busResp = .data32 v

/-- R20: `STATUS` reads its five flags and zeros; a write clears exactly the W1C bits it writes 1 to, busy or not. -/
def Obligations.StatusIsWriteOneToClear : Prop :=
  ∀ (s : State) (v : Word),
    (∃ w, hostAccess (.rd32 0x00C#17) s = s.answered (.data32 w) ∧
      w.getLsbD 0 = s.status.busy ∧ w.getLsbD 1 = s.status.done ∧ w.getLsbD 2 = s.status.err ∧
      w.getLsbD 3 = s.status.treeValid ∧ w.getLsbD 4 = s.status.collision ∧ w.toNat < 32) ∧
    hostAccess (.wr32 0x00C#17 v) s =
      { s with status :=
        { busy := s.status.busy
          done := if v.getLsbD 1 then false else s.status.done
          err := if v.getLsbD 2 then false else s.status.err
          treeValid := s.status.treeValid
          collision := if v.getLsbD 4 then false else s.status.collision } }.answered .ack

/-- R21: an idle write to `CMD` accepts any word; while busy it is dropped; `CMD` reads the last accepted word. A
pending illegal word ends with `ILLEGAL_CMD` when the turn is the engine's: when it stands first in the agenda, or the
agenda is empty (that the agenda says so, and that an empty one gives the engine the turn, is the model's choice,
log 1). -/
def Obligations.CmdWriteAcceptsACommand : Prop :=
  ∀ (s : State) (c : Word),
    (s.status.busy = false → hostAccess (.wr32 0x010#17 c) s =
      { s with cmd := c, status := { s.status with busy := true, done := false, err := false } }.answered .ack) ∧
    (s.status.busy = true → hostAccess (.wr32 0x010#17 c) s =
      { s with status := { s.status with collision := true } }.answered .ack) ∧
    hostAccess (.rd32 0x010#17) s = s.answered (.data32 s.cmd) ∧ State.reset.cmd = 0#32 ∧
    (s.status.busy = true → s.cmd = c → (∀ i, c ≠ encode i) → s.resetLine = false →
      (∀ rest, ∃ t, step { s with agenda := .engine :: rest } = .next t ∧ t.errCode = 0x01#8) ∧
      (s.agenda = [] → ∃ t, step s = .next t ∧ t.errCode = 0x01#8))

/-- R38, R39: an access that is not one of the three legal forms gets the error response and changes nothing. -/
def Obligations.IllegalAccessesGetABusError : Prop :=
  ∀ (s : State) (a : HostAccess),
    (match a with
      | .rd8 off | .wr8 off _ => off.toNat < 0x10000
      | .rd32 off | .wr32 off _ => off.toNat % 4 ≠ 0 ∨ (0x068 ≤ off.toNat ∧ off.toNat < 0x10000)
      | .otherWidth _ => True) →
    hostAccess a s = s.answered .error

/-- R38, R40: legal memory accesses while idle: bytes anywhere, words at multiples of 4, little-endian. -/
def Obligations.IdleMemoryAccesses : Prop :=
  ∀ (s : State) (a : Nat) (v : Word) (b : Byte), s.status.busy = false → a < 65536 →
    hostAccess (.rd8 (BitVec.ofNat 17 (0x10000 + a))) s = s.answered (.data8 (s.byteAt a)) ∧
    (∃ t, hostAccess (.wr8 (BitVec.ofNat 17 (0x10000 + a)) b) s = t ∧
      { t with dmem := s.dmem } = s.answered .ack ∧
      ∀ x, t.byteAt x = if x = a then b else s.byteAt x) ∧
    (a % 4 = 0 →
      (∃ w, hostAccess (.rd32 (BitVec.ofNat 17 (0x10000 + a))) s = s.answered (.data32 w) ∧
        ∀ i < 4, w.extractLsb' (8 * i) 8 = s.byteAt (a + i)) ∧
      ∃ t, hostAccess (.wr32 (BitVec.ofNat 17 (0x10000 + a)) v) s = t ∧
        { t with dmem := s.dmem } = s.answered .ack ∧
        ∀ x, t.byteAt x = if a ≤ x ∧ x < a + 4 then v.extractLsb' (8 * (x - a)) 8 else s.byteAt x)

/-- R41: a mixed-width sequence sees one byte array. -/
def Obligations.MixedWidthAccessesSeeOneByteArray : Prop :=
  ∀ (s : State) (a : Nat) (v : Word), s.status.busy = false → a + 3 < 65536 → a % 4 = 0 →
    (∀ i < 4,
      (hostAccess (.rd8 (BitVec.ofNat 17 (0x10000 + a + i)))
        (hostAccess (.wr32 (BitVec.ofNat 17 (0x10000 + a)) v) s)).busResp = .data8 (v.extractLsb' (8 * i) 8)) ∧
    ∀ b0 b1 b2 b3 : Byte,
      (hostAccess (.rd32 (BitVec.ofNat 17 (0x10000 + a)))
        (hostAccess (.wr8 (BitVec.ofNat 17 (0x10000 + a + 3)) b3)
          (hostAccess (.wr8 (BitVec.ofNat 17 (0x10000 + a + 2)) b2)
            (hostAccess (.wr8 (BitVec.ofNat 17 (0x10000 + a + 1)) b1)
              (hostAccess (.wr8 (BitVec.ofNat 17 (0x10000 + a)) b0) s))))).busResp =
        .data32 (b3 ++ b2 ++ b1 ++ b0)

/-- R43: while a command is pending, every legal host write but one to `STATUS` is dropped and sets `COLLISION`; one
to `STATUS` is applied as usual. -/
def Obligations.BusyWritesAreDroppedWithCollision : Prop :=
  ∀ (s : State) (off : BitVec 17) (v : Word) (b : Byte), s.status.busy = true →
    (off.toNat % 4 = 0 → off.toNat ≠ 0x00C → off.toNat < 0x068 ∨ 0x10000 ≤ off.toNat →
      hostAccess (.wr32 off v) s = { s with status := { s.status with collision := true } }.answered .ack) ∧
    (0x10000 ≤ off.toNat →
      hostAccess (.wr8 off b) s = { s with status := { s.status with collision := true } }.answered .ack) ∧
    hostAccess (.wr32 0x00C#17 v) s =
      { s with status :=
        { busy := true
          done := if v.getLsbD 1 then false else s.status.done
          err := if v.getLsbD 2 then false else s.status.err
          treeValid := s.status.treeValid
          collision := if v.getLsbD 4 then false else s.status.collision } }.answered .ack

/-- R44: while a command is pending, ten registers read exactly; every other register and every byte of memory
reads a fresh unspecified value, the next draw, zero in the reserved bits of `ERRCODE` and `ELEN` (R17; log 4). -/
def Obligations.BusyReadsAreExactOrUnspecified : Prop :=
  ∀ (s : State) (off : BitVec 17), s.status.busy = true →
    (off = 0x01C#17 → hostAccess (.rd32 off) s = s.answered (.data32 s.src)) ∧
    (off = 0x020#17 → hostAccess (.rd32 off) s = s.answered (.data32 s.srcLen)) ∧
    (off = 0x024#17 → hostAccess (.rd32 off) s = s.answered (.data32 s.dst)) ∧
    (off = 0x028#17 → hostAccess (.rd32 off) s = s.answered (.data32 s.dstCap)) ∧
    (off = 0x010#17 → hostAccess (.rd32 off) s = s.answered (.data32 s.cmd)) ∧
    (off = 0x008#17 → hostAccess (.rd32 off) s = s.answered (.data32 s.ctrl.word)) ∧
    (off = 0x00C#17 → hostAccess (.rd32 off) s = s.answered (.data32 s.status.word)) ∧
    (off = 0x040#17 → hostAccess (.rd32 off) s = s.answered (.data32 (s.esym.setWidth 32))) ∧
    (off = 0x000#17 → hostAccess (.rd32 off) s = s.answered (.data32 0x48424531#32)) ∧
    (off = 0x004#17 → hostAccess (.rd32 off) s = s.answered (.data32 0x00000001#32)) ∧
    (off = 0x014#17 ∨ off = 0x044#17 → hostAccess (.rd32 off) s =
      { s with draws := s.draws.next }.answered (.data32 (Config.unspecifiedRead s.draws &&& 0xFF#32))) ∧
    (off.toNat % 4 = 0 →
      off.toNat = 0x018 ∨ (0x02C ≤ off.toNat ∧ off.toNat ≤ 0x03C) ∨
        (0x048 ≤ off.toNat ∧ off.toNat ≤ 0x064) ∨ 0x10000 ≤ off.toNat →
      hostAccess (.rd32 off) s =
        { s with draws := s.draws.next }.answered (.data32 (Config.unspecifiedRead s.draws))) ∧
    (0x10000 ≤ off.toNat → hostAccess (.rd8 off) s =
      { s with draws := s.draws.next }.answered (.data8 ((Config.unspecifiedRead s.draws).setWidth 8)))

/-- R42: no host read has a side effect on the HBE: only the response and the model's count of draws change. -/
def Obligations.HostReadsHaveNoSideEffect : Prop :=
  ∀ (s : State) (off : BitVec 17),
    (∃ r k, hostAccess (.rd32 off) s = { s with draws := k }.answered r) ∧
    (∃ r k, hostAccess (.rd8 off) s = { s with draws := k }.answered r) ∧
    (s.status.busy = false → ∃ r, hostAccess (.rd32 off) s = s.answered r ∧
      hostAccess (.rd32 off) (hostAccess (.rd32 off) s) = s.answered r)

/-- R89: the interrupt output, its two sources, and how a source is cleared; masking leaves `STATUS` alone. -/
def Obligations.InterruptFollowsItsEnabledSources : Prop :=
  ∀ s : State,
    (s.irq = true ↔
      (s.ctrl.ieDone = true ∧ s.status.done = true) ∨ (s.ctrl.ieErr = true ∧ s.status.err = true)) ∧
    (hostAccess (.wr32 0x00C#17 0x2#32) s).irq = (s.ctrl.ieErr && s.status.err) ∧
    (hostAccess (.wr32 0x00C#17 0x4#32) s).irq = (s.ctrl.ieDone && s.status.done) ∧
    (s.status.busy = false → ∀ c, (hostAccess (.wr32 0x010#17 c) s).irq = false) ∧
    (∀ level, (s.applyReset level).irq = false) ∧
    (s.status.busy = false → (hostAccess (.wr32 0x008#17 0#32) s).irq = false ∧
      (hostAccess (.wr32 0x008#17 0#32) s).status = s.status) ∧
    { s with status := { s.status with collision := true } }.irq = s.irq

/-- R37: a platform access reaches the HBE exactly in the two windows from its base, at its distance from it,
whatever the base is. -/
def Obligations.PlatformAddressesMapToOffsets : Prop :=
  ∀ base addr : Nat,
    (∀ k < 0x20000, platformOffset base (base + k) = some (BitVec.ofNat 17 k)) ∧
    (addr < base ∨ base + 0x20000 ≤ addr → platformOffset base addr = none)

/-- R91: on a platform of several HBEs a step of HBE `k`, be it a command, an access or a reset, changes HBE `k` only
and depends on no other; where no two HBEs have an address in common, an access reaches the HBE whose base it lies
above. An access that reaches no HBE changes none (the turns, and what such an access leaves, are the model's choice,
log 17). -/
def Obligations.InstancesShareNoState : Prop :=
  ∀ p : Platform,
    (∀ (k : Nat) (h : k < p.length) (t : Turn) (s : State),
      step { p[k].hbe with agenda := t :: p[k].hbe.agenda } = .next s →
      ∃ p', p.differsAt p' k s ∧
        (t = .engine → platformStep p (.engine k) = .next p') ∧
        (t = .assertReset → platformStep p (.assertReset k) = .next p') ∧
        (t = .releaseReset → platformStep p (.releaseReset k) = .next p') ∧
        (p.apart → ∀ (off : BitVec 17) (op : BusOp), t = .host (op.toAccess off) →
          platformStep p (.bus (p[k].base + off.toNat) op) = .next p')) ∧
    ∀ (addr : Nat) (op : BusOp), (∀ sl ∈ p, addr < sl.base ∨ sl.base + 0x20000 ≤ addr) →
      platformStep p (.bus addr op) = .next p

/-- R91: every step of a platform leaves each HBE at its own base and each HBE's unspecified values its own draws
(that draws are numbered per HBE is the model's choice, log 17); after reset the draws are so. -/
def Obligations.PlatformStepKeepsInstancesApart : Prop :=
  (∀ (p p' : Platform) (t : PlatformTurn), p.apart → p.ownDraws → platformStep p t = .next p' →
    p'.apart ∧ p'.ownDraws ∧ p'.map PlatformSlot.base = p.map PlatformSlot.base) ∧
  ∀ n, (Platform.reset n).ownDraws

/-- R54, R81, R96: the host program `RUN op`, with the engine's turn after the accepting write, performs the command
and ends its `WAIT` after it. -/
def Obligations.RunProgramPerformsTheCommand : Prop :=
  ∀ (s : State) (i : Instr) (l v : Nat), s.status.busy = false → s.resetLine = false →
    ∃ t vars, exec i { s with
        cmd := encode i
        status := { s.status with busy := true, done := false, err := false }
        busResp := .ack } = .next t ∧
      runHostProgram (linesRun i l v) [false, true, false, false, false] { line := 0, vars := [] } s =
        .moved { line := 4, vars := vars } (t.answered (.data32 t.status.word))
end

