-- ==== Sys2Proof/Laws/Memory.lean ====
section
/-! SUPPORT. The laws of sparse cells, data memory and arena: reading after writing, the canonical form and that
every operation keeps it, and what a run of byte writes does. -/

namespace Sys2Proof.Machine

variable {α : Type}

@[simp] theorem findCell_nil (a : Nat) : findCell ([] : List (Nat × α)) a = none := rfl

theorem findCell_writeCell (m : List (Nat × α)) (a : Nat) (v : α) (b : Nat) :
    findCell (writeCell m a v) b = if b = a then some v else findCell m b := by
  induction m with
  | nil => simp [writeCell, findCell, eq_comm]
  | cons c m ih =>
    obtain ⟨k, w⟩ := c
    by_cases h1 : a < k
    · by_cases h : b = a
      · simp [writeCell, findCell, h1, h]
      · have h' : ¬ a = b := fun e => h e.symm
        simp [writeCell, findCell, h1, h, h']
    · by_cases h2 : k = a
      · subst h2
        by_cases h : b = k
        · simp [writeCell, findCell, h]
        · have h' : ¬ k = b := fun e => h e.symm
          simp [writeCell, findCell, h, h']
      · by_cases h : k = b
        · subst h; simp [writeCell, findCell, h1, h2]
        · simp [writeCell, findCell, h1, h2, ih, h]

@[simp] theorem findCell_writeCell_same (m : List (Nat × α)) (a : Nat) (v : α) :
    findCell (writeCell m a v) a = some v := by simp [findCell_writeCell]

theorem findCell_writeCell_other (m : List (Nat × α)) {a b : Nat} (v : α) (h : b ≠ a) :
    findCell (writeCell m a v) b = findCell m b := by simp [findCell_writeCell, h]

theorem mem_writeCell_fst {m : List (Nat × α)} {a : Nat} {v : α} {c : Nat × α} (h : c ∈ writeCell m a v) :
    c.1 = a ∨ c ∈ m := by
  induction m with
  | nil => simp [writeCell] at h; simp [h]
  | cons d m ih =>
    obtain ⟨k, w⟩ := d
    simp only [writeCell] at h
    split_ifs at h with h1 h2
    · rcases List.mem_cons.1 h with h | h
      · simp [h]
      · exact .inr h
    · rcases List.mem_cons.1 h with h | h
      · simp [h]
      · exact .inr (List.mem_cons_of_mem _ h)
    · rcases List.mem_cons.1 h with h | h
      · exact .inr (by simp [h])
      · rcases ih h with h | h
        · exact .inl h
        · exact .inr (List.mem_cons_of_mem _ h)

/-- Writing a cell keeps the canonical form. -/
theorem cellsWf_writeCell {bound : Nat} {m : List (Nat × α)} (h : cellsWf bound m) {a : Nat} (ha : a < bound)
    (v : α) : cellsWf bound (writeCell m a v) := by
  obtain ⟨hs, hb⟩ := h
  refine ⟨?_, fun c hc => (mem_writeCell_fst hc).elim (fun h => h ▸ ha) (hb c)⟩
  clear hb
  induction m with
  | nil => simp [writeCell]
  | cons d m ih =>
    obtain ⟨k, w⟩ := d
    simp only [List.map_cons, List.pairwise_cons] at hs
    obtain ⟨hk, hs⟩ := hs
    simp only [writeCell]
    split_ifs with h1 h2
    · simp only [List.map_cons, List.pairwise_cons, List.mem_cons]
      refine ⟨?_, hk, hs⟩
      rintro x (rfl | hx)
      · exact h1
      · exact h1.trans (hk x hx)
    · subst h2
      simp only [List.map_cons, List.pairwise_cons]
      exact ⟨hk, hs⟩
    · simp only [List.map_cons, List.pairwise_cons]
      refine ⟨?_, ih hs⟩
      intro x hx
      obtain ⟨c, hc, rfl⟩ := List.mem_map.1 hx
      rcases mem_writeCell_fst hc with h | h
      · omega
      · exact hk _ (List.mem_map_of_mem h)

@[simp] theorem cellsWf_nil (bound : Nat) : cellsWf bound ([] : List (Nat × α)) := by simp [cellsWf]

/-- Cells in canonical form with the same lookups are the same list. -/
theorem cells_ext {bound : Nat} {m m' : List (Nat × α)} (h : cellsWf bound m) (h' : cellsWf bound m')
    (he : ∀ a, findCell m a = findCell m' a) : m = m' := by
  have below : ∀ {k : Nat} {l : List (Nat × α)}, (∀ x ∈ l.map Prod.fst, k < x) → findCell l k = none := by
    intro k l hl
    induction l with
    | nil => rfl
    | cons d l ih =>
      have h1 : k < d.1 := hl d.1 (by simp)
      have h2 := ih fun x hx => hl x (by simp at hx ⊢; exact .inr hx)
      simp [findCell, show ¬ d.1 = k by omega, h2]
  obtain ⟨hs, -⟩ := h
  obtain ⟨hs', -⟩ := h'
  induction m generalizing m' with
  | nil =>
    cases m' with
    | nil => rfl
    | cons d m' => have := he d.1; simp [findCell] at this
  | cons d m ih =>
    cases m' with
    | nil => have := he d.1; simp [findCell] at this
    | cons d' m' =>
      obtain ⟨k, v⟩ := d
      obtain ⟨k', v'⟩ := d'
      simp only [List.map_cons, List.pairwise_cons] at hs hs'
      have hk : k = k' := by
        rcases Nat.lt_trichotomy k k' with hlt | heq | hlt
        · have h1 := he k
          rw [below (l := (k', v') :: m') (k := k)] at h1
          · simp [findCell] at h1
          · intro x hx
            rcases List.mem_cons.1 hx with rfl | hx
            · exact hlt
            · exact hlt.trans (hs'.1 x hx)
        · exact heq
        · have h1 := he k'
          rw [below (l := (k, v) :: m) (k := k')] at h1
          · simp [findCell] at h1
          · intro x hx
            rcases List.mem_cons.1 hx with rfl | hx
            · exact hlt
            · exact hlt.trans (hs.1 x hx)
      subst hk
      have hv := he k
      simp only [findCell, if_true, Option.some.injEq] at hv
      subst hv
      congr 1
      refine ih (fun a => ?_) hs.2 hs'.2
      by_cases ha : k = a
      · subst ha; rw [below hs.1, below hs'.1]
      · simpa [findCell, ha] using he a

/-! ### Data memory -/

theorem Memory.read_writeCell (d : Draw) (m : Memory) (a : Nat) (v : Byte) (b : Nat) :
    Memory.read d (writeCell m a v) b = if b = a then v else Memory.read d m b := by
  unfold Memory.read; rw [findCell_writeCell]; split_ifs <;> rfl

/-- What a run of byte writes leaves: the bytes inside, the old contents outside. -/
theorem Memory.read_writeBytes (d : Draw) (bs : List Byte) (m : Memory) (a b : Nat) :
    Memory.read d (m.writeBytes a bs) b =
      if h : a ≤ b ∧ b - a < bs.length then bs[b - a]'h.2 else Memory.read d m b := by
  induction bs generalizing m a with
  | nil => simp [Memory.writeBytes]
  | cons v bs ih =>
    rw [Memory.writeBytes, ih, Memory.read_writeCell]
    by_cases h1 : a + 1 ≤ b ∧ b - (a + 1) < bs.length
    · have h2 : b - a = b - (a + 1) + 1 := by omega
      have h3 : a ≤ b ∧ b - a < (v :: bs).length := by simp only [List.length_cons]; omega
      simp [h1, h3, h2]
    · rw [dif_neg h1]
      by_cases h2 : b = a
      · subst h2; simp
      · have h3 : ¬ (a ≤ b ∧ b - a < (v :: bs).length) := by simp only [List.length_cons]; omega
        rw [if_neg h2, dif_neg h3]

theorem Memory.wf_writeBytes {m : Memory} (h : m.wf) (bs : List Byte) {a : Nat}
    (ha : a + bs.length ≤ Config.dmemSize) : (m.writeBytes a bs).wf := by
  induction bs generalizing m a with
  | nil => exact h
  | cons v bs ih =>
    simp only [List.length_cons] at ha
    exact ih (cellsWf_writeCell h (by omega) v) (by omega)

/-! ### The memory writes of a command -/

/-- `memWriteAll` in one equation: the bytes and their count, nothing else. -/
theorem Run.memWriteAll_eq (bs : List Byte) (r : Run) (a : Nat) :
    r.memWriteAll a bs =
      { st := { r.st with dmem := r.st.dmem.writeBytes a bs }, written := r.written + bs.length } := by
  induction bs generalizing r a with
  | nil => rfl
  | cons v bs ih =>
    rw [Run.memWriteAll, ih]
    simp only [Run.memWrite, Memory.writeBytes, List.length_cons]
    congr 1; omega

/-! ### The arena -/

theorem Arena.node_writeCell (d : Draw) (ar : Arena) (a : Nat) (n : Node) (b : Nat) :
    Arena.node d (writeCell ar a n) b = if b = a then n else Arena.node d ar b := by
  unfold Arena.node; rw [findCell_writeCell]; split_ifs <;> rfl

end Sys2Proof.Machine
end

