-- ==== Sys2Proof/Laws/Operands.lean ====
section
/-! SUPPORT. The laws of the operand forms: bit strings, code table entries, the entry registers, packing and
padding. -/

namespace Sys2Proof.Machine

/-! ### Bit strings -/

theorem testBit_msbNat (f : Nat → Bool) (n j : Nat) (h : j < n) : (msbNat f n).testBit j = f (n - 1 - j) := by
  induction n generalizing j with
  | zero => omega
  | succ n ih =>
    cases j with
    | zero => cases hf : f n <;> simp [msbNat, hf]
    | succ j =>
      have h2 : (2 * msbNat f n + (f n).toNat) / 2 = msbNat f n := by cases f n <;> simp; omega
      rw [msbNat, Nat.testBit_succ, h2, ih j (by omega)]
      congr 1; omega

@[simp] theorem getMsbD_msbFirst (n : Nat) (f : Nat → Bool) (i : Nat) :
    (msbFirst n f).getMsbD i = (decide (i < n) && f i) := by
  by_cases h : i < n
  · have hj : n - 1 - i < n := by omega
    rw [BitVec.getMsbD_eq_getLsbD, msbFirst, BitVec.getLsbD_ofNat, testBit_msbNat f n _ hj,
      show n - 1 - (n - 1 - i) = i by omega]
    simp [hj]
  · simp [BitVec.getMsbD, h]

/-- Positions count from the most significant bit: position `t` of a byte is bit `7 - t`. -/
theorem byte_getLsbD (b : Byte) {t : Nat} (h : t < 8) : b.getLsbD (7 - t) = b.getMsbD t := by
  rw [BitVec.getMsbD_eq_getLsbD]; simp [h]

theorem word_getLsbD (w : Word) {k : Nat} (h : k < 32) : w.getLsbD (31 - k) = w.getMsbD k := by
  rw [BitVec.getMsbD_eq_getLsbD]; simp [h]

theorem bitAt_of_lt (w : List Bool) {i : Nat} (h : i < w.length) : bitAt w i = w[i] := by
  simp [bitAt, h]

theorem bitAt_of_ge (w : List Bool) {i : Nat} (h : w.length ≤ i) : bitAt w i = false := by
  simp [bitAt, h]

theorem bitAt_append (u w : List Bool) (i : Nat) :
    bitAt (u ++ w) i = if i < u.length then bitAt u i else bitAt w (i - u.length) := by
  unfold bitAt
  split_ifs with h
  · simp [h, List.getElem?_append_left]
  · simp [List.getElem?_append_right (Nat.le_of_not_lt h)]

theorem bitAt_drop (w : List Bool) (n i : Nat) : bitAt (w.drop n) i = bitAt w (n + i) := by
  simp [bitAt, List.getElem?_drop]

@[simp] theorem bitAt_replicate_false (n i : Nat) : bitAt (List.replicate n false) i = false := by
  simp [bitAt, List.getElem?_replicate]
  split_ifs <;> simp

/-! ### Code table entries -/

theorem byte_lt (b : Byte) : b.toNat < 256 := b.isLt

theorem byte_ne_zero {b : Byte} : b ≠ 0#8 ↔ 0 < b.toNat := by
  rw [Nat.pos_iff_ne_zero, ne_eq, ne_eq, ← BitVec.toNat_inj]; rfl

@[simp] theorem CTEntry.make_len (l : Byte) (f : Nat → Bool) : (CTEntry.make l f).len = l := rfl

@[simp] theorem CTEntry.make_pos (l : Byte) (f : Nat → Bool) (i : Nat) :
    (CTEntry.make l f).pos i = (decide (i < l.toNat) && f i) := by
  have := byte_lt l
  simp only [CTEntry.pos, CTEntry.make, getMsbD_msbFirst]
  by_cases h : i < l.toNat
  · simp [h, show i < 255 by omega]
  · simp [h]

theorem CTEntry.make_zeroTail (l : Byte) (f : Nat → Bool) : (CTEntry.make l f).zeroTail := by
  intro i h
  simp [show ¬ i < l.toNat by simpa using h]

theorem CTEntry.empty_zeroTail : CTEntry.empty.zeroTail := by
  intro i _; simp [CTEntry.pos, CTEntry.empty]

@[simp] theorem CTEntry.word_length (e : CTEntry) : e.word.length = e.len.toNat := by simp [CTEntry.word]

@[simp] theorem CTEntry.word_getElem (e : CTEntry) (i : Nat) (h : i < e.word.length) : e.word[i] = e.pos i := by
  simp [CTEntry.word]

theorem CTEntry.bitAt_word (e : CTEntry) (i : Nat) :
    bitAt e.word i = (decide (i < e.len.toNat) && e.pos i) := by
  by_cases h : i < e.len.toNat
  · rw [bitAt_of_lt _ (by simpa using h)]; simp [h]
  · rw [bitAt_of_ge _ (by simpa using h)]; simp [h]

theorem CTEntry.word_ne_nil {e : CTEntry} : e.word ≠ [] ↔ e.len ≠ 0#8 := by
  rw [← List.length_pos_iff, CTEntry.word_length, byte_ne_zero]

theorem CTEntry.word_eq_nil {e : CTEntry} (h : e.len = 0#8) : e.word = [] := by
  by_contra hc; exact CTEntry.word_ne_nil.1 hc h

/-- Entries with the same length and positions are the same entry. -/
theorem CTEntry.ext_pos {e f : CTEntry} (hl : e.len = f.len) (hp : ∀ i < 255, e.pos i = f.pos i) : e = f := by
  obtain ⟨l, c⟩ := e
  obtain ⟨l', c'⟩ := f
  simp only at hl
  subst hl
  congr 1
  apply BitVec.eq_of_getMsbD_eq
  intro i hi
  exact hp i hi

/-- With a zero tail an entry is its codeword. -/
theorem CTEntry.make_word {e : CTEntry} (h : e.zeroTail) : CTEntry.make e.len (bitAt e.word) = e := by
  refine CTEntry.ext_pos (CTEntry.make_len _ _) fun i _ => ?_
  rw [CTEntry.make_pos, CTEntry.bitAt_word]
  by_cases hi : i < e.len.toNat
  · simp [hi]
  · simp [hi, h i (by omega)]

@[simp] theorem Table.get_put (t : Table) (s : Byte) (e : CTEntry) (u : Byte) :
    (t.put s e).get u = if u = s then e else t.get u := by
  unfold Table.get Table.put
  rw [Vector.getElem_set]
  by_cases h : s = u
  · simp [h]
  · have : s.toNat ≠ u.toNat := fun e => h (BitVec.toNat_inj.1 e)
    have h' : ¬ u = s := fun e => h e.symm
    simp [this, h']

@[simp] theorem Table.get_empty (s : Byte) : Table.empty.get s = CTEntry.empty := by
  simp [Table.get, Table.empty]

/-- Tables with the same entries are the same table. -/
theorem Table.ext_get {t u : Table} (h : ∀ s, t.get s = u.get s) : t = u := by
  apply Vector.ext
  intro i hi
  have := h (BitVec.ofNat 8 i)
  simpa [Table.get, Nat.mod_eq_of_lt hi] using this

theorem mem_allSymbols (s : Byte) : s ∈ allSymbols := by
  simp only [allSymbols, List.mem_map, List.mem_range]
  exact ⟨s.toNat, s.isLt, by simp⟩

theorem allSymbols_sorted : allSymbols.Pairwise (fun s t => s.toNat < t.toNat) := by
  unfold allSymbols Config.nsym
  rw [List.pairwise_map]
  refine (List.pairwise_lt_range (n := 256)).imp_of_mem ?_
  intro a b ha hb h
  rw [List.mem_range] at ha hb
  simpa [Nat.mod_eq_of_lt ha, Nat.mod_eq_of_lt hb] using h

/-- The present symbols are all symbols in ascending order, those with a codeword. -/
theorem Table.present_eq (t : Table) : t.present = allSymbols.filter fun s => (t.get s).len ≠ 0#8 := by
  have h : t.toList.zipIdx = (List.range 256).map fun n => (t.get (BitVec.ofNat 8 n), n) := by
    apply List.ext_getElem
    · simp
    · intro n h1 h2
      have hn : n < 256 := by simpa using h2
      simp [Table.get, Nat.mod_eq_of_lt hn]
  rw [Table.present, h, allSymbols, List.filter_map, List.filter_map, List.map_map]
  rfl

theorem Table.mem_present {t : Table} {s : Byte} : s ∈ t.present ↔ (t.get s).len ≠ 0#8 := by
  simp [Table.present_eq, mem_allSymbols]

/-- The present symbols come in ascending order, each once. -/
theorem Table.present_sorted (t : Table) : t.present.Pairwise (fun s u => s.toNat < u.toNat) :=
  t.present_eq ▸ allSymbols_sorted.filter _

theorem Table.present_nodup (t : Table) : t.present.Nodup :=
  t.present_sorted.imp fun h e => by subst e; exact lt_irrefl _ h

/-! ### The entry registers -/

theorem ecodeBit_of_ge (v : Vector Word 8) {i : Nat} (h : 256 ≤ i) : ecodeBit v i = false := by
  have : ¬ i / 32 < 8 := by omega
  simp [ecodeBit, this]

theorem ecodeOf_getElem (f : Nat → Bool) (j : Nat) (h : j < 8) : (ecodeOf f)[j] = ecodeWord f j := by
  unfold ecodeOf
  rcases j with _ | _ | _ | _ | _ | _ | _ | _ | j
  all_goals first | rfl | omega

theorem ecodeBit_ecodeOf (f : Nat → Bool) {i : Nat} (h : i < 256) : ecodeBit (ecodeOf f) i = f i := by
  have h8 : i / 32 < 8 := by omega
  have hm : i % 32 < 32 := Nat.mod_lt _ (by decide)
  have hi : 32 * (i / 32) + i % 32 = i := by omega
  unfold ecodeBit
  rw [dif_pos h8, ecodeOf_getElem, word_getLsbD _ hm, ecodeWord, getMsbD_msbFirst, hi]
  simp [hm]

/-! ### Padding and packing -/

/-- The padded stream is a whole number of bytes (R68). -/
theorem padding_aligned (len : Nat) (reduced : Bool) : (len + padding len reduced) % 8 = 0 := by
  unfold padding; split_ifs <;> omega

theorem padding_le (len : Nat) (reduced : Bool) : padding len reduced ≤ 8 := by
  unfold padding; split_ifs <;> omega

@[simp] theorem packBytes_length (n : Nat) (w : List Bool) : (packBytes n w).length = n := by
  induction n generalizing w with
  | zero => rfl
  | succ n ih => simp [packBytes, ih]

/-- R69: bit `7 - t` of payload byte `m` is stream position `8 m + t`. -/
theorem packBytes_getMsbD (n : Nat) (w : List Bool) (m : Nat) (h : m < (packBytes n w).length) (t : Nat)
    (ht : t < 8) : ((packBytes n w)[m]).getMsbD t = bitAt w (8 * m + t) := by
  induction n generalizing w m with
  | zero => simp [packBytes] at h
  | succ n ih =>
    cases m with
    | zero => simp [packBytes, ht]
    | succ m =>
      simp only [packBytes, List.getElem_cons_succ]
      rw [ih _ _ (by simpa [packBytes] using h), bitAt_drop]
      congr 1; omega

end Sys2Proof.Machine
end

