-- ==== Sys2Proof/Laws/State.lean ====
section
/-! SUPPORT. One lemma per field per update of State, true by `rfl`, so that no proof unfolds a record update.
A lemma that names several fields gives simp one rule for each. -/

namespace Sys2Proof.Machine

variable (s : State) (r : Run)

@[simp] theorem Run.memWrite_written (a : Nat) (v : Byte) : (r.memWrite a v).written = r.written + 1 := rfl

@[simp] theorem Run.memWrite_dmem (a : Nat) (v : Byte) :
    (r.memWrite a v).st.dmem = writeCell r.st.dmem a v := rfl

@[simp] theorem Run.memWrite_fields (a : Nat) (v : Byte) :
    (r.memWrite a v).st.ctrl = r.st.ctrl ∧ (r.memWrite a v).st.status = r.st.status ∧
    (r.memWrite a v).st.cmd = r.st.cmd ∧ (r.memWrite a v).st.errCode = r.st.errCode ∧
    (r.memWrite a v).st.errPos = r.st.errPos ∧ (r.memWrite a v).st.src = r.st.src ∧
    (r.memWrite a v).st.srcLen = r.st.srcLen ∧ (r.memWrite a v).st.dst = r.st.dst ∧
    (r.memWrite a v).st.dstCap = r.st.dstCap ∧ (r.memWrite a v).st.outLen = r.st.outLen ∧
    (r.memWrite a v).st.bitLen = r.st.bitLen ∧ (r.memWrite a v).st.pad = r.st.pad ∧
    (r.memWrite a v).st.symCount = r.st.symCount ∧ (r.memWrite a v).st.nodeCount = r.st.nodeCount ∧
    (r.memWrite a v).st.esym = r.st.esym ∧ (r.memWrite a v).st.elen = r.st.elen ∧
    (r.memWrite a v).st.ecode = r.st.ecode ∧ (r.memWrite a v).st.ct = r.st.ct ∧
    (r.memWrite a v).st.arena = r.st.arena ∧ (r.memWrite a v).st.resetLine = r.st.resetLine ∧
    (r.memWrite a v).st.dmemDraw = r.st.dmemDraw ∧ (r.memWrite a v).st.arenaDraw = r.st.arenaDraw ∧
    (r.memWrite a v).st.draws = r.st.draws ∧ (r.memWrite a v).st.agenda = r.st.agenda ∧
    (r.memWrite a v).st.busResp = r.st.busResp :=
  ⟨rfl, rfl, rfl, rfl, rfl, rfl, rfl, rfl, rfl, rfl, rfl, rfl, rfl, rfl, rfl, rfl, rfl, rfl, rfl, rfl, rfl, rfl,
    rfl, rfl, rfl⟩

@[simp] theorem startState_results :
    (startState s).errCode = 0#8 ∧ (startState s).errPos = 0#32 ∧ (startState s).outLen = 0#32 ∧
    (startState s).bitLen = 0#32 ∧ (startState s).pad = 0#32 ∧ (startState s).symCount = 0#32 :=
  ⟨rfl, rfl, rfl, rfl, rfl, rfl⟩

@[simp] theorem startState_fields :
    (startState s).ctrl = s.ctrl ∧ (startState s).status = s.status ∧ (startState s).cmd = s.cmd ∧
    (startState s).src = s.src ∧ (startState s).srcLen = s.srcLen ∧ (startState s).dst = s.dst ∧
    (startState s).dstCap = s.dstCap ∧ (startState s).nodeCount = s.nodeCount ∧ (startState s).esym = s.esym ∧
    (startState s).elen = s.elen ∧ (startState s).ecode = s.ecode ∧ (startState s).ct = s.ct ∧
    (startState s).arena = s.arena ∧ (startState s).dmem = s.dmem ∧ (startState s).resetLine = s.resetLine ∧
    (startState s).dmemDraw = s.dmemDraw ∧ (startState s).arenaDraw = s.arenaDraw ∧
    (startState s).draws = s.draws ∧ (startState s).agenda = s.agenda ∧ (startState s).busResp = s.busResp :=
  ⟨rfl, rfl, rfl, rfl, rfl, rfl, rfl, rfl, rfl, rfl, rfl, rfl, rfl, rfl, rfl, rfl, rfl, rfl, rfl, rfl⟩

@[simp] theorem startStep_st : (startStep s).st = startState s := rfl

@[simp] theorem startStep_written : (startStep s).written = 0 := rfl

@[simp] theorem setTreeValid_status (b : Bool) :
    (s.setTreeValid b).status = { s.status with treeValid := b } := rfl

@[simp] theorem setTreeValid_fields (b : Bool) :
    (s.setTreeValid b).ctrl = s.ctrl ∧ (s.setTreeValid b).cmd = s.cmd ∧ (s.setTreeValid b).errCode = s.errCode ∧
    (s.setTreeValid b).errPos = s.errPos ∧ (s.setTreeValid b).src = s.src ∧
    (s.setTreeValid b).srcLen = s.srcLen ∧ (s.setTreeValid b).dst = s.dst ∧
    (s.setTreeValid b).dstCap = s.dstCap ∧ (s.setTreeValid b).outLen = s.outLen ∧
    (s.setTreeValid b).bitLen = s.bitLen ∧ (s.setTreeValid b).pad = s.pad ∧
    (s.setTreeValid b).symCount = s.symCount ∧ (s.setTreeValid b).nodeCount = s.nodeCount ∧
    (s.setTreeValid b).esym = s.esym ∧ (s.setTreeValid b).elen = s.elen ∧ (s.setTreeValid b).ecode = s.ecode ∧
    (s.setTreeValid b).ct = s.ct ∧ (s.setTreeValid b).arena = s.arena ∧ (s.setTreeValid b).dmem = s.dmem ∧
    (s.setTreeValid b).resetLine = s.resetLine ∧ (s.setTreeValid b).dmemDraw = s.dmemDraw ∧
    (s.setTreeValid b).arenaDraw = s.arenaDraw ∧ (s.setTreeValid b).draws = s.draws ∧
    (s.setTreeValid b).agenda = s.agenda ∧ (s.setTreeValid b).busResp = s.busResp :=
  ⟨rfl, rfl, rfl, rfl, rfl, rfl, rfl, rfl, rfl, rfl, rfl, rfl, rfl, rfl, rfl, rfl, rfl, rfl, rfl, rfl, rfl, rfl,
    rfl, rfl, rfl⟩

@[simp] theorem setCollision_status :
    s.setCollision.status = { s.status with collision := true } := rfl

@[simp] theorem setCollision_fields :
    s.setCollision.ctrl = s.ctrl ∧ s.setCollision.cmd = s.cmd ∧ s.setCollision.errCode = s.errCode ∧
    s.setCollision.nodeCount = s.nodeCount ∧ s.setCollision.ct = s.ct ∧ s.setCollision.arena = s.arena ∧
    s.setCollision.dmem = s.dmem ∧ s.setCollision.resetLine = s.resetLine ∧
    s.setCollision.dmemDraw = s.dmemDraw ∧ s.setCollision.arenaDraw = s.arenaDraw ∧
    s.setCollision.agenda = s.agenda ∧ s.setCollision.draws = s.draws :=
  ⟨rfl, rfl, rfl, rfl, rfl, rfl, rfl, rfl, rfl, rfl, rfl, rfl⟩

@[simp] theorem clearTable_ct : s.clearTable.ct = Table.empty := rfl

@[simp] theorem clearTable_fields :
    s.clearTable.ctrl = s.ctrl ∧ s.clearTable.status = s.status ∧ s.clearTable.cmd = s.cmd ∧
    s.clearTable.errCode = s.errCode ∧ s.clearTable.errPos = s.errPos ∧ s.clearTable.src = s.src ∧
    s.clearTable.srcLen = s.srcLen ∧ s.clearTable.dst = s.dst ∧ s.clearTable.dstCap = s.dstCap ∧
    s.clearTable.outLen = s.outLen ∧ s.clearTable.bitLen = s.bitLen ∧ s.clearTable.pad = s.pad ∧
    s.clearTable.symCount = s.symCount ∧ s.clearTable.nodeCount = s.nodeCount ∧
    s.clearTable.esym = s.esym ∧ s.clearTable.elen = s.elen ∧ s.clearTable.ecode = s.ecode ∧
    s.clearTable.arena = s.arena ∧ s.clearTable.dmem = s.dmem ∧ s.clearTable.resetLine = s.resetLine ∧
    s.clearTable.dmemDraw = s.dmemDraw ∧ s.clearTable.arenaDraw = s.arenaDraw ∧ s.clearTable.draws = s.draws ∧
    s.clearTable.agenda = s.agenda ∧ s.clearTable.busResp = s.busResp :=
  ⟨rfl, rfl, rfl, rfl, rfl, rfl, rfl, rfl, rfl, rfl, rfl, rfl, rfl, rfl, rfl, rfl, rfl, rfl, rfl, rfl, rfl, rfl,
    rfl, rfl, rfl⟩

@[simp] theorem completeOk_status : (completeOk s).status = { s.status with busy := false, done := true, err := false } :=
  rfl

@[simp] theorem completeOk_fields :
    (completeOk s).ctrl = s.ctrl ∧ (completeOk s).cmd = s.cmd ∧ (completeOk s).errCode = s.errCode ∧
    (completeOk s).errPos = s.errPos ∧ (completeOk s).src = s.src ∧ (completeOk s).srcLen = s.srcLen ∧
    (completeOk s).dst = s.dst ∧ (completeOk s).dstCap = s.dstCap ∧ (completeOk s).outLen = s.outLen ∧
    (completeOk s).bitLen = s.bitLen ∧ (completeOk s).pad = s.pad ∧ (completeOk s).symCount = s.symCount ∧
    (completeOk s).nodeCount = s.nodeCount ∧ (completeOk s).esym = s.esym ∧ (completeOk s).elen = s.elen ∧
    (completeOk s).ecode = s.ecode ∧ (completeOk s).ct = s.ct ∧ (completeOk s).arena = s.arena ∧
    (completeOk s).dmem = s.dmem ∧ (completeOk s).resetLine = s.resetLine ∧
    (completeOk s).dmemDraw = s.dmemDraw ∧ (completeOk s).arenaDraw = s.arenaDraw ∧
    (completeOk s).draws = s.draws ∧ (completeOk s).agenda = s.agenda ∧ (completeOk s).busResp = s.busResp :=
  ⟨rfl, rfl, rfl, rfl, rfl, rfl, rfl, rfl, rfl, rfl, rfl, rfl, rfl, rfl, rfl, rfl, rfl, rfl, rfl, rfl, rfl, rfl,
    rfl, rfl, rfl⟩

@[simp] theorem completeError_record (c : ErrCode) (p : Nat) :
    (completeError r c p).errCode = c.byte ∧ (completeError r c p).errPos = BitVec.ofNat 32 p ∧
    (completeError r c p).outLen = BitVec.ofNat 32 r.written ∧ (completeError r c p).bitLen = 0#32 ∧
    (completeError r c p).pad = 0#32 ∧ (completeError r c p).symCount = 0#32 ∧
    (completeError r c p).status = { r.st.status with busy := false, done := true, err := true } :=
  ⟨rfl, rfl, rfl, rfl, rfl, rfl, rfl⟩

@[simp] theorem completeError_fields (c : ErrCode) (p : Nat) :
    (completeError r c p).ctrl = r.st.ctrl ∧ (completeError r c p).cmd = r.st.cmd ∧
    (completeError r c p).src = r.st.src ∧ (completeError r c p).srcLen = r.st.srcLen ∧
    (completeError r c p).dst = r.st.dst ∧ (completeError r c p).dstCap = r.st.dstCap ∧
    (completeError r c p).nodeCount = r.st.nodeCount ∧ (completeError r c p).esym = r.st.esym ∧
    (completeError r c p).elen = r.st.elen ∧ (completeError r c p).ecode = r.st.ecode ∧
    (completeError r c p).ct = r.st.ct ∧ (completeError r c p).arena = r.st.arena ∧
    (completeError r c p).dmem = r.st.dmem ∧ (completeError r c p).resetLine = r.st.resetLine ∧
    (completeError r c p).dmemDraw = r.st.dmemDraw ∧ (completeError r c p).arenaDraw = r.st.arenaDraw ∧
    (completeError r c p).draws = r.st.draws ∧ (completeError r c p).agenda = r.st.agenda ∧
    (completeError r c p).busResp = r.st.busResp :=
  ⟨rfl, rfl, rfl, rfl, rfl, rfl, rfl, rfl, rfl, rfl, rfl, rfl, rfl, rfl, rfl, rfl, rfl, rfl, rfl⟩

@[simp] theorem forgetArena_fields :
    s.forgetArena.arena = [] ∧ s.forgetArena.arenaDraw = s.arenaDraw.next ∧ s.forgetArena.ctrl = s.ctrl ∧
    s.forgetArena.status = s.status ∧ s.forgetArena.cmd = s.cmd ∧ s.forgetArena.errCode = s.errCode ∧
    s.forgetArena.errPos = s.errPos ∧ s.forgetArena.outLen = s.outLen ∧ s.forgetArena.bitLen = s.bitLen ∧
    s.forgetArena.pad = s.pad ∧ s.forgetArena.symCount = s.symCount ∧ s.forgetArena.nodeCount = s.nodeCount ∧
    s.forgetArena.ct = s.ct ∧ s.forgetArena.dmem = s.dmem ∧ s.forgetArena.dmemDraw = s.dmemDraw ∧
    s.forgetArena.resetLine = s.resetLine ∧ s.forgetArena.agenda = s.agenda ∧ s.forgetArena.draws = s.draws :=
  ⟨rfl, rfl, rfl, rfl, rfl, rfl, rfl, rfl, rfl, rfl, rfl, rfl, rfl, rfl, rfl, rfl, rfl, rfl⟩

@[simp] theorem acceptCommand_fields (c : Word) :
    (s.acceptCommand c).cmd = c ∧
    (s.acceptCommand c).status = { s.status with busy := true, done := false, err := false } ∧
    (s.acceptCommand c).ctrl = s.ctrl ∧ (s.acceptCommand c).errCode = s.errCode ∧
    (s.acceptCommand c).nodeCount = s.nodeCount ∧ (s.acceptCommand c).ct = s.ct ∧
    (s.acceptCommand c).arena = s.arena ∧ (s.acceptCommand c).dmem = s.dmem ∧
    (s.acceptCommand c).resetLine = s.resetLine ∧ (s.acceptCommand c).dmemDraw = s.dmemDraw ∧
    (s.acceptCommand c).arenaDraw = s.arenaDraw ∧ (s.acceptCommand c).agenda = s.agenda ∧
    (s.acceptCommand c).draws = s.draws :=
  ⟨rfl, rfl, rfl, rfl, rfl, rfl, rfl, rfl, rfl, rfl, rfl, rfl, rfl⟩

@[simp] theorem acknowledge_fields (v : Word) :
    (s.acknowledge v).status = s.status.writeOneToClear v ∧ (s.acknowledge v).ctrl = s.ctrl ∧
    (s.acknowledge v).cmd = s.cmd ∧ (s.acknowledge v).errCode = s.errCode ∧
    (s.acknowledge v).nodeCount = s.nodeCount ∧ (s.acknowledge v).ct = s.ct ∧
    (s.acknowledge v).arena = s.arena ∧ (s.acknowledge v).dmem = s.dmem ∧
    (s.acknowledge v).resetLine = s.resetLine ∧ (s.acknowledge v).dmemDraw = s.dmemDraw ∧
    (s.acknowledge v).arenaDraw = s.arenaDraw ∧ (s.acknowledge v).agenda = s.agenda ∧
    (s.acknowledge v).draws = s.draws :=
  ⟨rfl, rfl, rfl, rfl, rfl, rfl, rfl, rfl, rfl, rfl, rfl, rfl, rfl⟩

@[simp] theorem respond_busResp (x : BusResp) : (s.respond x).busResp = x := rfl

@[simp] theorem respond_fields (x : BusResp) :
    (s.respond x).ctrl = s.ctrl ∧ (s.respond x).status = s.status ∧ (s.respond x).cmd = s.cmd ∧
    (s.respond x).errCode = s.errCode ∧ (s.respond x).errPos = s.errPos ∧ (s.respond x).src = s.src ∧
    (s.respond x).srcLen = s.srcLen ∧ (s.respond x).dst = s.dst ∧ (s.respond x).dstCap = s.dstCap ∧
    (s.respond x).outLen = s.outLen ∧ (s.respond x).bitLen = s.bitLen ∧ (s.respond x).pad = s.pad ∧
    (s.respond x).symCount = s.symCount ∧ (s.respond x).nodeCount = s.nodeCount ∧
    (s.respond x).esym = s.esym ∧ (s.respond x).elen = s.elen ∧ (s.respond x).ecode = s.ecode ∧
    (s.respond x).ct = s.ct ∧ (s.respond x).arena = s.arena ∧ (s.respond x).dmem = s.dmem ∧
    (s.respond x).resetLine = s.resetLine ∧ (s.respond x).dmemDraw = s.dmemDraw ∧
    (s.respond x).arenaDraw = s.arenaDraw ∧ (s.respond x).draws = s.draws ∧
    (s.respond x).agenda = s.agenda :=
  ⟨rfl, rfl, rfl, rfl, rfl, rfl, rfl, rfl, rfl, rfl, rfl, rfl, rfl, rfl, rfl, rfl, rfl, rfl, rfl, rfl, rfl, rfl,
    rfl, rfl, rfl⟩

end Sys2Proof.Machine
end

