-- ==== Sys2Proof/Laws/Records.lean ====
section
/-! SUPPORT. What the frame of a command leaves (60_exceptions.md R82, R83) in terms of the records of Safety.lean,
and what the window checks decide (20_memory.md R36). -/

namespace Sys2Proof.Machine

/-! ### Completion -/

theorem errCode_byte_ne_zero (c : ErrCode) : c.byte ≠ 0#8 := by cases c <;> decide

theorem errCode_byte_le (c : ErrCode) : c.byte.toNat ≤ 0x0D := by cases c <;> decide

/-- A success that wrote nothing is the record `okRecord` of the state it wrote it in. -/
theorem completeOk_eq (s : State) (o b p n : Nat) :
    completeOk { s with
      errCode := 0#8, errPos := 0#32, outLen := BitVec.ofNat 32 o, bitLen := BitVec.ofNat 32 b
      pad := BitVec.ofNat 32 p, symCount := BitVec.ofNat 32 n } = s.okRecord o b p n := rfl

/-- A failure at the start state is the record `errRecord`. -/
theorem completeError_start (s : State) (c : ErrCode) (code : Nat) (hc : c.byte = BitVec.ofNat 8 code)
    (pos : Nat) : completeError (startStep s) c pos = s.errRecord code pos 0 := by
  simp only [completeError, State.errRecord, hc]; rfl

theorem isRecordWith_of_writeBytes {t u s : State} {a : Nat} {bs : List Byte} (h1 : { t with dmem := s.dmem } = u)
    (h2 : t.dmem = s.dmem.writeBytes a bs) (h3 : t.dmemDraw = s.dmemDraw) : t.isRecordWith u s a bs := by
  have hb : ∀ b, t.byteAt b = Memory.read s.dmemDraw (s.dmem.writeBytes a bs) b := fun b => by
    rw [State.byteAt, h2, h3]
  refine ⟨h1, fun i hi => ?_, fun b hb' => ?_⟩
  · rw [hb, Memory.read_writeBytes, dif_pos (by omega)]; simp
  · rw [hb, Memory.read_writeBytes, dif_neg (by omega)]; rfl

/-- A failure after some bytes are written. -/
theorem completeError_memWriteAll (s : State) (c : ErrCode) (code : Nat) (hc : c.byte = BitVec.ofNat 8 code)
    (pos a : Nat) (bs : List Byte) :
    (completeError ((startStep s).memWriteAll a bs) c pos).isRecordWith (s.errRecord code pos bs.length) s a bs := by
  rw [Run.memWriteAll_eq]
  refine isRecordWith_of_writeBytes ?_ rfl rfl
  simp only [completeError, State.errRecord, hc, startStep_written, Nat.zero_add]
  rfl

/-! ### Windows -/

theorem srcFits_iff (s : State) : s.srcFits = true ↔ s.src.toNat + s.srcLen.toNat ≤ 65536 :=
  decide_eq_true_iff

theorem dstFits_iff (s : State) : s.dstFits = true ↔ s.dst.toNat + s.dstCap.toNat ≤ 65536 :=
  decide_eq_true_iff

theorem windowsGood_iff (s : State) : s.windowsGood ↔ s.srcFits = true ∧ s.dstFits = true ∧ s.overlap = false := by
  rw [srcFits_iff, dstFits_iff, State.windowsGood, State.overlap]
  simp only [Bool.and_eq_false_iff, decide_eq_false_iff_not]
  refine and_congr Iff.rfl (and_congr Iff.rfl ?_)
  omega

@[simp] theorem startState_windows (s : State) :
    (startState s).srcFits = s.srcFits ∧ (startState s).dstFits = s.dstFits ∧ (startState s).overlap = s.overlap :=
  ⟨rfl, rfl, rfl⟩

@[simp] theorem startState_byteAt (s : State) (a : Nat) : (startState s).byteAt a = s.byteAt a := rfl

@[simp] theorem startState_nodeAt (s : State) (n : Fin 512) : (startState s).nodeAt n = s.nodeAt n := rfl

@[simp] theorem startState_entry (s : State) (x : Byte) : (startState s).entry x = s.entry x := rfl

/-- The bytes of two good windows are at different addresses. -/
theorem windowsGood_ne {s : State} (h : s.windowsGood) {i j : Nat} (hi : i < s.srcLen.toNat) (hj : j < s.dstCap.toNat) :
    s.src.toNat + i ≠ s.dst.toNat + j := by
  obtain ⟨-, -, h⟩ := h; omega

end Sys2Proof.Machine
end

