-- ==== Sys2Proof/Laws/Artifact.lean ====
section
/-! SUPPORT. The Encoded Artifact and ENCODE (42_encoder.md R66 to R70): the artifact's bytes and bits, and the one
inversion lemma of ENCODE's body. -/

namespace Sys2Proof.Machine

theorem payloadBytes_mul (len : Nat) (reduced : Bool) : 8 * payloadBytes len reduced = len + padding len reduced := by
  have := padding_aligned len reduced
  unfold payloadBytes; omega

theorem codeStream_length (ct : Table) (syms : List Byte) : (codeStream ct syms).length = streamBits ct syms := by
  induction syms with
  | nil => rfl
  | cons x syms ih => simp [codeStream, streamBits] at ih ⊢

@[simp] theorem artifact_length (ct : Table) (reduced : Bool) (syms : List Byte) :
    (artifact ct reduced syms).length = 1 + payloadBytes (streamBits ct syms) reduced := by
  simp [artifact]; omega

theorem artifact_head (ct : Table) (reduced : Bool) (syms : List Byte) (h : 0 < (artifact ct reduced syms).length) :
    ((artifact ct reduced syms)[0]).toNat = padding (streamBits ct syms) reduced := by
  have := padding_le (streamBits ct syms) reduced
  simp only [artifact, List.getElem_cons_zero, BitVec.toNat_ofNat]
  omega

/-- Payload bit `k` of the artifact is bit `k` of the code stream, and a filler bit is zero. -/
theorem artifact_bit (ct : Table) (reduced : Bool) (syms : List Byte) {k : Nat}
    (h : 1 + k / 8 < (artifact ct reduced syms).length) :
    ((artifact ct reduced syms)[1 + k / 8]).getLsbD (7 - k % 8) = bitAt (codeStream ct syms) k := by
  have h' := h
  simp only [artifact_length] at h'
  have hkey : ∀ m (hm : m < (artifact ct reduced syms).length) n (hmn : m = n + 1),
      (artifact ct reduced syms)[m] = (packBytes (payloadBytes (streamBits ct syms) reduced) (codeStream ct syms ++
        List.replicate (padding (streamBits ct syms) reduced) false))[n]'(by
          simp only [artifact_length] at hm; simp; omega) := by
    rintro m hm n rfl; simp [artifact]
  rw [hkey _ h (k / 8) (by omega), byte_getLsbD _ (by omega), packBytes_getMsbD _ _ _ _ _ (by omega)]
  rw [show 8 * (k / 8) + k % 8 = k by omega, bitAt_append]
  simp only [bitAt_replicate_false]
  split_ifs with h1
  · rfl
  · rw [bitAt_of_ge _ (by omega)]

theorem firstUncovered_eq_none {ct : Table} {syms : List Byte} :
    firstUncovered ct syms = none ↔ ∀ x ∈ syms, (ct.get x).len ≠ 0#8 := by
  simp [firstUncovered]

theorem firstUncovered_eq_some {ct : Table} {syms : List Byte} {j : Nat} :
    firstUncovered ct syms = some j ↔ ∃ h : j < syms.length, (ct.get syms[j]).len = 0#8 ∧
      ∀ i (hi : i < j), (ct.get (syms[i]'(hi.trans h))).len ≠ 0#8 := by
  simp [firstUncovered, List.findIdx?_eq_some_iff_getElem]

@[simp] theorem inputSymbols_length (s : State) : s.inputSymbols.length = s.srcLen.toNat := by simp [State.inputSymbols]

@[simp] theorem inputSymbols_getElem (s : State) (i : Nat) (h : i < s.inputSymbols.length) :
    s.inputSymbols[i] = s.byteAt (s.src.toNat + i) := by simp [State.inputSymbols]

@[simp] theorem startState_inputSymbols (s : State) : (startState s).inputSymbols = s.inputSymbols := rfl

/-- Everything ENCODE's body can do. -/
theorem encodeBody_cases (s : State) :
    (s.windowsGood ∧ (∀ x ∈ s.inputSymbols, (s.entry x).len ≠ 0#8) ∧
      1 + payloadBytes (streamBits s.ct s.inputSymbols) s.ctrl.padMode ≤ s.dstCap.toNat ∧
      ∃ r, encodeBody (startStep s) = .done r ∧
        (completeOk r.st).isRecordWith
          (s.okRecord (1 + payloadBytes (streamBits s.ct s.inputSymbols) s.ctrl.padMode)
            (streamBits s.ct s.inputSymbols) (padding (streamBits s.ct s.inputSymbols) s.ctrl.padMode) s.srcLen.toNat)
          s s.dst.toNat (artifact s.ct s.ctrl.padMode s.inputSymbols)) ∨
    ∃ c pos, encodeBody (startStep s) = .raised (startStep s) c pos ∧
      ((c = .range ∧ pos = 0 ∧ s.srcFits = false) ∨
       (c = .range ∧ pos = 1 ∧ s.srcFits = true ∧ s.dstFits = false) ∨
       (c = .overlap ∧ pos = 0 ∧ s.srcFits = true ∧ s.dstFits = true ∧ ¬ s.windowsGood) ∨
       (c = .symbolNotInTable ∧ s.windowsGood ∧ firstUncovered s.ct s.inputSymbols = some pos) ∨
       (c = .dstOverflow ∧ s.windowsGood ∧ (∀ x ∈ s.inputSymbols, (s.entry x).len ≠ 0#8) ∧
         pos = 1 + payloadBytes (streamBits s.ct s.inputSymbols) s.ctrl.padMode ∧ s.dstCap.toNat < pos)) := by
  have hg := windowsGood_iff s
  simp only [encodeBody, startStep_st, startState_windows, startState_inputSymbols, startState_fields]
  cases h1 : s.srcFits
  · exact .inr ⟨_, _, rfl, .inl ⟨rfl, rfl, rfl⟩⟩
  cases h2 : s.dstFits
  · exact .inr ⟨_, _, rfl, .inr (.inl ⟨rfl, rfl, rfl, rfl⟩)⟩
  cases h3 : s.overlap
  · have hw : s.windowsGood := hg.2 ⟨h1, h2, h3⟩
    cases h4 : firstUncovered s.ct s.inputSymbols with
    | some j => exact .inr ⟨_, _, rfl, .inr (.inr (.inr (.inl ⟨rfl, hw, rfl⟩)))⟩
    | none =>
      have h5 := firstUncovered_eq_none.1 h4
      simp only [Bool.not_true, Bool.false_eq_true, if_false]
      split_ifs with h6
      · exact .inr ⟨_, _, rfl, .inr (.inr (.inr (.inr ⟨rfl, hw, h5, rfl, h6⟩)))⟩
      · refine .inl ⟨hw, h5, by omega, _, rfl, ?_⟩
        rw [Run.memWriteAll_eq]
        refine isRecordWith_of_writeBytes ?_ rfl rfl
        simp only [State.okRecord, BitVec.ofNat_toNat, BitVec.setWidth_eq]
        rfl
  · refine .inr ⟨_, _, rfl, .inr (.inr (.inl ⟨rfl, rfl, rfl, rfl, ?_⟩))⟩
    rw [hg, h3]; simp

/-- ENCODE is its body in the frame of a command. -/
theorem encode_exec (s : State) :
    exec .encode s = .next (complete noErrorEffect (encodeBody (startStep s))) := rfl

/-- A successful ENCODE wrote the artifact. -/
theorem encode_ok {s t : State} (h : exec .encode s = .next t) (he : t.status.err = false) :
    s.windowsGood ∧ (∀ x ∈ s.inputSymbols, (s.entry x).len ≠ 0#8) ∧
      1 + payloadBytes (streamBits s.ct s.inputSymbols) s.ctrl.padMode ≤ s.dstCap.toNat ∧
      t.isRecordWith
          (s.okRecord (1 + payloadBytes (streamBits s.ct s.inputSymbols) s.ctrl.padMode)
            (streamBits s.ct s.inputSymbols) (padding (streamBits s.ct s.inputSymbols) s.ctrl.padMode) s.srcLen.toNat)
          s s.dst.toNat (artifact s.ct s.ctrl.padMode s.inputSymbols) := by
  rw [encode_exec] at h
  rcases encodeBody_cases s with ⟨h1, h2, h3, r, h4, g⟩ | ⟨c, pos, h', -⟩
  · rw [h4] at h; cases h; exact ⟨h1, h2, h3, g⟩
  · rw [h'] at h; cases h; cases he

/-- The bits of an input that fits in memory. -/
theorem streamBits_le (s : State) (hw : s.windowsGood) : streamBits s.ct s.inputSymbols ≤ 65536 * 255 := by
  have h1 : s.inputSymbols.length ≤ 65536 := by
    rw [inputSymbols_length]; have := hw.1; omega
  have : streamBits s.ct s.inputSymbols ≤ (s.inputSymbols.length) * 255 := by
    unfold streamBits
    refine (List.sum_le_card_nsmul _ 255 ?_).trans (by simp)
    simp only [List.mem_map]
    rintro _ ⟨x, -, rfl⟩
    have := (s.ct.get x).len.isLt; omega
  exact this.trans (Nat.mul_le_mul_right _ h1)

end Sys2Proof.Machine
end

