-- ==== Sys2Proof/Laws/Canonical.lean ====
section
/-! SUPPORT. The canonical order and the table image (41_table_serializer.md R59 to R63): keys, sorting, image bytes. -/

namespace Sys2Proof.Machine

/-! ### Keys -/

theorem canonicalKey_foldl (w : List Bool) (k : Nat) :
    w.foldl (fun k b => 10 * k + (if b then 2 else 1)) k = k * 10 ^ w.length + canonicalKey w := by
  unfold canonicalKey
  induction w generalizing k with
  | nil => simp
  | cons b w ih =>
    simp only [List.foldl_cons, List.length_cons]
    rw [ih (10 * k + _), ih (10 * 0 + _), pow_succ]
    ring

@[simp] theorem canonicalKey_nil : canonicalKey [] = 0 := rfl

theorem canonicalKey_cons (b : Bool) (w : List Bool) :
    canonicalKey (b :: w) = (if b then 2 else 1) * 10 ^ w.length + canonicalKey w := by
  have := canonicalKey_foldl w (10 * 0 + (if b then 2 else 1))
  rw [canonicalKey, List.foldl_cons, this]; simp

/-- A key of `n` digits lies between 11…1 and 22…2. -/
theorem canonicalKey_bounds (w : List Bool) :
    10 ^ w.length ≤ 9 * canonicalKey w + 1 ∧ 9 * canonicalKey w + 2 ≤ 2 * 10 ^ w.length := by
  induction w with
  | nil => simp
  | cons b w ih =>
    rw [canonicalKey_cons, List.length_cons, pow_succ]
    cases b <;> simp only [if_true, if_false, Bool.false_eq_true] <;> omega

/-- A shorter codeword has a smaller key. -/
theorem canonicalKey_lt_of_length {u w : List Bool} (h : u.length < w.length) : canonicalKey u < canonicalKey w := by
  have h1 := (canonicalKey_bounds u).2
  have h2 := (canonicalKey_bounds w).1
  have h3 : 10 ^ (u.length + 1) ≤ 10 ^ w.length := Nat.pow_le_pow_right (by decide) h
  rw [pow_succ] at h3
  have h4 : 0 < 10 ^ u.length := by positivity
  omega

/-- Among codewords of one length, the key order is the order at the first position where they differ. -/
theorem canonicalKey_lt_iff {u w : List Bool} (h : u.length = w.length) : canonicalKey u < canonicalKey w ↔
    ∃ i < u.length, (∀ j < i, bitAt u j = bitAt w j) ∧ bitAt u i = false ∧ bitAt w i = true := by
  induction u generalizing w with
  | nil =>
    cases w with
    | nil => simp
    | cons c w => simp at h
  | cons b u ih =>
    cases w with
    | nil => simp at h
    | cons c w =>
      simp only [List.length_cons, Nat.succ.injEq] at h
      have hu := canonicalKey_bounds u
      have hw := canonicalKey_bounds w
      rw [← h] at hw
      have hp : 0 < 10 ^ u.length := by positivity
      have key : (∃ i < (b :: u).length, (∀ j < i, bitAt (b :: u) j = bitAt (c :: w) j) ∧ bitAt (b :: u) i = false ∧
          bitAt (c :: w) i = true) ↔ (b = false ∧ c = true) ∨ (b = c ∧ canonicalKey u < canonicalKey w) := by
        rw [ih h]
        constructor
        · rintro ⟨i, hi, hj, h1, h2⟩
          cases i with
          | zero => exact .inl ⟨h1, h2⟩
          | succ i =>
            exact .inr ⟨hj 0 (by omega), i, by simpa using hi, fun j hj' => hj (j + 1) (by omega), h1, h2⟩
        · rintro (⟨rfl, rfl⟩ | ⟨rfl, i, hi, hj, h1, h2⟩)
          · exact ⟨0, by simp, by simp, rfl, rfl⟩
          · refine ⟨i + 1, by simpa using hi, fun j hj' => ?_, h1, h2⟩
            cases j with
            | zero => rfl
            | succ j => exact hj j (by omega)
      rw [key, canonicalKey_cons, canonicalKey_cons, ← h]
      cases b <;> cases c <;> simp <;> omega

theorem canonicalKey_inj {u w : List Bool} (h : canonicalKey u = canonicalKey w) : u = w := by
  have hl : u.length = w.length := by
    rcases Nat.lt_trichotomy u.length w.length with g | g | g
    · have := canonicalKey_lt_of_length g; omega
    · exact g
    · have := canonicalKey_lt_of_length g; omega
  induction u generalizing w with
  | nil =>
    cases w with
    | nil => rfl
    | cons c w => simp at hl
  | cons b u ih =>
    cases w with
    | nil => simp at hl
    | cons c w =>
      simp only [List.length_cons, Nat.succ.injEq] at hl
      have hu := canonicalKey_bounds u
      have hw := canonicalKey_bounds w
      rw [canonicalKey_cons, canonicalKey_cons, ← hl] at h
      rw [← hl] at hw
      have hp : 0 < 10 ^ u.length := by positivity
      have : b = c ∧ canonicalKey u = canonicalKey w := by
        cases b <;> cases c <;> simp only [if_true, if_false, Bool.false_eq_true, true_and] at h ⊢ <;> omega
      obtain ⟨rfl, hk⟩ := this
      rw [ih hk hl]

/-! ### Sorting -/

theorem canonBefore_iff {ct : Table} {s t : Byte} : canonBefore ct s t = true ↔
    canonicalKey (ct.get s).word < canonicalKey (ct.get t).word ∨
    (canonicalKey (ct.get s).word = canonicalKey (ct.get t).word ∧ s.toNat < t.toNat) := by
  simp [canonBefore]

theorem canonBefore_total {ct : Table} {s t : Byte} (h : s ≠ t) (hn : ¬ canonBefore ct s t = true) :
    canonBefore ct t s = true := by
  have : s.toNat ≠ t.toNat := fun e => h (BitVec.eq_of_toNat_eq e)
  rw [canonBefore_iff] at hn ⊢; omega

theorem canonBefore_trans {ct : Table} {s t u : Byte} (h1 : canonBefore ct s t = true) (h2 : canonBefore ct t u = true) :
    canonBefore ct s u = true := by
  rw [canonBefore_iff] at *; omega

theorem canonInsert_perm (ct : Table) (s : Byte) (l : List Byte) : (canonInsert ct s l).Perm (s :: l) := by
  induction l with
  | nil => exact .refl _
  | cons t l ih =>
    rw [canonInsert]
    split_ifs
    · exact .refl _
    · exact (ih.cons t).trans (.swap _ _ _)

theorem canonSort_perm (ct : Table) (l : List Byte) : (canonSort ct l).Perm l := by
  induction l with
  | nil => exact .refl _
  | cons s l ih => exact (canonInsert_perm ct s _).trans (ih.cons s)

theorem canonInsert_sorted {ct : Table} {s : Byte} {l : List Byte} (hs : s ∉ l)
    (h : l.Pairwise fun x y => canonBefore ct x y = true) :
    (canonInsert ct s l).Pairwise fun x y => canonBefore ct x y = true := by
  induction l with
  | nil => simp [canonInsert]
  | cons t l ih =>
    rw [List.pairwise_cons] at h
    rw [canonInsert]
    split_ifs with h1
    · rw [List.pairwise_cons, List.pairwise_cons]
      refine ⟨fun x hx => ?_, h⟩
      rcases List.mem_cons.1 hx with rfl | hx
      · exact h1
      · exact canonBefore_trans h1 (h.1 x hx)
    · rw [List.pairwise_cons]
      refine ⟨fun x hx => ?_, ih (by simp at hs; exact hs.2) h.2⟩
      rcases List.mem_cons.1 ((canonInsert_perm ct s l).mem_iff.1 hx) with rfl | hx
      · exact canonBefore_total (fun e => hs (by simp [e])) h1
      · exact h.1 x hx

theorem canonSort_sorted {ct : Table} {l : List Byte} (hl : l.Nodup) :
    (canonSort ct l).Pairwise fun x y => canonBefore ct x y = true := by
  induction l with
  | nil => simp [canonSort]
  | cons s l ih =>
    rw [List.nodup_cons] at hl
    exact canonInsert_sorted (fun h => hl.1 ((canonSort_perm ct l).mem_iff.1 h)) (ih hl.2)

theorem Table.canonical_perm (ct : Table) : ct.canonical.Perm ct.present := canonSort_perm ct _

theorem Table.canonical_sorted (ct : Table) : ct.canonical.Pairwise fun x y => canonBefore ct x y = true :=
  canonSort_sorted ct.present_nodup

theorem Table.mem_canonical {ct : Table} {s : Byte} : s ∈ ct.canonical ↔ (ct.get s).len ≠ 0#8 := by
  rw [ct.canonical_perm.mem_iff, Table.mem_present]

theorem Table.canonical_length (ct : Table) : ct.canonical.length = ct.present.length := ct.canonical_perm.length_eq

theorem Table.present_length_le (ct : Table) : ct.present.length ≤ 256 := by
  have : allSymbols.length = 256 := by simp [allSymbols, Config.nsym]
  rw [← this, ct.present_eq]; exact List.length_filter_le _ _

/-! ### Image bytes -/

theorem record_eq (ct : Table) (s : Byte) : record ct s = recordBytes (s, (ct.get s).word) := by
  simp only [record, recordBytes, CTEntry.word_length, BitVec.ofNat_toNat, BitVec.setWidth_eq]
  rfl

theorem image_eq (ct : Table) : ct.image = imageBytes ct.records := by
  have h : record ct = fun s => recordBytes (s, (ct.get s).word) := funext (record_eq ct)
  simp only [Table.image, imageBytes, countBytes, Table.records, List.length_map, List.flatMap_map, h]
  rfl

@[simp] theorem recordBytes_length (r : Byte × List Bool) : (recordBytes r).length = 2 + r.2.length := by
  simp [recordBytes]; omega

theorem imageBytes_length (recs : List (Byte × List Bool)) :
    (imageBytes recs).length = 2 + (recs.map fun r => 2 + r.2.length).sum := by
  simp [imageBytes, countBytes, List.length_flatMap]; omega

theorem imageSize_eq (ct : Table) : ct.imageSize = (imageBytes ct.records).length := by
  rw [imageBytes_length, Table.imageSize, Table.records, List.map_map]
  simp [Function.comp_def]

theorem imageSize_present (ct : Table) : ct.imageSize = 2 + (ct.present.map fun s => 2 + (ct.get s).len.toNat).sum := by
  rw [Table.imageSize, (ct.canonical_perm.map _).sum_eq]

theorem records_good (ct : Table) : recordsGood ct.records := by
  constructor
  · rw [Table.records, List.map_map]
    have : ((Prod.fst : Byte × List Bool → Byte) ∘ fun s => (s, (ct.get s).word)) = id := rfl
    rw [this, List.map_id]
    exact ct.canonical_perm.nodup_iff.2 ct.present_nodup
  · intro r hr
    simp only [Table.records, List.mem_map] at hr
    obtain ⟨s, hs, rfl⟩ := hr
    have := byte_ne_zero.1 (Table.mem_canonical.1 hs)
    have := byte_lt (ct.get s).len
    simp; omega

end Sys2Proof.Machine
end

