-- ==== Sys2Proof/Laws/TableLoad.lean ====
section
/-! SUPPORT. TABLE_STORE and the image reader of TABLE_LOAD (41_table_serializer.md R63, R64): everything each can do,
and what the reader makes of good records. -/

namespace Sys2Proof.Machine

/-! ### TABLE_STORE -/

/-- Everything TABLE_STORE can do. -/
theorem exec_tableStore (s : State) :
    (s.dst.toNat + s.dstCap.toNat ≤ 65536 ∧ (imageBytes s.ct.records).length ≤ s.dstCap.toNat ∧
      ∃ t, exec .tableStore s = .next t ∧
        t.isRecordWith (s.okRecord (imageBytes s.ct.records).length 0 0 s.ct.records.length) s
          s.dst.toNat (imageBytes s.ct.records)) ∨
    (65536 < s.dst.toNat + s.dstCap.toNat ∧ exec .tableStore s = .next (s.errRecord 0x02 1 0)) ∨
    (s.dst.toNat + s.dstCap.toNat ≤ 65536 ∧ s.dstCap.toNat < (imageBytes s.ct.records).length ∧
      exec .tableStore s = .next (s.errRecord 0x05 (imageBytes s.ct.records).length 0)) := by
  have he : exec .tableStore s = .next (complete noErrorEffect (tableStoreBody (startStep s))) := rfl
  rw [he]
  simp only [tableStoreBody, startStep_st, startState_windows, startState_fields, imageSize_eq, image_eq]
  have F := dstFits_iff s
  cases h : s.dstFits
  · refine .inr (.inl ⟨?_, ?_⟩)
    · have : ¬ s.dst.toNat + s.dstCap.toNat ≤ 65536 := fun g => by rw [F.2 g] at h; cases h
      omega
    · rw [← completeError_start s .range 2 rfl]; rfl
  · have h1 := F.1 h
    simp only [Bool.not_true, Bool.false_eq_true, if_false]
    split_ifs with h2
    · refine .inr (.inr ⟨h1, h2, ?_⟩)
      rw [← completeError_start s .dstOverflow 5 rfl]; rfl
    · refine .inl ⟨h1, by omega, _, rfl, ?_⟩
      rw [Run.memWriteAll_eq]
      refine isRecordWith_of_writeBytes ?_ rfl rfl
      simp only [Table.records, List.length_map]
      rfl

/-! ### The image reader -/

/-- The image has the bytes `bs` from offset `o` on. -/
def State.imageHas (s : State) (o : Nat) (bs : List Byte) : Prop :=
  ∀ i (h : i < bs.length), s.imageByte (o + i) = some bs[i]

theorem State.imageHas_append {s : State} {o : Nat} {u w : List Byte} :
    s.imageHas o (u ++ w) ↔ s.imageHas o u ∧ s.imageHas (o + u.length) w := by
  constructor
  · intro h
    refine ⟨fun i hi => ?_, fun i hi => ?_⟩
    · rw [h i (by simp; omega)]; simp [hi]
    · rw [Nat.add_assoc, h (u.length + i) (by simp; omega)]; simp
  · rintro ⟨h1, h2⟩ i hi
    by_cases g : i < u.length
    · rw [h1 i g]; simp [g]
    · have := h2 (i - u.length) (by simp at hi; omega)
      rw [show o + u.length + (i - u.length) = o + i by omega] at this
      rw [this, List.getElem_append_right (by omega)]

theorem State.imageHas_cons {s : State} {o : Nat} {b : Byte} {bs : List Byte} :
    s.imageHas o (b :: bs) ↔ s.imageByte o = some b ∧ s.imageHas (o + 1) bs := by
  have := State.imageHas_append (s := s) (o := o) (u := [b]) (w := bs)
  rw [List.singleton_append] at this
  rw [this]
  simp [State.imageHas]

/-- The image bytes inside the source window. -/
theorem State.imageHas_of_bytes {s : State} {bs : List Byte} (hl : bs.length ≤ s.srcLen.toNat)
    (h : ∀ i (h : i < bs.length), s.byteAt (s.src.toNat + i) = bs[i]) : s.imageHas 0 bs := fun i hi => by
  rw [Nat.zero_add, State.imageByte, if_pos (by omega), h i hi]

/-- The character of one codeword position. -/
def charOf (b : Bool) : Byte := if b then 0x31#8 else 0x30#8

theorem loadBits_ok {s : State} {w : List Bool} {o : Nat} (h : s.imageHas o (w.map charOf)) :
    loadBits s w.length o = .ok w := by
  induction w generalizing o with
  | nil => rfl
  | cons b w ih =>
    rw [List.map_cons, State.imageHas_cons] at h
    rw [List.length_cons, loadBits, h.1]
    cases b <;> simp [charOf, ih h.2, Except.map]

/-- The first missing or wrong character is where `loadBits` stops. -/
theorem loadBits_error {s : State} {n j o : Nat} (hj : j < n)
    (hgood : ∀ i < j, s.imageByte (o + i) = some 0x30#8 ∨ s.imageByte (o + i) = some 0x31#8)
    (hbad : s.imageByte (o + j) ≠ some 0x30#8 ∧ s.imageByte (o + j) ≠ some 0x31#8) :
    loadBits s n o = .error (o + j) := by
  induction n generalizing j o with
  | zero => omega
  | succ n ih =>
    rw [loadBits]
    cases j with
    | zero =>
      rw [Nat.add_zero] at hbad ⊢
      cases hb : s.imageByte o with
      | none => rfl
      | some c =>
        rw [hb] at hbad
        simp only [ne_eq, Option.some.injEq] at hbad
        simp [hbad.1, hbad.2]
    | succ j =>
      have h1 := ih (j := j) (o := o + 1) (by omega)
        (fun i hi => by have := hgood (i + 1) (by omega); rwa [show o + (i + 1) = o + 1 + i by omega] at this)
        (by rwa [show o + (j + 1) = o + 1 + j by omega] at hbad)
      rw [show o + 1 + j = o + (j + 1) by omega] at h1
      rcases hgood 0 (by omega) with g | g <;> rw [Nat.add_zero] at g <;> simp [g, h1, Except.map]

/-- The entry of a record. -/
def entryOf (w : List Bool) : CTEntry := CTEntry.make (BitVec.ofNat 8 w.length) (bitAt w)

/-- The table after some records. -/
def putRecords (ct : Table) (recs : List (Byte × List Bool)) : Table :=
  recs.foldl (fun ct r => ct.put r.1 (entryOf r.2)) ct

theorem entryOf_len {w : List Bool} (h : 1 ≤ w.length ∧ w.length ≤ 255) :
    (entryOf w).len ≠ 0#8 ∧ (entryOf w).len.toNat = w.length := by
  have e : (entryOf w).len.toNat = w.length := by simp [entryOf]; omega
  exact ⟨byte_ne_zero.2 (by omega), e⟩

theorem entryOf_word {w : List Bool} (h : 1 ≤ w.length ∧ w.length ≤ 255) : (entryOf w).word = w := by
  have e := (entryOf_len h).2
  apply List.ext_getElem (by simp [e])
  intro i h1 h2
  rw [CTEntry.word_getElem, entryOf, CTEntry.make_pos, bitAt_of_lt _ h2]
  have h3 : i < (BitVec.ofNat 8 w.length).toNat := by simp; omega
  simp only [h3, decide_true, Bool.true_and]

theorem loadRecord_ok {s : State} {o : Nat} {ct : Table} {r : Byte × List Bool}
    (hr : 1 ≤ r.2.length ∧ r.2.length ≤ 255) (hn : (ct.get r.1).len = 0#8) (h : s.imageHas o (recordBytes r)) :
    loadRecord s o ct = .ok (o + (recordBytes r).length, ct.put r.1 (entryOf r.2)) := by
  rw [recordBytes, State.imageHas_cons, State.imageHas_cons] at h
  obtain ⟨h1, h2, h3⟩ := h
  have hl := entryOf_len hr
  have e : (BitVec.ofNat 8 r.2.length).toNat = r.2.length := hl.2
  have e0 : BitVec.ofNat 8 r.2.length ≠ 0#8 := hl.1
  have hb := loadBits_ok (s := s) (w := r.2) (o := o + 2) h3
  rw [loadRecord, h1]
  simp only [hn, ne_eq, not_true_eq_false, if_false, h2, e0, e, hb]
  rw [recordBytes_length, Nat.add_assoc]; rfl

theorem get_putRecords_of_not_mem {ct : Table} {recs : List (Byte × List Bool)} {x : Byte}
    (h : x ∉ recs.map Prod.fst) : (putRecords ct recs).get x = ct.get x := by
  induction recs generalizing ct with
  | nil => rfl
  | cons r recs ih =>
    simp only [List.map_cons, List.mem_cons, not_or] at h
    rw [putRecords, List.foldl_cons]
    exact (ih h.2).trans (by rw [Table.get_put, if_neg h.1])

theorem get_putRecords {ct : Table} {recs : List (Byte × List Bool)} (hd : (recs.map Prod.fst).Nodup)
    {r : Byte × List Bool} (hr : r ∈ recs) : (putRecords ct recs).get r.1 = entryOf r.2 := by
  induction recs generalizing ct with
  | nil => simp at hr
  | cons q recs ih =>
    simp only [List.map_cons, List.nodup_cons] at hd
    rw [putRecords, List.foldl_cons]
    rcases List.mem_cons.1 hr with rfl | hr
    · exact (get_putRecords_of_not_mem hd.1).trans (by rw [Table.get_put, if_pos rfl])
    · exact ih hd.2 hr

/-- Good records are read one after the other, then the rest of the count. -/
theorem loadRecords_ok {s : State} (recs : List (Byte × List Bool)) (m o : Nat) (ct : Table) (hg : recordsGood recs)
    (hct : ∀ r ∈ recs, (ct.get r.1).len = 0#8) (h : s.imageHas o (recs.flatMap recordBytes)) :
    loadRecords s (recs.length + m) o ct =
      loadRecords s m (o + (recs.flatMap recordBytes).length) (putRecords ct recs) := by
  induction recs generalizing o ct with
  | nil => simp [putRecords]
  | cons r recs ih =>
    rw [List.flatMap_cons, State.imageHas_append] at h
    obtain ⟨hd, hl⟩ := hg
    simp only [List.map_cons, List.nodup_cons] at hd
    have e : (r :: recs).length + m = (recs.length + m) + 1 := by simp only [List.length_cons]; omega
    rw [e, loadRecords, loadRecord_ok (hl r (by simp)) (hct r (by simp)) h.1]
    simp only
    rw [ih _ _ ⟨hd.2, fun q hq => hl q (by simp [hq])⟩ ?_ h.2]
    · rw [List.flatMap_cons, List.length_append, Nat.add_assoc]; rfl
    · intro q hq
      rw [Table.get_put, if_neg, hct q (by simp [hq])]
      rintro e
      exact hd.1 (e ▸ List.mem_map_of_mem hq)

/-- A count and good records at the head of the image. -/
theorem loadImage_records {s : State} {n : Nat} {recs : List (Byte × List Bool)} (hn : n ≤ 256) (hl : recs.length ≤ n)
    (hg : recordsGood recs) (h : s.imageHas 0 (countBytes n ++ recs.flatMap recordBytes)) :
    loadImage s =
      match loadRecords s (n - recs.length) (countBytes n ++ recs.flatMap recordBytes).length
          (putRecords Table.empty recs) with
      | .error e => .error e
      | .ok (o, ct) => if o ≠ s.srcLen.toNat then .error o else .ok (n, ct) := by
  rw [State.imageHas_append] at h
  obtain ⟨h1, h2⟩ := h
  simp only [countBytes, State.imageHas_cons] at h1
  obtain ⟨b0, b1, -⟩ := h1
  have e : (BitVec.ofNat 8 (n % 256)).toNat + 256 * (BitVec.ofNat 8 (n / 256)).toNat = n := by
    simp only [BitVec.toNat_ofNat]; omega
  rw [loadImage, b0]
  simp only [Nat.zero_add] at b1
  simp only [b1, e, if_neg (show ¬ n > 256 by omega)]
  have := loadRecords_ok recs (n - recs.length) 2 Table.empty hg (fun r _ => by rw [Table.get_empty]; rfl) (by
    simpa [countBytes] using h2)
  rw [show recs.length + (n - recs.length) = n by omega] at this
  rw [this]
  simp only [countBytes, List.length_append, List.length_cons, List.length_nil, Nat.zero_add, Nat.reduceAdd]
  all_goals
    cases loadRecords s (n - recs.length) (2 + (recs.flatMap recordBytes).length) (putRecords Table.empty recs) <;> rfl

/-! ### TABLE_LOAD -/

/-- The state whose image TABLE_LOAD reads. -/
def loadState (s : State) : State := (startState s).clearTable.setTreeValid false

@[simp] theorem loadState_imageByte (s : State) (o : Nat) : (loadState s).imageByte o = s.imageByte o := rfl

theorem loadBits_congr {s t : State} (h : ∀ o, s.imageByte o = t.imageByte o) (n o : Nat) :
    loadBits s n o = loadBits t n o := by
  induction n generalizing o with
  | zero => rfl
  | succ n ih => simp only [loadBits, h, ih]

theorem loadRecord_congr {s t : State} (h : ∀ o, s.imageByte o = t.imageByte o) (o : Nat) (ct : Table) :
    loadRecord s o ct = loadRecord t o ct := by
  simp only [loadRecord, h, loadBits_congr h]

theorem loadRecords_congr {s t : State} (h : ∀ o, s.imageByte o = t.imageByte o) (n o : Nat) (ct : Table) :
    loadRecords s n o ct = loadRecords t n o ct := by
  induction n generalizing o ct with
  | zero => rfl
  | succ n ih => simp only [loadRecords, loadRecord_congr h, ih]

theorem loadImage_congr {s t : State} (h : ∀ o, s.imageByte o = t.imageByte o) (hl : s.srcLen = t.srcLen) :
    loadImage s = loadImage t := by
  simp only [loadImage, h, loadRecords_congr h, hl]

/-- Everything TABLE_LOAD can do, in terms of what its image reads as. -/
theorem exec_tableLoad (s : State) : exec .tableLoad s =
    if s.src.toNat + s.srcLen.toNat ≤ 65536 then
      match loadImage s with
      | .error o => .next ({ s.withoutTree with ct := Table.empty }.errRecord 0x0D o 0)
      | .ok (n, ct) => .next ({ s.withoutTree with ct := ct }.okRecord 0 0 0 n)
    else .next (s.errRecord 0x02 0 0) := by
  have he : exec .tableLoad s = .next (complete tableLoadErrorEffect (tableLoadBody (startStep s))) := rfl
  rw [he, tableLoadBody]
  have F := srcFits_iff s
  split_ifs with h1 h2 h2
  · simp only [startStep_st, startState_windows, F.2 h2] at h1; cases h1
  · rw [← completeError_start s .range 2 rfl]; rfl
  · have hi : loadImage (loadState s) = loadImage s := loadImage_congr (fun _ => rfl) rfl
    change Host.Outcome.next (complete tableLoadErrorEffect (match loadImage (loadState s) with
      | .error o => _
      | .ok (n, ct) => _)) = _
    rw [hi]
    cases loadImage s with
    | error o => rfl
    | ok r => rfl
  · simp only [startStep_st, startState_windows] at h1
    exact absurd (F.1 (by simpa using h1)) h2

/-- A well-formed image is read as its records. -/
theorem loadImage_good {s : State} {recs : List (Byte × List Bool)} (hg : recordsGood recs)
    (h : s.sourceHolds (imageBytes recs)) :
    loadImage s = .ok (recs.length, putRecords Table.empty recs) ∧ recs.length ≤ 256 := by
  obtain ⟨h1, h2, h3⟩ := h
  have hlen : recs.length ≤ 256 := by
    have hs : ∀ x ∈ recs.map Prod.fst, x ∈ allSymbols := fun x _ => mem_allSymbols x
    have := (List.Nodup.subperm hg.1 hs).length_le
    simpa [allSymbols, Config.nsym] using this
  refine ⟨?_, hlen⟩
  rw [loadImage_records hlen le_rfl hg (State.imageHas_of_bytes (bs := imageBytes recs) (by omega) h3)]
  simp only [Nat.sub_self, loadRecords]
  rw [if_neg]; rw [h2]; simp [imageBytes]

/-! ### Error offsets stay inside the image -/

theorem loadBits_le {s : State} {n o e : Nat} (ho : o ≤ s.srcLen.toNat) (h : loadBits s n o = .error e) :
    e ≤ s.srcLen.toNat := by
  induction n generalizing o with
  | zero => cases h
  | succ n ih =>
    rw [loadBits, State.imageByte] at h
    by_cases g : o < s.srcLen.toNat
    · simp only [g, if_true] at h
      split_ifs at h
      all_goals first
       | (cases h; exact ho)
       | (cases hb : loadBits s n (o+1) with
          | ok w => rw [hb] at h; cases h
          | error e' => rw [hb] at h; cases h; exact ih g hb)
    · simp only [g, if_false] at h; cases h; exact ho

theorem loadRecord_le {s : State} {o e : Nat} {ct : Table} (ho : o ≤ s.srcLen.toNat) (h : loadRecord s o ct = .error e) :
    e ≤ s.srcLen.toNat := by
  rw [loadRecord] at h
  by_cases g : o < s.srcLen.toNat
  · simp only [State.imageByte, g, if_true] at h
    by_cases h1 : (ct.get (s.byteAt (s.src.toNat + o))).len ≠ 0#8
    · rw [if_pos h1] at h; cases h; exact ho
    · rw [if_neg h1] at h
      by_cases g2 : o + 1 < s.srcLen.toNat
      · simp only [g2, if_true] at h
        split_ifs at h with h2
        · cases h; omega
        · generalize BitVec.toNat (s.byteAt (s.src.toNat + (o+1))) = n at h
          cases hb : loadBits s n (o+2) with
          | ok w => rw [hb] at h; cases h
          | error e' => rw [hb] at h; cases h; exact loadBits_le (by omega) hb
      · simp only [g2, if_false] at h; cases h; omega
  · simp only [State.imageByte, g, if_false] at h; cases h; exact ho

theorem loadBits_ok_le {s : State} {n o : Nat} {w : List Bool} (ho : o ≤ s.srcLen.toNat) (h : loadBits s n o = .ok w) :
    o + n ≤ s.srcLen.toNat := by
  induction n generalizing o w with
  | zero => exact ho
  | succ n ih =>
    rw [loadBits, State.imageByte] at h
    by_cases g : o < s.srcLen.toNat
    · simp only [g, if_true] at h
      split_ifs at h
      all_goals
        cases hb : loadBits s n (o+1) with
        | ok w => have := ih g hb; omega
        | error e' => rw [hb] at h; cases h
    · simp only [g, if_false] at h; cases h

theorem loadRecord_ok_le {s : State} {o : Nat} {ct : Table} {r : Nat × Table} (h : loadRecord s o ct = .ok r) :
    r.1 ≤ s.srcLen.toNat := by
  rw [loadRecord] at h
  by_cases g : o < s.srcLen.toNat
  · simp only [State.imageByte, g, if_true] at h
    by_cases h1 : (ct.get (s.byteAt (s.src.toNat + o))).len ≠ 0#8
    · rw [if_pos h1] at h; cases h
    · rw [if_neg h1] at h
      by_cases g2 : o + 1 < s.srcLen.toNat
      · simp only [g2, if_true] at h
        split_ifs at h with h2
        · generalize hm : BitVec.toNat (s.byteAt (s.src.toNat + (o+1))) = n at h
          cases hb : loadBits s n (o+2) with
          | ok w => rw [hb] at h; cases h; exact loadBits_ok_le (by omega) hb
          | error e' => rw [hb] at h; cases h
      · simp only [g2, if_false] at h; cases h
  · simp only [State.imageByte, g, if_false] at h; cases h

theorem loadRecords_le {s : State} {n o e : Nat} {ct : Table} (ho : o ≤ s.srcLen.toNat) (h : loadRecords s n o ct = .error e) :
    e ≤ s.srcLen.toNat := by
  induction n generalizing o ct with
  | zero => cases h
  | succ n ih =>
    rw [loadRecords] at h
    cases hb : loadRecord s o ct with
    | error e' => rw [hb] at h; cases h; exact loadRecord_le ho hb
    | ok r => rw [hb] at h; exact ih (loadRecord_ok_le hb) h

theorem loadRecords_ok_le {s : State} {n o : Nat} {ct : Table} {r : Nat × Table} (ho : o ≤ s.srcLen.toNat) (h : loadRecords s n o ct = .ok r) :
    r.1 ≤ s.srcLen.toNat := by
  induction n generalizing o ct with
  | zero => cases h; exact ho
  | succ n ih =>
    rw [loadRecords] at h
    cases hb : loadRecord s o ct with
    | error e' => rw [hb] at h; cases h
    | ok r => rw [hb] at h; exact ih (loadRecord_ok_le hb) h

theorem loadImage_le {s : State} {e : Nat} (h : loadImage s = .error e) :
    e ≤ s.srcLen.toNat := by
  rw [loadImage] at h
  by_cases g : 0 < s.srcLen.toNat
  · by_cases g1 : 1 < s.srcLen.toNat
    · simp only [State.imageByte, g, g1, if_true] at h
      split_ifs at h with h1
      · cases h; omega
      · generalize BitVec.toNat _ + 256 * BitVec.toNat _ = n at h
        cases hb : loadRecords s n 2 Table.empty with
        | error e' => rw [hb] at h; cases h; exact loadRecords_le (by omega) hb
        | ok r =>
          have := loadRecords_ok_le (by omega) hb
          rw [hb] at h
          simp only at h
          split_ifs at h
          cases h; exact this
    · simp only [State.imageByte, g, g1, if_true, if_false] at h; cases h; omega
  · simp only [State.imageByte, g, if_false] at h; cases h; omega

end Sys2Proof.Machine
end

