-- ==== Sys2Proof/Laws/Tree.lean ====
section
/-! SUPPORT. What TREE_BUILD makes (43_decode_tree_walker.md R74): the invariant of an arena under construction, one
lemma for each of `grow`, `insertPath`, `insertSymbol`, `insertSymbols` and `buildTree`, and what following a path of
bits in a finished tree means. -/

namespace Sys2Proof.Machine

/-- Node `n` of a builder. -/
def Builder.nd (d : Draw) (t : Builder) (n : Nat) : Node := Arena.node d t.arena n

/-- The nodes below `count` form a tree: `path n` is the bit string from the root to node `n`. Exactly the nodes that
hold a symbol are the ends of the entries `S`; every path is a prefix of an entry or satisfies `extra`. -/
structure TreeInv (d : Draw) (t : Builder) (S : List (Byte × List Bool)) (extra : List Bool → Prop)
    (path : Nat → List Bool) : Prop where
  pos : 0 < t.count
  le : t.count ≤ 512
  root : path 0 = []
  inj : ∀ m n, m < t.count → n < t.count → path m = path n → m = n
  child : ∀ n b, n < t.count → (t.nd d n).child b ≠ 0 →
    ((t.nd d n).child b).val < t.count ∧ path ((t.nd d n).child b).val = path n ++ [b]
  parent : ∀ c, c < t.count → c ≠ 0 → ∃ n b, n < t.count ∧ ((t.nd d n).child b).val = c
  sym : ∀ n, n < t.count → (t.nd d n).hasSym = true → ((t.nd d n).sym, path n) ∈ S
  ends : ∀ e ∈ S, ∃ n, n < t.count ∧ path n = e.2 ∧ (t.nd d n).hasSym = true ∧ (t.nd d n).sym = e.1
  leaf : ∀ n b, n < t.count → (t.nd d n).hasSym = true → (t.nd d n).child b = 0
  below : ∀ n, n < t.count → path n = [] ∨ (∃ e ∈ S, path n <+: e.2) ∨ extra (path n)

namespace TreeInv

variable {d : Draw} {t : Builder} {S : List (Byte × List Bool)} {extra : List Bool → Prop} {path : Nat → List Bool}

theorem weaken (h : TreeInv d t S extra path) {extra' : List Bool → Prop} (hx : ∀ w, extra w → extra' w) :
    TreeInv d t S extra' path :=
  { h with below := fun n hn => (h.below n hn).imp_right (Or.imp_right (hx _)) }

theorem path_ne_nil (h : TreeInv d t S extra path) {c : Nat} (hc : c < t.count) (h0 : c ≠ 0) : path c ≠ [] :=
  fun e => h0 (h.inj c 0 hc h.pos (e.trans h.root.symm))

/-- A node whose path ends in `b` is the child on `b` of the node one bit above it. -/
theorem child_of_path (h : TreeInv d t S extra path) {n c : Nat} {b : Bool} (hn : n < t.count) (hc : c < t.count)
    (hp : path c = path n ++ [b]) : ((t.nd d n).child b).val = c ∧ (t.nd d n).child b ≠ 0 := by
  have h0 : c ≠ 0 := by rintro rfl; rw [h.root] at hp; simp at hp
  obtain ⟨m, b', hm, hmc⟩ := h.parent c hc h0
  have hne : (t.nd d m).child b' ≠ 0 := by intro e; rw [e] at hmc; exact h0 hmc.symm
  have h2 := (h.child m b' hm hne).2
  rw [hmc, hp] at h2
  obtain ⟨h3, h4⟩ := List.append_inj' h2 rfl
  simp only [List.cons.injEq, and_true] at h4
  subst h4
  have := h.inj n m hn hm h3
  subst this
  exact ⟨hmc, hne⟩

/-- Paths are closed under prefixes. -/
theorem exists_prefix (h : TreeInv d t S extra path) {c : Nat} (hc : c < t.count) {v : List Bool}
    (hv : v <+: path c) : ∃ n, n < t.count ∧ path n = v := by
  generalize hl : (path c).length = l
  induction l generalizing c with
  | zero =>
    have h1 : path c = [] := List.length_eq_zero_iff.1 hl
    rw [h1, List.prefix_nil] at hv
    exact ⟨c, hc, h1.trans hv.symm⟩
  | succ l ih =>
    by_cases he : v = path c
    · exact ⟨c, hc, he.symm⟩
    · have h0 : c ≠ 0 := by rintro rfl; rw [h.root] at hl; simp at hl
      obtain ⟨m, b, hm, hmc⟩ := h.parent c hc h0
      have hne : (t.nd d m).child b ≠ 0 := by intro e; rw [e] at hmc; exact h0 hmc.symm
      have h2 := (h.child m b hm hne).2
      rw [hmc] at h2
      refine ih hm ?_ ?_
      · rw [h2] at hv he
        exact (List.prefix_concat_iff.1 hv).resolve_left he
      · rw [h2] at hl; simpa using hl

/-- Which paths there are: the prefixes of the entries, the empty one, and the extra ones. -/
theorem prefix_has_node (h : TreeInv d t S extra path) {e : Byte × List Bool} (he : e ∈ S) {v : List Bool}
    (hv : v <+: e.2) : ∃ n, n < t.count ∧ path n = v := by
  obtain ⟨m, hm, hp, -⟩ := h.ends e he
  exact h.exists_prefix hm (hp ▸ hv)

/-- An entry's codeword is no proper prefix of a path, and a path to a symbol is an entry's. -/
theorem entry_not_below (h : TreeInv d t S extra path) {e : Byte × List Bool} (he : e ∈ S) {c : Nat}
    (hc : c < t.count) (hp : e.2 <+: path c) : path c = e.2 := by
  obtain ⟨m, hm, hpm, hsym, -⟩ := h.ends e he
  by_contra hne
  obtain ⟨u, hu⟩ := hp
  cases u with
  | nil => exact hne (by simpa using hu.symm)
  | cons b u =>
    have hpre : e.2 ++ [b] <+: path c := ⟨u, by simpa using hu⟩
    obtain ⟨n, hn, hpn⟩ := h.exists_prefix hc hpre
    have := (h.child_of_path hm hn (by rw [hpn, hpm])).2
    exact this (h.leaf m b hm hsym)

end TreeInv

@[simp] theorem Node.fresh_child (b : Bool) : Node.fresh.child b = 0 := by cases b <;> rfl

theorem Node.setChild_child (n : Node) (b : Bool) (c : Fin 512) (b' : Bool) :
    (n.setChild b c).child b' = if b' = b then c else n.child b' := by
  cases b <;> cases b' <;> rfl

@[simp] theorem Node.setChild_sym (n : Node) (b : Bool) (c : Fin 512) :
    (n.setChild b c).hasSym = n.hasSym ∧ (n.setChild b c).sym = n.sym := by cases b <;> exact ⟨rfl, rfl⟩

/-- The root alone is a tree with no entry. -/
theorem TreeInv.of_root (d : Draw) (ar : Arena) :
    TreeInv d (Builder.root ar) [] (fun _ => False) (fun _ => []) := by
  have h0 : (Builder.root ar).nd d 0 = Node.fresh := by
    simp [Builder.nd, Builder.root, Arena.node_writeCell]
  have hc : ∀ n, n < (Builder.root ar).count → n = 0 := fun n hn => by
    have : n < 1 := hn
    omega
  refine ⟨Nat.one_pos, show 1 ≤ 512 by omega, rfl, fun m n hm hn _ => by rw [hc m hm, hc n hn], ?_, ?_, ?_, by simp, ?_,
    fun n _ => .inl rfl⟩
  · intro n b hn hne; rw [hc n hn, h0] at hne; simp at hne
  · intro c hc' h; exact absurd (hc c hc') h
  · intro n hn h; rw [hc n hn, h0] at h; simp [Node.fresh] at h
  · intro n b hn _; rw [hc n hn, h0]; simp

/-- What the nodes are after `grow`. -/
theorem Builder.grow_nd (d : Draw) (t : Builder) (cur : Fin 512) (b : Bool) (hcur : cur.val < t.count) (n : Nat) :
    (t.grow d cur b).nd d n =
      if n = cur.val then (t.nd d cur.val).setChild b (Fin.ofNat 512 t.count)
      else if n = t.count then Node.fresh else t.nd d n := by
  have hne : cur.val ≠ t.count := by omega
  simp only [Builder.nd, Builder.grow, Arena.node_writeCell, if_neg hne]

/-- Growing a missing child of `cur` keeps the tree, with one more path. -/
theorem TreeInv.grow {d : Draw} {t : Builder} {S : List (Byte × List Bool)} {extra : List Bool → Prop}
    {path : Nat → List Bool} (h : TreeInv d t S extra path) {cur : Fin 512} {b : Bool} (hcur : cur.val < t.count)
    (hlt : t.count < 512) (hns : (t.nd d cur.val).hasSym = false) (hch : (t.nd d cur.val).child b = 0)
    (hx : extra (path cur.val ++ [b])) :
    TreeInv d (t.grow d cur b) S extra
      (fun n => if n = t.count then path cur.val ++ [b] else path n) := by
  have hcount : (t.grow d cur b).count = t.count + 1 := rfl
  have hval : (Fin.ofNat 512 t.count).val = t.count := by
    rw [Fin.val_ofNat]; exact Nat.mod_eq_of_lt hlt
  have hf0 : Fin.ofNat 512 t.count ≠ 0 := fun e => by
    have h1 := congrArg Fin.val e
    rw [hval] at h1
    exact absurd h1 (by have := h.pos; simp; omega)
  have hnew : ∀ m, m < t.count → path m ≠ path cur.val ++ [b] := fun m hm e =>
    (h.child_of_path hcur hm e).2 hch
  have nd := Builder.grow_nd d t cur b hcur
  have ndold : ∀ n, n < t.count → n ≠ cur.val → (t.grow d cur b).nd d n = t.nd d n := fun n hn hne => by
    rw [nd, if_neg hne, if_neg (by omega)]
  have ndnew : (t.grow d cur b).nd d t.count = Node.fresh := by
    rw [nd, if_neg (by omega), if_pos rfl]
  have ndcur : (t.grow d cur b).nd d cur.val = (t.nd d cur.val).setChild b (Fin.ofNat 512 t.count) := by
    rw [nd, if_pos rfl]
  have symold : ∀ n, n < t.count → ((t.grow d cur b).nd d n).hasSym = (t.nd d n).hasSym ∧
      ((t.grow d cur b).nd d n).sym = (t.nd d n).sym := fun n hn => by
    by_cases hne : n = cur.val
    · subst hne; rw [ndcur]; simp
    · rw [ndold n hn hne]; exact ⟨rfl, rfl⟩
  refine ⟨by omega, by omega, ?_, ?_, ?_, ?_, ?_, ?_, ?_, ?_⟩
  · rw [if_neg (by have := h.pos; omega)]; exact h.root
  · intro m n hm hn he
    rw [hcount] at hm hn
    by_cases h1 : m = t.count <;> by_cases h2 : n = t.count
    · omega
    · simp only [h1, h2, if_true, if_false] at he
      exact absurd he.symm (hnew n (by omega))
    · simp only [h1, h2, if_true, if_false] at he
      exact absurd he (hnew m (by omega))
    · simp only [h1, h2, if_false] at he
      exact h.inj m n (by omega) (by omega) he
  · intro n b' hn hne
    rw [hcount] at hn ⊢
    by_cases h1 : n = t.count
    · subst h1; rw [ndnew] at hne; simp at hne
    · have hn' : n < t.count := by omega
      by_cases h2 : n = cur.val
      · subst h2
        rw [ndcur, Node.setChild_child] at hne ⊢
        by_cases h3 : b' = b
        · subst h3
          simp only [if_true, hval, if_neg h1]
          exact ⟨by omega, trivial⟩
        · simp only [if_neg h3] at hne ⊢
          obtain ⟨h4, h5⟩ := h.child _ b' hn' hne
          rw [if_neg (by omega), if_neg h1]
          exact ⟨by omega, h5⟩
      · rw [ndold n hn' h2] at hne ⊢
        obtain ⟨h4, h5⟩ := h.child n b' hn' hne
        rw [if_neg (by omega), if_neg h1]
        exact ⟨by omega, h5⟩
  · intro c hc h0
    rw [hcount] at hc
    by_cases h1 : c = t.count
    · refine ⟨cur.val, b, by omega, ?_⟩
      rw [ndcur, Node.setChild_child, if_pos rfl, hval, h1]
    · obtain ⟨n, b', hn, hnc⟩ := h.parent c (by omega) h0
      refine ⟨n, b', by omega, ?_⟩
      by_cases h2 : n = cur.val
      · subst h2
        rw [ndcur, Node.setChild_child]
        have h3 : b' ≠ b := by
          rintro rfl
          rw [hch] at hnc
          exact h0 hnc.symm
        rw [if_neg h3]; exact hnc
      · rw [ndold n hn h2]; exact hnc
  · intro n hn hs
    rw [hcount] at hn
    by_cases h1 : n = t.count
    · subst h1; rw [ndnew] at hs; simp [Node.fresh] at hs
    · have hn' : n < t.count := by omega
      rw [(symold n hn').1] at hs
      rw [(symold n hn').2, if_neg h1]
      exact h.sym n hn' hs
  · intro e he
    obtain ⟨n, hn, hp, hs, hy⟩ := h.ends e he
    refine ⟨n, by omega, ?_, by rw [(symold n hn).1]; exact hs, by rw [(symold n hn).2]; exact hy⟩
    rw [if_neg (by omega)]; exact hp
  · intro n b' hn hs
    rw [hcount] at hn
    by_cases h1 : n = t.count
    · subst h1; rw [ndnew]; simp
    · have hn' : n < t.count := by omega
      rw [(symold n hn').1] at hs
      by_cases h2 : n = cur.val
      · subst h2; rw [hns] at hs; simp at hs
      · rw [ndold n hn' h2]; exact h.leaf n b' hn' hs
  · intro n hn
    rw [hcount] at hn
    by_cases h1 : n = t.count
    · simp only [h1, if_true]; exact .inr (.inr hx)
    · simp only [h1, if_false]; exact h.below n (by omega)

/-- What `insertPath` does from node `cur` on the rest `w` of a codeword `full`: it ends at the node of `full`; or it
met a symbol on the way, a shorter codeword; or the arena was exhausted at a prefix that had no node. -/
theorem insertPath_spec {d : Draw} {S : List (Byte × List Bool)} (full w : List Bool) (t : Builder) (cur : Fin 512)
    (path : Nat → List Bool) (h : TreeInv d t S (· <+: full) path) (hcur : cur.val < t.count)
    (hp : path cur.val ++ w = full) :
    match insertPath d w t cur with
    | .ok (t', c) => ∃ path', TreeInv d t' S (· <+: full) path' ∧ c.val < t'.count ∧ path' c.val = full ∧
        ∀ e ∈ S, e.2 <+: full → (path cur.val).length ≤ e.2.length → e.2 = full
    | .error .notPrefixFree => ∃ e ∈ S, e.2 <+: full ∧ e.2 ≠ full
    | .error code => code = .treeOverflow ∧ ∃ t' path', TreeInv d t' S (· <+: full) path' ∧ t'.count = 512 ∧
        ∃ v, v <+: full ∧ (∀ n, n < t'.count → path' n ≠ v) ∧
        ∀ e ∈ S, e.2 <+: full → (path cur.val).length ≤ e.2.length → False := by
  induction w generalizing t cur path with
  | nil =>
    simp only [List.append_nil] at hp
    simp only [insertPath]
    refine ⟨path, h, hcur, hp, fun e _ he hl => ?_⟩
    rw [hp] at hl
    exact he.eq_of_length_le hl
  | cons b w ih =>
    rw [insertPath]
    by_cases hs : (Arena.node d t.arena cur.val).hasSym = true
    · simp only [hs, if_true]
      have := h.sym cur.val hcur hs
      refine ⟨_, this, ⟨b :: w, hp⟩, ?_⟩
      intro e
      have e' : path cur.val = full := e
      rw [← hp] at e'
      simp at e'
    · have hns : (t.nd d cur.val).hasSym = false := by simpa [Builder.nd] using hs
      simp only [if_neg hs]
      have hpre : path cur.val ++ [b] <+: full := ⟨w, by simpa using hp⟩
      -- an entry that is a prefix of `full` and reaches `cur` goes past `cur`
      have past : ∀ e ∈ S, e.2 <+: full → (path cur.val).length ≤ e.2.length →
          (path cur.val ++ [b]).length ≤ e.2.length := by
        intro e he hef hl
        by_contra hlt
        have hlen : e.2.length = (path cur.val).length := by
          simp only [List.length_append, List.length_cons, List.length_nil] at hlt; omega
        have heq : e.2 = path cur.val :=
          (List.prefix_of_prefix_length_le hef ⟨b :: w, hp⟩ hlen.le).eq_of_length hlen
        obtain ⟨m, hm, hpm, hsm, -⟩ := h.ends e he
        have := h.inj m cur.val hm hcur (hpm.trans heq)
        subst this
        rw [hns] at hsm; simp at hsm
      by_cases hc : (Arena.node d t.arena cur.val).child b = 0
      · simp only [if_pos hc]
        by_cases hcount : t.count = Config.nodes
        · simp only [if_pos hcount]
          refine ⟨trivial, t, path, h, hcount, path cur.val ++ [b], hpre, ?_, ?_⟩
          · intro n hn e
            exact (h.child_of_path hcur hn e).2 hc
          · intro e he hef hl
            -- then `e` runs through the missing child
            have hl' := past e he hef hl
            have hpe : path cur.val ++ [b] <+: e.2 := List.prefix_of_prefix_length_le hpre hef hl'
            obtain ⟨n, hn, hpn⟩ := h.prefix_has_node he hpe
            exact (h.child_of_path hcur hn hpn).2 hc
        · have hlt : t.count < 512 := by
            have := h.le
            have h2 : Config.nodes = 512 := rfl
            omega
          simp only [if_neg hcount]
          have hg := h.grow hcur hlt hns hc hpre
          have hval : (Fin.ofNat 512 t.count).val = t.count := by
            rw [Fin.val_ofNat]; exact Nat.mod_eq_of_lt hlt
          have := ih (t.grow d cur b) (Fin.ofNat 512 t.count) _ hg
            (by rw [hval]; exact Nat.lt_succ_self _) (by rw [hval]; simpa using hp)
          simp only [hval, if_true] at this
          revert this
          cases hr : insertPath d w (t.grow d cur b) (Fin.ofNat 512 t.count) with
          | ok r =>
            obtain ⟨t', c⟩ := r
            rintro ⟨path', h1, h2, h3, h4⟩
            exact ⟨path', h1, h2, h3, fun e he hef hl => h4 e he hef (past e he hef hl)⟩
          | error code =>
            cases code <;> intro this <;> first
              | exact this
              | (obtain ⟨h0, t', path', h1, h2, v, h3, h4, h5⟩ := this
                 exact ⟨h0, t', path', h1, h2, v, h3, h4, fun e he hef hl => h5 e he hef (past e he hef hl)⟩)
      · simp only [if_neg hc]
        obtain ⟨h1, h2⟩ := h.child cur.val b hcur hc
        have := ih t ((Arena.node d t.arena cur.val).child b) path h h1 (by
          have h3 : path ((Arena.node d t.arena cur.val).child b).val = path cur.val ++ [b] := h2
          rw [h3]; simpa using hp)
        have h3 : path ((Arena.node d t.arena cur.val).child b).val = path cur.val ++ [b] := h2
        rw [h3] at this
        revert this
        cases hr : insertPath d w t ((Arena.node d t.arena cur.val).child b) with
        | ok r =>
          obtain ⟨t', c⟩ := r
          rintro ⟨path', g1, g2, g3, g4⟩
          exact ⟨path', g1, g2, g3, fun e he hef hl => g4 e he hef (past e he hef hl)⟩
        | error code =>
          cases code <;> intro this <;> first
            | exact this
            | (obtain ⟨h0, t', path', g1, g2, v, g3, g4, g5⟩ := this
               exact ⟨h0, t', path', g1, g2, v, g3, g4, fun e he hef hl => g5 e he hef (past e he hef hl)⟩)

/-- Marking the end of a codeword, when its node is bare, adds its entry. -/
theorem TreeInv.mark {d : Draw} {t : Builder} {S : List (Byte × List Bool)} {path : Nat → List Bool} {full : List Bool}
    (h : TreeInv d t S (· <+: full) path) {c : Nat} (hc : c < t.count) (hp : path c = full)
    (hn : (t.nd d c).hasSym = false) (hl : ∀ b, (t.nd d c).child b = 0) (sym : Byte) :
    TreeInv d { t with arena := writeCell t.arena c { t.nd d c with hasSym := true, sym := sym } }
      ((sym, full) :: S) (fun _ => False) path := by
  set t' : Builder := { t with arena := writeCell t.arena c { t.nd d c with hasSym := true, sym := sym } } with ht'
  have ndc : t'.nd d c = { t.nd d c with hasSym := true, sym := sym } := by
    simp [ht', Builder.nd, Arena.node_writeCell]
  have ndo : ∀ n, n ≠ c → t'.nd d n = t.nd d n := fun n hn => by
    simp [ht', Builder.nd, Arena.node_writeCell, hn]
  have chd : ∀ n b, (t'.nd d n).child b = (t.nd d n).child b := fun n b => by
    by_cases hnc : n = c
    · subst hnc; rw [ndc]; cases b <;> rfl
    · rw [ndo n hnc]
  refine ⟨h.pos, h.le, h.root, h.inj, ?_, ?_, ?_, ?_, ?_, ?_⟩
  · intro n b hn hne; rw [chd] at hne ⊢; exact h.child n b hn hne
  · intro k hk h0
    obtain ⟨n, b, h1, h2⟩ := h.parent k hk h0
    exact ⟨n, b, h1, by rw [chd]; exact h2⟩
  · intro n hn' hs
    by_cases hnc : n = c
    · subst hnc; rw [ndc, hp]; simp
    · rw [ndo n hnc] at hs ⊢; exact List.mem_cons_of_mem _ (h.sym n hn' hs)
  · intro e he
    rcases List.mem_cons.1 he with rfl | he
    · exact ⟨c, hc, hp, by rw [ndc], by rw [ndc]⟩
    · obtain ⟨n, h1, h2, h3, h4⟩ := h.ends e he
      have hnc : n ≠ c := by rintro rfl; rw [hn] at h3; simp at h3
      exact ⟨n, h1, h2, by rw [ndo n hnc]; exact h3, by rw [ndo n hnc]; exact h4⟩
  · intro n b hn' hs
    rw [chd]
    by_cases hnc : n = c
    · subst hnc; exact hl b
    · rw [ndo n hnc] at hs; exact h.leaf n b hn' hs
  · intro n hn'
    rcases h.below n hn' with h1 | ⟨e, he, h1⟩ | h1
    · exact .inl h1
    · exact .inr (.inl ⟨e, List.mem_cons_of_mem _ he, h1⟩)
    · exact .inr (.inl ⟨(sym, full), by simp, h1⟩)

/-- Two bit strings conflict: one is a prefix of, or equal to, the other. -/
def wordsConflict (u w : List Bool) : Prop := u <+: w ∨ w <+: u

/-- What inserting one symbol does to a tree: a tree with its entry, and no conflict with the entries before; or a
conflict with one of them; or no room for a prefix of its codeword, and no conflict. -/
theorem insertSymbol_spec {d : Draw} {t : Builder} {S : List (Byte × List Bool)} {path : Nat → List Bool}
    (h : TreeInv d t S (fun _ => False) path) (sym : Byte) (full : List Bool) :
    match insertSymbol d t sym full with
    | .ok t' => (∃ path', TreeInv d t' ((sym, full) :: S) (fun _ => False) path') ∧
        ∀ e ∈ S, ¬ wordsConflict e.2 full
    | .error .notPrefixFree => ∃ e ∈ S, wordsConflict e.2 full
    | .error code => code = .treeOverflow ∧ (∀ e ∈ S, ¬ wordsConflict e.2 full) ∧
        ∃ t' path', TreeInv d t' S (· <+: full) path' ∧ t'.count = 512 ∧
          ∃ v, v <+: full ∧ ∀ n, n < t'.count → path' n ≠ v := by
  have hi := insertPath_spec full full t 0 path (h.weaken fun w hw => hw.elim) h.pos
    (by simp [h.root])
  simp only [Fin.val_zero, h.root, List.length_nil, Nat.zero_le, forall_const] at hi
  rw [insertSymbol]
  revert hi
  cases hr : insertPath d full t 0 with
  | error code =>
    intro hi
    cases code <;> first
      | exact absurd hi.1 (by decide)
      | (obtain ⟨e, he, h1, -⟩ := hi
         exact ⟨e, he, .inl h1⟩)
      | (obtain ⟨h0, t', path', h1, h2, v, h3, h4, h5⟩ := hi
         refine ⟨rfl, ?_, t', path', h1, h2, v, h3, h4⟩
         rintro e he (hc | hc)
         · exact h5 e he hc
         · obtain ⟨n, hn, hpn⟩ := h1.prefix_has_node he (h3.trans hc)
           exact h4 n hn hpn)
  | ok r =>
    obtain ⟨t', c⟩ := r
    rintro ⟨path', h1, h2, h3, h4⟩
    simp only
    by_cases hs : (Arena.node d t'.arena c.val).hasSym = true ∨ (Arena.node d t'.arena c.val).left ≠ 0 ∨
        (Arena.node d t'.arena c.val).right ≠ 0
    · simp only [if_pos hs]
      by_cases hs1 : (Arena.node d t'.arena c.val).hasSym = true
      · exact ⟨_, h1.sym c.val h2 hs1, .inl (by simp [h3])⟩
      · -- a child: its path goes on from `full`, so it is a prefix of an entry
        have hch : ∃ b, (t'.nd d c.val).child b ≠ 0 := by
          rcases hs with hs | hs | hs
          · exact absurd hs hs1
          · exact ⟨false, hs⟩
          · exact ⟨true, hs⟩
        obtain ⟨b, hb⟩ := hch
        obtain ⟨g1, g2⟩ := h1.child c.val b h2 hb
        rw [h3] at g2
        rcases h1.below _ g1 with g | ⟨e, he, g⟩ | g
        · rw [g2] at g; simp at g
        · rw [g2] at g; exact ⟨e, he, .inr ((List.prefix_append _ _).trans g)⟩
        · rw [g2] at g; have := g.length_le; simp at this
    · simp only [if_neg hs]
      simp only [not_or, Bool.not_eq_true, not_not] at hs
      have hl : ∀ b, (t'.nd d c.val).child b = 0 := by
        intro b; cases b
        · exact hs.2.1
        · exact hs.2.2
      refine ⟨⟨path', h1.mark h2 h3 hs.1 hl sym⟩, ?_⟩
      rintro e he (hc | hc)
      · have := h4 e he hc
        obtain ⟨n, hn, hpn, hsn, -⟩ := h1.ends e he
        have hnc := h1.inj n c.val hn h2 (by rw [hpn, h3, this])
        subst hnc
        have h5 : (t'.nd d c.val).hasSym = false := hs.1
        rw [h5] at hsn; simp at hsn
      · -- `full` is a prefix of `e`: equal, or the node of `full` has a child
        obtain ⟨u, hu⟩ := hc
        cases u with
        | nil =>
          simp only [List.append_nil] at hu
          obtain ⟨n, hn, hpn, hsn, -⟩ := h1.ends e he
          have hnc := h1.inj n c.val hn h2 (by rw [hpn, h3, hu])
          subst hnc
          have h5 : (t'.nd d c.val).hasSym = false := hs.1
          rw [h5] at hsn; simp at hsn
        | cons b u =>
          obtain ⟨n, hn, hpn⟩ := h1.prefix_has_node he (v := full ++ [b]) ⟨u, by simpa using hu⟩
          exact (h1.child_of_path h2 hn (by rw [hpn, h3])).2 (hl b)

/-- The entries of a list of symbols, the last first. -/
def entriesOf (ct : Table) (syms : List Byte) : List (Byte × List Bool) :=
  syms.reverse.map fun s => (s, (ct.get s).word)

/-- What inserting a list of symbols does to a tree with the entries of `before`: a tree with them all, free of
conflicts; or it stops at a symbol `sym`, those before it inserted without conflict. -/
theorem insertSymbols_spec {d : Draw} (ct : Table) (syms before : List Byte) (t : Builder) (path : Nat → List Bool)
    (h : TreeInv d t (entriesOf ct before) (fun _ => False) path)
    (hb : before.Pairwise fun x y => ¬ wordsConflict (ct.get x).word (ct.get y).word) :
    match insertSymbols d ct syms t with
    | .ok t' => (∃ path', TreeInv d t' (entriesOf ct (before ++ syms)) (fun _ => False) path') ∧
        (before ++ syms).Pairwise fun x y => ¬ wordsConflict (ct.get x).word (ct.get y).word
    | .error (code, sym) => ∃ u v, syms = u ++ sym :: v ∧
        (before ++ u).Pairwise (fun x y => ¬ wordsConflict (ct.get x).word (ct.get y).word) ∧
        ((code = .notPrefixFree ∧ ∃ x ∈ before ++ u, wordsConflict (ct.get x).word (ct.get sym).word) ∨
         (code = .treeOverflow ∧ (∀ x ∈ before ++ u, ¬ wordsConflict (ct.get x).word (ct.get sym).word) ∧
            ∃ t' path', TreeInv d t' (entriesOf ct (before ++ u)) (· <+: (ct.get sym).word) path' ∧ t'.count = 512 ∧
              ∃ w, w <+: (ct.get sym).word ∧ ∀ n, n < t'.count → path' n ≠ w)) := by
  induction syms generalizing before t path with
  | nil => simp only [insertSymbols, List.append_nil]; exact ⟨⟨path, h⟩, hb⟩
  | cons sym syms ih =>
    have hs := insertSymbol_spec h sym (ct.get sym).word
    have hmem : ∀ {P : List Bool → Prop}, (∀ e ∈ entriesOf ct before, P e.2) ↔ ∀ x ∈ before, P (ct.get x).word := by
      intro P; simp [entriesOf]
    rw [insertSymbols]
    revert hs
    cases hr : insertSymbol d t sym (ct.get sym).word with
    | error code =>
      intro hs
      refine ⟨[], syms, rfl, by simpa using hb, ?_⟩
      cases code <;> first
        | exact absurd hs.1 (by decide)
        | (obtain ⟨e, he, hc⟩ := hs
           simp only [entriesOf, List.mem_map, List.mem_reverse] at he
           obtain ⟨x, hx, rfl⟩ := he
           exact .inl ⟨rfl, x, by simpa using hx, hc⟩)
        | (obtain ⟨-, h1, t', path', h2, h3, h4⟩ := hs
           refine .inr ⟨rfl, ?_, t', path', by simpa using h2, h3, h4⟩
           simpa using (hmem (P := fun w => ¬ wordsConflict w (ct.get sym).word)).1 h1)
    | ok t1 =>
      rintro ⟨⟨path1, h1⟩, h2⟩
      have hb' : (before ++ [sym]).Pairwise fun x y => ¬ wordsConflict (ct.get x).word (ct.get y).word := by
        rw [List.pairwise_append]
        refine ⟨hb, by simp, fun x hx y hy => ?_⟩
        rw [List.mem_singleton] at hy; subst hy
        exact (hmem (P := fun w => ¬ wordsConflict w (ct.get y).word)).1 h2 x hx
      have h1' : TreeInv d t1 (entriesOf ct (before ++ [sym])) (fun _ => False) path1 := by
        simpa [entriesOf] using h1
      have := ih (before ++ [sym]) t1 path1 h1' hb'
      simp only
      revert this
      cases hr2 : insertSymbols d ct syms t1 with
      | ok t' => simp only [List.append_assoc, List.singleton_append]; exact id
      | error e =>
        obtain ⟨code, y⟩ := e
        rintro ⟨u, v, g1, g2, g3⟩
        refine ⟨sym :: u, v, by simp [g1], by simpa using g2, by simpa using g3⟩

/-- What TREE_BUILD's loop makes of a table: a tree of exactly its entries when they are free of conflicts; else the
symbol it stops at and why. -/
theorem buildTree_spec (d : Draw) (ar : Arena) (ct : Table) :
    match buildTree d ar ct with
    | .ok t => (∃ path, TreeInv d t (entriesOf ct ct.present) (fun _ => False) path) ∧
        ct.present.Pairwise fun x y => ¬ wordsConflict (ct.get x).word (ct.get y).word
    | .error (code, sym) => ∃ u v, ct.present = u ++ sym :: v ∧
        u.Pairwise (fun x y => ¬ wordsConflict (ct.get x).word (ct.get y).word) ∧
        ((code = .notPrefixFree ∧ ∃ x ∈ u, wordsConflict (ct.get x).word (ct.get sym).word) ∨
         (code = .treeOverflow ∧ (∀ x ∈ u, ¬ wordsConflict (ct.get x).word (ct.get sym).word) ∧
            ∃ t' path', TreeInv d t' (entriesOf ct u) (· <+: (ct.get sym).word) path' ∧ t'.count = 512 ∧
              ∃ w, w <+: (ct.get sym).word ∧ ∀ n, n < t'.count → path' n ≠ w)) := by
  have := insertSymbols_spec ct ct.present [] (Builder.root ar) (fun _ => []) (TreeInv.of_root d ar) (by simp)
  simpa [buildTree] using this

/-! ### Following a path in a finished tree -/

/-- In a tree, following bits from a node leads to the node whose path goes on by those bits, if there is one. -/
theorem follow_iff {s : State} {t : Builder} {S : List (Byte × List Bool)} {extra : List Bool → Prop}
    {path : Nat → List Bool} (ha : s.arena = t.arena) (h : TreeInv s.arenaDraw t S extra path) (w : List Bool)
    (n m : Fin 512) (hn : n.val < t.count) :
    s.follow n w = some m ↔ m.val < t.count ∧ path m.val = path n.val ++ w := by
  have hnd : ∀ k : Fin 512, s.nodeAt k = t.nd s.arenaDraw k.val := fun k => by
    simp [State.nodeAt, Builder.nd, ha]
  induction w generalizing n with
  | nil =>
    simp only [State.follow, Option.some.injEq, List.append_nil]
    constructor
    · rintro rfl; exact ⟨hn, rfl⟩
    · rintro ⟨h1, h2⟩; exact Fin.ext (h.inj _ _ hn h1 h2.symm)
  | cons b w ih =>
    have hch : (if b then (s.nodeAt n).right else (s.nodeAt n).left) = (t.nd s.arenaDraw n.val).child b := by
      rw [hnd]; rfl
    rw [State.follow, hch]
    by_cases hc : (t.nd s.arenaDraw n.val).child b = 0
    · simp only [hc, if_true, reduceCtorEq, false_iff, not_and]
      intro hm hp
      obtain ⟨k, hk, hpk⟩ := h.exists_prefix hm (v := path n.val ++ [b]) ⟨w, by simp [hp]⟩
      exact (h.child_of_path hn hk hpk).2 hc
    · obtain ⟨h1, h2⟩ := h.child n.val b hn hc
      simp only [hc, if_false]
      refine (ih _ h1).trans ?_
      rw [h2]; simp

end Sys2Proof.Machine
end

