-- ==== Sys2Proof/Laws/TreeBuild.lean ====
section
/-! SUPPORT. What TREE_BUILD does (43_decode_tree_walker.md R74), and its node count in terms of the prefixes of the
table's codewords. -/

namespace Sys2Proof.Machine

/-- Everything TREE_BUILD can do. -/
theorem exec_treeBuild (s : State) : exec .treeBuild s =
    match buildTree s.arenaDraw s.arena s.ct with
    | .error (c, sym) =>
      .next ({ s.withoutTree with nodeCount := 0#32, arena := [], arenaDraw := s.arenaDraw.next }.errRecord
        c.byte.toNat sym.toNat 0)
    | .ok t =>
      .next ({ s with
        arena := t.arena, nodeCount := BitVec.ofNat 32 t.count
        status := { s.status with treeValid := true } }.okRecord 0 0 0 s.ct.present.length) := by
  have h : exec .treeBuild s = Host.Outcome.next (runCommand treeBuildErrorEffect treeBuildBody s) := rfl
  rw [h, runCommand, treeBuildBody]
  cases hb : buildTree s.arenaDraw s.arena s.ct with
  | error e =>
    obtain ⟨c, sym⟩ := e
    simp only [startStep_st, setTreeValid_fields, startState_fields, hb, complete]
    have : BitVec.ofNat 8 c.byte.toNat = c.byte := by simp
    simp only [State.errRecord, this]
    rfl
  | ok b =>
    simp only [startStep_st, setTreeValid_fields, startState_fields, hb]
    rfl

/-- The nodes' paths, one each. -/
theorem paths_nodup {d : Draw} {t : Builder} {S : List (Byte × List Bool)} {extra : List Bool → Prop}
    {path : Nat → List Bool} (h : TreeInv d t S extra path) : ((List.range t.count).map path).Nodup := by
  rw [List.nodup_map_iff_inj_on List.nodup_range]
  intro m hm n hn he
  exact h.inj m n (List.mem_range.1 hm) (List.mem_range.1 hn) he

theorem mem_paths {t : Builder} {path : Nat → List Bool} {p : List Bool} :
    p ∈ (List.range t.count).map path ↔ ∃ n, n < t.count ∧ path n = p := by
  simp

theorem nodup_length_le {α : Type} {l m : List α} (hl : l.Nodup) (h : ∀ a ∈ l, a ∈ m) : l.length ≤ m.length :=
  (List.Nodup.subperm hl h).length_le

theorem mem_entriesOf {ct : Table} {l : List Byte} {e : Byte × List Bool} :
    e ∈ entriesOf ct l ↔ e.1 ∈ l ∧ e.2 = (ct.get e.1).word := by
  obtain ⟨x, w⟩ := e
  simp only [entriesOf, List.mem_map, List.mem_reverse, Prod.mk.injEq]
  constructor
  · rintro ⟨y, hy, rfl, rfl⟩; exact ⟨hy, rfl⟩
  · rintro ⟨h1, h2⟩; exact ⟨x, h1, rfl, h2.symm⟩

/-- The tree of a whole table has one node for each distinct prefix. -/
theorem count_eq {d : Draw} {t : Builder} {ct : Table} {path : Nat → List Bool}
    (h : TreeInv d t (entriesOf ct ct.present) (fun _ => False) path) {n : Nat} (hn : ct.prefixCount 256 n) :
    n = t.count := by
  obtain ⟨ps, h1, h2, h3⟩ := hn
  have hm : ∀ p, p ∈ ps ↔ p ∈ (List.range t.count).map path := by
    intro p
    rw [h3, mem_paths]
    constructor
    · rintro (rfl | ⟨s, -, hs, hp⟩)
      · exact ⟨0, h.pos, h.root⟩
      · exact h.prefix_has_node (mem_entriesOf.2 ⟨Table.mem_present.2 hs, rfl⟩ : (s, (ct.get s).word) ∈ _) hp
    · rintro ⟨n, hn, rfl⟩
      rcases h.below n hn with g | ⟨e, he, g⟩ | g
      · exact .inl g
      · rw [mem_entriesOf] at he
        exact .inr ⟨e.1, e.1.isLt, Table.mem_present.1 he.1, by rw [← he.2]; exact g⟩
      · exact g.elim
  have g1 := nodup_length_le h1 fun a ha => (hm a).1 ha
  have g2 := nodup_length_le (paths_nodup h) fun a ha => (hm a).2 ha
  simp at g1 g2; omega

/-- The symbols before one of the present symbols are the smaller present ones. -/
theorem sorted_split {ct : Table} {u v : List Byte} {sym : Byte} (h : ct.present = u ++ sym :: v) :
    (ct.get sym).len ≠ 0#8 ∧ ∀ x, x ∈ u ↔ x.toNat < sym.toNat ∧ (ct.get x).len ≠ 0#8 := by
  have hs := ct.present_sorted
  rw [h, List.pairwise_append] at hs
  obtain ⟨-, h2, h3⟩ := hs
  rw [List.pairwise_cons] at h2
  refine ⟨Table.mem_present.1 (by rw [h]; simp), fun x => ⟨fun hx =>
    ⟨h3 x hx sym (by simp), Table.mem_present.1 (by rw [h]; simp [hx])⟩, ?_⟩⟩
  rintro ⟨hx, hp⟩
  have := Table.mem_present.2 hp
  rw [h, List.mem_append, List.mem_cons] at this
  rcases this with g | rfl | g
  · exact g
  · omega
  · have := h2.1 x g; omega

/-- A prefix of the symbol's codeword without a node is one more than the nodes. -/
theorem count_over {d : Draw} {t : Builder} {ct : Table} {path : Nat → List Bool} {u v : List Byte} {sym : Byte}
    (hu : ct.present = u ++ sym :: v)
    (h : TreeInv d t (entriesOf ct u) (· <+: (ct.get sym).word) path) {w : List Bool}
    (hw : w <+: (ct.get sym).word) (hno : ∀ n, n < t.count → path n ≠ w)
    {bound n : Nat} (hb : sym.toNat < bound) (hn : ct.prefixCount bound n) : t.count < n := by
  obtain ⟨ps, h1, h2, h3⟩ := hn
  obtain ⟨hsym, hmem⟩ := sorted_split hu
  have hnd : (w :: (List.range t.count).map path).Nodup := by
    rw [List.nodup_cons]
    refine ⟨?_, paths_nodup h⟩
    rw [mem_paths]; rintro ⟨n, hn, he⟩; exact hno n hn he
  have := nodup_length_le (m := ps) hnd (by
    intro a ha
    rw [h3]
    rw [List.mem_cons, mem_paths] at ha
    rcases ha with rfl | ⟨n, hn, rfl⟩
    · exact .inr ⟨sym, hb, hsym, hw⟩
    · rcases h.below n hn with g | ⟨e, he, g⟩ | g
      · exact .inl g
      · rw [mem_entriesOf, hmem] at he
        exact .inr ⟨e.1, by omega, he.1.2, by rw [← he.2]; exact g⟩
      · exact .inr ⟨sym, hb, hsym, g⟩)
  simp at this; omega

/-- The prefixes of the smaller symbols' codewords all have nodes. -/
theorem count_below {d : Draw} {t : Builder} {ct : Table} {path : Nat → List Bool} {u v : List Byte} {sym : Byte}
    (hu : ct.present = u ++ sym :: v) {extra : List Bool → Prop} (h : TreeInv d t (entriesOf ct u) extra path)
    {n : Nat} (hn : ct.prefixCount sym.toNat n) : n ≤ t.count := by
  obtain ⟨ps, h1, h2, h3⟩ := hn
  obtain ⟨hsym, hmem⟩ := sorted_split hu
  have := nodup_length_le (m := (List.range t.count).map path) h1 (by
    intro a ha
    rw [h3] at ha
    rw [mem_paths]
    rcases ha with rfl | ⟨s, hb, hs, hp⟩
    · exact ⟨0, h.pos, h.root⟩
    · exact h.prefix_has_node (mem_entriesOf.2 ⟨(hmem s).2 ⟨hb, hs⟩, rfl⟩ : (s, (ct.get s).word) ∈ _) hp)
  simp at this; omega

/-- A successful TREE_BUILD leaves the tree of its table. -/
theorem treeBuild_ok {s t : State} (h : exec .treeBuild s = .next t) (he : t.status.err = false) :
    ∃ b, buildTree s.arenaDraw s.arena s.ct = .ok b ∧ t.arena = b.arena ∧ t.ct = s.ct ∧
      t.arenaDraw = s.arenaDraw ∧ t.nodeCount = BitVec.ofNat 32 b.count := by
  rw [exec_treeBuild] at h
  revert h
  cases buildTree s.arenaDraw s.arena s.ct with
  | error e => intro h; cases h; cases he
  | ok b => intro h; cases h; exact ⟨b, rfl, rfl, rfl, rfl, rfl⟩

/-! ### The arena keeps its canonical form -/

theorem arenaWf_insertPath {d : Draw} {w : List Bool} {t : Builder} {cur : Fin 512} {r : Builder × Fin 512}
    (h : t.arena.wf) (hc : t.count ≤ 512) (e : insertPath d w t cur = .ok r) :
    r.1.arena.wf ∧ r.1.count ≤ 512 := by
  induction w generalizing t cur with
  | nil => cases e; exact ⟨h, hc⟩
  | cons b w ih =>
    rw [insertPath] at e
    by_cases h1 : (Arena.node d t.arena cur.val).hasSym = true
    · rw [if_pos h1] at e; cases e
    · rw [if_neg h1] at e
      by_cases h2 : (Arena.node d t.arena cur.val).child b = 0
      · simp only [if_pos h2] at e
        by_cases h3 : t.count = Config.nodes
        · rw [if_pos h3] at e; cases e
        · rw [if_neg h3] at e
          have : t.count < 512 := by simp [Config.nodes] at h3; omega
          refine ih ?_ ?_ e
          · exact cellsWf_writeCell (cellsWf_writeCell h this _) cur.isLt _
          · exact this
      · simp only [if_neg h2] at e
        exact ih h hc e

theorem arenaWf_build {d : Draw} {ct : Table} {l : List Byte} {t r : Builder} (h : t.arena.wf) (hc : t.count ≤ 512)
    (e : insertSymbols d ct l t = .ok r) :
    r.arena.wf ∧ r.count ≤ 512 := by
  induction l generalizing t with
  | nil => cases e; exact ⟨h, hc⟩
  | cons x l ih =>
    rw [insertSymbols] at e
    cases hs : insertSymbol d t x (ct.get x).word with
    | error c => rw [hs] at e; cases e
    | ok t' =>
      rw [hs] at e
      rw [insertSymbol] at hs
      cases hp : insertPath d (ct.get x).word t 0 with
      | error c => rw [hp] at hs; cases hs
      | ok q =>
        rw [hp] at hs
        obtain ⟨k1, k2⟩ := arenaWf_insertPath h hc hp
        obtain ⟨t'', c⟩ := q
        simp only at hs
        split_ifs at hs
        cases hs
        exact ih (t := { arena := _, count := t''.count })
          (cellsWf_writeCell (bound := Config.nodes) k1 c.isLt _) k2 e

end Sys2Proof.Machine
end

