-- ==== Sys2Proof/Laws/Walk.lean ====
section
/-! SUPPORT. What DECODE's walk does (43_decode_tree_walker.md R77, R78): everything it can do, and what it does on the
bits of codewords of the table whose tree is in the arena. -/

namespace Sys2Proof.Machine

/-! ### Everything the walk can do -/

/-- However the walk ends, it has written a list of symbols from `DST + n` up that fits the window, and nothing else
but the result registers; an error is one of the three walk errors. -/
theorem decodeWalk_cases (p m k n : Nat) (pos : Fin 512) (r : Run) (hn : n ≤ r.st.dstCap.toNat) :
    ∃ out : List Byte, n + out.length ≤ r.st.dstCap.toNat ∧
      (decodeWalk p m k n pos r =
          .done ((r.memWriteAll (r.st.dst.toNat + n) out).decodeResults (n + out.length) (k + m) p) ∨
       ∃ c q, (c = .decodeTruncated ∨ c = .decodeNullChild ∨ c = .dstOverflow) ∧
         decodeWalk p m k n pos r = .raised (r.memWriteAll (r.st.dst.toNat + n) out) c q) := by
  induction m generalizing k n pos r with
  | zero =>
    refine ⟨[], by simpa using hn, ?_⟩
    by_cases hp : pos ≠ 0
    · exact .inr ⟨_, k, .inl rfl, by rw [decodeWalk, if_pos hp]; rfl⟩
    · exact .inl (by rw [decodeWalk, if_neg hp]; rfl)
  | succ m ih =>
    rw [decodeWalk]
    split_ifs with h1 h2 h3
    · exact ⟨[], by simpa using hn, .inr ⟨_, k, .inr (.inl rfl), rfl⟩⟩
    · exact ⟨[], by simpa using hn, .inr ⟨_, k, .inr (.inr rfl), rfl⟩⟩
    · generalize (r.st.nodeAt ((r.st.nodeAt pos).child (r.st.payloadBit k))).sym = v
      obtain ⟨out, ho, h⟩ := ih (k + 1) (n + 1) 0 (r.memWrite (r.st.dst.toNat + n) v)
        (by simp only [Run.memWrite_fields]; omega)
      refine ⟨v :: out, by simp only [List.length_cons, Run.memWrite_fields] at ho ⊢; omega, ?_⟩
      have e1 : n + 1 + out.length = n + (v :: out).length := by simp only [List.length_cons]; omega
      have e2 : k + 1 + m = k + (m + 1) := by omega
      rw [e1, e2] at h
      exact h
    · obtain ⟨out, ho, h⟩ := ih (k + 1) n _ r hn
      refine ⟨out, ho, ?_⟩
      have e2 : k + 1 + m = k + (m + 1) := by omega
      rw [e2] at h; exact h

/-! ### Reading through a run -/

@[simp] theorem nodeAt_memWrite (r : Run) (a : Nat) (v : Byte) (n : Fin 512) :
    (r.memWrite a v).st.nodeAt n = r.st.nodeAt n := rfl

theorem follow_congr {s t : State} (h : ∀ n, s.nodeAt n = t.nodeAt n) (n : Fin 512) (w : List Bool) :
    s.follow n w = t.follow n w := by
  induction w generalizing n with
  | nil => rfl
  | cons b w ih => simp only [State.follow, h, ih]

@[simp] theorem follow_memWrite (r : Run) (a : Nat) (v : Byte) (n : Fin 512) (w : List Bool) :
    (r.memWrite a v).st.follow n w = r.st.follow n w := follow_congr (s := (r.memWrite a v).st) (t := r.st) (fun _ => rfl) n w

theorem follow_cons (s : State) (n : Fin 512) (b : Bool) (w : List Bool) :
    s.follow n (b :: w) = if (s.nodeAt n).child b = 0 then none else s.follow ((s.nodeAt n).child b) w := rfl

theorem follow_append (s : State) (n : Fin 512) (u w : List Bool) :
    s.follow n (u ++ w) = (s.follow n u).bind fun k => s.follow k w := by
  induction u generalizing n with
  | nil => rfl
  | cons b u ih =>
    simp only [List.cons_append, follow_cons]
    split_ifs <;> simp [ih]

theorem byteAt_memWrite (r : Run) (a : Nat) (v : Byte) (b : Nat) :
    (r.memWrite a v).st.byteAt b = if b = a then v else r.st.byteAt b :=
  Memory.read_writeCell _ _ _ _ _

theorem payloadBit_memWrite (r : Run) (a : Nat) (v : Byte) (k : Nat) (h : r.st.src.toNat + 1 + k / 8 ≠ a) :
    (r.memWrite a v).st.payloadBit k = r.st.payloadBit k := by
  unfold State.payloadBit
  rw [byteAt_memWrite]
  simp only [Run.memWrite_fields]
  rw [if_neg h]

/-- Two runs that differ in memory only, and agree on the payload bits the walk reads, walk alike. -/
theorem decodeWalk_sim (p m k n : Nat) (pos : Fin 512) (r r' : Run)
    (hs : r'.st = { r.st with dmem := r'.st.dmem, dmemDraw := r'.st.dmemDraw })
    (hn : n ≤ r.st.dstCap.toNat)
    (hb : ∀ i, i < m → r'.st.payloadBit (k + i) = r.st.payloadBit (k + i))
    (ho : ∀ i, i < m → ∀ j, j < r.st.dstCap.toNat → r.st.src.toNat + 1 + (k + i) / 8 ≠ r.st.dst.toNat + j) :
    ∃ out : List Byte, n + out.length ≤ r.st.dstCap.toNat ∧
      ((decodeWalk p m k n pos r =
          .done ((r.memWriteAll (r.st.dst.toNat + n) out).decodeResults (n + out.length) (k + m) p) ∧
        decodeWalk p m k n pos r' =
          .done ((r'.memWriteAll (r.st.dst.toNat + n) out).decodeResults (n + out.length) (k + m) p)) ∨
       ∃ c q,
         decodeWalk p m k n pos r = .raised (r.memWriteAll (r.st.dst.toNat + n) out) c q ∧
         decodeWalk p m k n pos r' = .raised (r'.memWriteAll (r.st.dst.toNat + n) out) c q) := by
  have hd : r'.st.dst = r.st.dst := by rw [hs]
  have hcap : r'.st.dstCap = r.st.dstCap := by rw [hs]
  have hnd : ∀ x, r'.st.nodeAt x = r.st.nodeAt x := by intro x; rw [hs]; rfl
  induction m generalizing k n pos r r' with
  | zero =>
    refine ⟨[], by simpa using hn, ?_⟩
    by_cases hp : pos ≠ 0
    · exact .inr ⟨_, k, by rw [decodeWalk, if_pos hp]; rfl, by rw [decodeWalk, if_pos hp]; rfl⟩
    · exact .inl ⟨by rw [decodeWalk, if_neg hp]; rfl, by rw [decodeWalk, if_neg hp]; rfl⟩
  | succ m ih =>
    rw [decodeWalk, decodeWalk]
    have hb0 := hb 0 (by omega)
    rw [Nat.add_zero] at hb0
    simp only [hnd, hb0, hcap, hd]
    split_ifs with h1 h2 h3
    · exact ⟨[], by simpa using hn, .inr ⟨_, k, rfl, rfl⟩⟩
    · exact ⟨[], by simpa using hn, .inr ⟨_, k, rfl, rfl⟩⟩
    · generalize (r.st.nodeAt ((r.st.nodeAt pos).child (r.st.payloadBit k))).sym = v
      have hsrc : r'.st.src = r.st.src := by rw [hs]
      have e2 : k + 1 + m = k + (m + 1) := by omega
      obtain ⟨out, g1, g2⟩ := ih (k + 1) (n + 1) 0 (r.memWrite (r.st.dst.toNat + n) v)
        (r'.memWrite (r.st.dst.toNat + n) v)
        (by show State.mk .. = _; rw [hs]; rfl) (by simp only [Run.memWrite_fields]; omega)
        (by
          intro i hi
          have := ho (i + 1) (by omega) n (by omega)
          rw [show k + (i + 1) = k + 1 + i by omega] at this
          rw [payloadBit_memWrite _ _ _ _ this, payloadBit_memWrite _ _ _ _ (by rw [hsrc]; exact this)]
          have := hb (i + 1) (by omega)
          rwa [show k + (i + 1) = k + 1 + i by omega] at this)
        (by
          intro i hi j hj
          have := ho (i + 1) (by omega) j hj
          rwa [show k + (i + 1) = k + 1 + i by omega] at this)
        hd hcap hnd
      simp only [Run.memWrite_fields] at g1 g2
      refine ⟨v :: out, by simp only [List.length_cons]; omega, ?_⟩
      have e1 : n + 1 + out.length = n + (v :: out).length := by simp only [List.length_cons]; omega
      rw [e1, e2] at g2
      exact g2
    · have e2 : k + 1 + m = k + (m + 1) := by omega
      obtain ⟨out, g1, g2⟩ := ih (k + 1) n ((r.st.nodeAt pos).child (r.st.payloadBit k)) r r' hs hn (by
          intro i hi
          have := hb (i + 1) (by omega)
          rwa [show k + (i + 1) = k + 1 + i by omega] at this) (by
          intro i hi j hj
          have := ho (i + 1) (by omega) j hj
          rwa [show k + (i + 1) = k + 1 + i by omega] at this) hd hcap hnd
      rw [e2] at g2
      exact ⟨out, g1, g2⟩

/-! ### The walk on bits of codewords -/

/-- Bits that lead through nodes without symbols only move the walk. -/
theorem decodeWalk_move (p : Nat) (u : List Bool) (m k n : Nat) (pos q : Fin 512) (r : Run)
    (hf : r.st.follow pos u = some q)
    (hs : ∀ v j, v ≠ [] → v <+: u → r.st.follow pos v = some j → (r.st.nodeAt j).hasSym = false)
    (hb : ∀ i (h : i < u.length), r.st.payloadBit (k + i) = u[i]) :
    decodeWalk p (u.length + m) k n pos r = decodeWalk p m (k + u.length) n q r := by
  induction u generalizing k pos with
  | nil => simp only [State.follow, Option.some.injEq] at hf; subst hf; simp
  | cons b u ih =>
    have hb0 : r.st.payloadBit k = b := hb 0 (by simp)
    rw [follow_cons] at hf
    split_ifs at hf with hc
    have hsym : (r.st.nodeAt ((r.st.nodeAt pos).child b)).hasSym = false :=
      hs [b] _ (by simp) (by simp) (by rw [follow_cons, if_neg hc]; rfl)
    have e : (b :: u).length + m = (u.length + m) + 1 := by simp only [List.length_cons]; omega
    rw [e, decodeWalk]
    simp only [hb0, hc, hsym, if_false, Bool.false_eq_true]
    rw [ih (k + 1) _ hf ?_ ?_]
    · congr 1; simp only [List.length_cons]; omega
    · intro v j hv hpre hj
      exact hs (b :: v) j (by simp) (by simpa using hpre) (by rw [follow_cons, if_neg hc]; exact hj)
    · intro i h
      have := hb (i + 1) (by simpa using h)
      rw [show k + 1 + i = k + (i + 1) by omega, this]; simp

/-- Facts about the tree of the current table, in terms of paths from the root. -/
structure TreeFacts (s : State) : Prop where
  prefixPath : ∀ x u, (s.entry x).len ≠ 0#8 → u <+: (s.entry x).word → ∃ n, s.follow 0 u = some n
  leaf : ∀ x n, (s.entry x).len ≠ 0#8 → s.follow 0 (s.entry x).word = some n →
    (s.nodeAt n).hasSym = true ∧ (s.nodeAt n).sym = x
  inner : ∀ x u n, (s.entry x).len ≠ 0#8 → u <+: (s.entry x).word → u ≠ (s.entry x).word →
    s.follow 0 u = some n → (s.nodeAt n).hasSym = false
  nowhere : ∀ w, w ≠ [] → (∀ y, (s.entry y).len ≠ 0#8 → ¬ w <+: (s.entry y).word) → s.follow 0 w = none
  rootBare : (s.nodeAt 0).hasSym = false

theorem mem_entriesOf_present {ct : Table} {e : Byte × List Bool} :
    e ∈ entriesOf ct ct.present ↔ (ct.get e.1).len ≠ 0#8 ∧ e.2 = (ct.get e.1).word := by
  obtain ⟨x, w⟩ := e
  simp only [entriesOf, List.mem_map, List.mem_reverse, Table.mem_present, Prod.mk.injEq]
  constructor
  · rintro ⟨y, hy, rfl, rfl⟩; exact ⟨hy, rfl⟩
  · rintro ⟨h1, h2⟩; exact ⟨x, h1, rfl, h2.symm⟩

/-- Distinct present symbols of a list free of conflicts do not conflict. -/
theorem no_conflict_of_pairwise {ct : Table} {l : List Byte}
    (h : l.Pairwise fun x y => ¬ wordsConflict (ct.get x).word (ct.get y).word) {x y : Byte} (hx : x ∈ l) (hy : y ∈ l)
    (hxy : x ≠ y) : ¬ wordsConflict (ct.get x).word (ct.get y).word := by
  have : Std.Symm fun x y => ¬ wordsConflict (ct.get x).word (ct.get y).word := ⟨fun _ _ h e => h (Or.symm e)⟩
  exact h.forall hx hy hxy

/-- A finished tree of the table's entries has the facts. -/
theorem TreeFacts.of_inv {s : State} {t : Builder} {path : Nat → List Bool} (ha : s.arena = t.arena)
    (h : TreeInv s.arenaDraw t (entriesOf s.ct s.ct.present) (fun _ => False) path)
    (hc : s.ct.present.Pairwise fun x y => ¬ wordsConflict (s.ct.get x).word (s.ct.get y).word) : TreeFacts s := by
  have hnd : ∀ k : Fin 512, s.nodeAt k = t.nd s.arenaDraw k.val := fun k => by
    simp [State.nodeAt, Builder.nd, ha]
  have hf : ∀ w m, s.follow 0 w = some m ↔ m.val < t.count ∧ path m.val = w := by
    intro w m
    rw [follow_iff ha h w 0 m h.pos]; simp [h.root]
  have hmem : ∀ x, (s.entry x).len ≠ 0#8 → (x, (s.entry x).word) ∈ entriesOf s.ct s.ct.present := fun x hx =>
    mem_entriesOf_present.2 ⟨hx, rfl⟩
  have hword : ∀ n, n < t.count → (t.nd s.arenaDraw n).hasSym = true →
      (s.entry (t.nd s.arenaDraw n).sym).len ≠ 0#8 ∧ path n = (s.entry (t.nd s.arenaDraw n).sym).word := by
    intro n hn hs
    obtain ⟨h1, h2⟩ := mem_entriesOf_present.1 (h.sym n hn hs)
    exact ⟨h1, h2⟩
  have hinner : ∀ x u n, (s.entry x).len ≠ 0#8 → u <+: (s.entry x).word → u ≠ (s.entry x).word →
      s.follow 0 u = some n → (s.nodeAt n).hasSym = false := by
    intro x u n hx hu hne hfo
    obtain ⟨h1, h2⟩ := (hf u n).1 hfo
    by_contra hcon
    rw [Bool.not_eq_false, hnd] at hcon
    obtain ⟨h3, h4⟩ := hword n.val h1 hcon
    rw [h2] at h4
    by_cases hxy : x = (t.nd s.arenaDraw n.val).sym
    · rw [← hxy] at h4; exact hne h4
    · exact no_conflict_of_pairwise hc (Table.mem_present.2 h3) (Table.mem_present.2 hx) (fun e => hxy e.symm)
        (.inl (by rw [← State.entry, ← State.entry, ← h4]; exact hu))
  refine ⟨?_, ?_, hinner, ?_, ?_⟩
  · intro x u hx hu
    obtain ⟨n, hn, hp⟩ := h.prefix_has_node (hmem x hx) hu
    exact ⟨⟨n, hn.trans_le h.le⟩, (hf u _).2 ⟨hn, hp⟩⟩
  · intro x n hx hfo
    obtain ⟨h1, h2⟩ := (hf _ n).1 hfo
    obtain ⟨m, hm, hpm, hsm, hym⟩ := h.ends _ (hmem x hx)
    have := h.inj m n.val hm h1 (hpm.trans h2.symm)
    subst this
    rw [hnd]; exact ⟨hsm, hym⟩
  · intro w hw hno
    cases hfo : s.follow 0 w with
    | none => rfl
    | some n =>
      obtain ⟨h1, h2⟩ := (hf w n).1 hfo
      rcases h.below n.val h1 with g | ⟨e, he, g⟩ | g
      · exact absurd (h2.symm.trans g) hw
      · obtain ⟨g1, g2⟩ := mem_entriesOf_present.1 he
        rw [h2, g2] at g
        exact absurd g (hno e.1 g1)
      · exact g.elim
  · by_contra hcon
    rw [Bool.not_eq_false, hnd] at hcon
    obtain ⟨h3, h4⟩ := hword 0 h.pos hcon
    exact CTEntry.word_ne_nil.2 h3 (h4.symm.trans h.root)

theorem TreeFacts.of_treeOfTable {s : State} (h : s.treeOfTable) : TreeFacts s := by
  obtain ⟨ar, t, hb, ha, -⟩ := h
  have := buildTree_spec s.arenaDraw ar s.ct
  rw [hb] at this
  obtain ⟨⟨path, h1⟩, h2⟩ := this
  exact .of_inv ha h1 h2

/-- The facts speak only of the table and the nodes. -/
theorem TreeFacts.congr {s t : State} (h : TreeFacts s) (hct : t.ct = s.ct) (hn : ∀ n, t.nodeAt n = s.nodeAt n) :
    TreeFacts t := by
  have hf : ∀ n w, t.follow n w = s.follow n w := fun n w => follow_congr hn n w
  have he : ∀ x, t.entry x = s.entry x := fun x => by rw [State.entry, hct]; rfl
  constructor
  · intro x u; rw [he]; simp only [hf]; exact h.prefixPath x u
  · intro x n; rw [he]; simp only [hf, hn]; exact h.leaf x n
  · intro x u n; rw [he]; simp only [hf, hn]; exact h.inner x u n
  · intro w hw hno; rw [hf]; exact h.nowhere w hw fun y hy => by have := hno y; rw [he] at this; exact this hy
  · rw [hn]; exact h.rootBare

@[simp] theorem TreeFacts.memWrite {r : Run} {a : Nat} {v : Byte} (h : TreeFacts r.st) :
    TreeFacts (r.memWrite a v).st := h.congr rfl fun _ => rfl

/-! ### The walk on codewords -/

/-- Inside a codeword the walk moves to the node its bits lead to. -/
theorem decodeWalk_inside {p m k n : Nat} {r : Run} (h : TreeFacts r.st) {x : Byte} (hx : (r.st.entry x).len ≠ 0#8)
    {u : List Bool} (hu : u <+: (r.st.entry x).word) (hne : u ≠ (r.st.entry x).word)
    (hb : ∀ i (h : i < u.length), r.st.payloadBit (k + i) = u[i]) :
    ∃ q, r.st.follow 0 u = some q ∧ (u ≠ [] → q ≠ 0) ∧
      decodeWalk p (u.length + m) k n 0 r = decodeWalk p m (k + u.length) n q r := by
  obtain ⟨q, hq⟩ := h.prefixPath x u hx hu
  refine ⟨q, hq, ?_, decodeWalk_move p u m k n 0 q r hq ?_ hb⟩
  · intro hne'
    obtain ⟨u', b, rfl⟩ := List.eq_nil_or_concat u |>.resolve_left hne'
    rw [List.concat_eq_append, follow_append] at hq
    cases hf : r.st.follow 0 u' with
    | none => simp [hf] at hq
    | some j =>
      rw [hf] at hq
      simp only [Option.bind_some, follow_cons] at hq
      split_ifs at hq with hc
      simp only [State.follow, Option.some.injEq] at hq
      exact hq ▸ hc
  · intro v j _ hv hj
    have hv' : v <+: (r.st.entry x).word := hv.trans hu
    exact h.inner x v j hx hv' (fun e => hne (hu.eq_of_length_le (by rw [← e]; exact hv.length_le))) hj

/-- The last bit of a codeword: the symbol is emitted, or there is no room for it. -/
theorem decodeWalk_codeword {p m k n : Nat} {r : Run} (h : TreeFacts r.st) {x : Byte} (hx : (r.st.entry x).len ≠ 0#8)
    (hb : ∀ i (h : i < (r.st.entry x).word.length), r.st.payloadBit (k + i) = (r.st.entry x).word[i]) :
    decodeWalk p ((r.st.entry x).word.length + m) k n 0 r =
      if n = r.st.dstCap.toNat then .raised r .dstOverflow (k + (r.st.entry x).word.length - 1)
      else decodeWalk p m (k + (r.st.entry x).word.length) (n + 1) 0 (r.memWrite (r.st.dst.toNat + n) x) := by
  obtain ⟨u, b, hw⟩ := List.eq_nil_or_concat (r.st.entry x).word |>.resolve_left (CTEntry.word_ne_nil.2 hx)
  rw [List.concat_eq_append] at hw
  have hu : u <+: (r.st.entry x).word := ⟨[b], hw.symm⟩
  have hne : u ≠ (r.st.entry x).word := by rw [hw]; simp
  obtain ⟨q, hq, -, hwalk⟩ := decodeWalk_inside (p := p) (m := m + 1) (k := k) (n := n) h hx hu hne fun i hi => by
    rw [hb i (by rw [hw]; simp; omega)]; simp [hw, hi]
  obtain ⟨j, hj⟩ := h.prefixPath x _ hx (List.prefix_refl _)
  obtain ⟨h1, h2⟩ := h.leaf x j hx hj
  rw [hw, follow_append, hq] at hj
  simp only [Option.bind_some, follow_cons] at hj
  split_ifs at hj with hc
  simp only [State.follow, Option.some.injEq] at hj
  have hbit : r.st.payloadBit (k + u.length) = b := by
    rw [hb u.length (by rw [hw]; simp)]; simp [hw]
  have hl : (r.st.entry x).word.length = u.length + 1 := by rw [hw]; simp
  rw [hl, show u.length + 1 + m = u.length + (m + 1) by omega, hwalk, decodeWalk]
  rw [hj] at hc
  simp only [hbit, hj, h1, if_true, h2, if_neg hc]
  rfl

/-- The payload bits of a stream of codewords, from payload bit `k` on. -/
def State.bitsFrom (s : State) (k : Nat) (bits : List Bool) : Prop :=
  ∀ i (h : i < bits.length), s.payloadBit (k + i) = bits[i]

theorem State.bitsFrom_append {s : State} {k : Nat} {u w : List Bool} (h : s.bitsFrom k (u ++ w)) :
    s.bitsFrom k u ∧ s.bitsFrom (k + u.length) w := by
  refine ⟨fun i hi => ?_, fun i hi => ?_⟩
  · rw [h i (by simp; omega)]; simp [hi]
  · rw [Nat.add_assoc, h (u.length + i) (by simp; omega)]; simp

/-- Memory writes outside the payload keep its bits. -/
theorem State.bitsFrom_memWrite {r : Run} {k : Nat} {bits : List Bool} {a : Nat} {v : Byte}
    (h : r.st.bitsFrom k bits) (ha : ∀ i < bits.length, r.st.src.toNat + 1 + (k + i) / 8 ≠ a) :
    (r.memWrite a v).st.bitsFrom k bits := fun i hi => by
  rw [payloadBit_memWrite _ _ _ _ (ha i hi), h i hi]

/-- Over the codewords of symbols that fit, the walk emits them and is back at the root. -/
theorem decodeWalk_symbols {p : Nat} (syms : List Byte) {m k n : Nat} {r : Run} (h : TreeFacts r.st)
    (hx : ∀ x ∈ syms, (r.st.entry x).len ≠ 0#8) (hn : n + syms.length ≤ r.st.dstCap.toNat) {rest : List Bool}
    (hb : r.st.bitsFrom k (r.st.ct.stream syms ++ rest))
    (ho : ∀ i < ((r.st.ct.stream syms) ++ rest).length, ∀ j < r.st.dstCap.toNat,
      r.st.src.toNat + 1 + (k + i) / 8 ≠ r.st.dst.toNat + j) :
    ∃ r', r' = r.memWriteAll (r.st.dst.toNat + n) syms ∧ TreeFacts r'.st ∧
      r'.st.bitsFrom (k + (r.st.ct.stream syms).length) rest ∧
      decodeWalk p ((r.st.ct.stream syms).length + m) k n 0 r =
        decodeWalk p m (k + (r.st.ct.stream syms).length) (n + syms.length) 0 r' := by
  induction syms generalizing m k n r with
  | nil => exact ⟨r, rfl, h, by simpa [Table.stream] using hb, by simp [Table.stream]⟩
  | cons x syms ih =>
    have hs : r.st.ct.stream (x :: syms) = (r.st.entry x).word ++ r.st.ct.stream syms := rfl
    rw [hs] at hb ho ⊢
    rw [List.append_assoc] at hb ho
    obtain ⟨hb1, hb2⟩ := State.bitsFrom_append hb
    simp only [List.length_cons] at hn
    have hlen : ((r.st.entry x).word ++ r.st.ct.stream syms).length + m =
        (r.st.entry x).word.length + ((r.st.ct.stream syms).length + m) := by simp; omega
    obtain ⟨r', e1, e2, e3, e4⟩ := ih (m := m) (k := k + (r.st.entry x).word.length) (n := n + 1)
      (r := r.memWrite (r.st.dst.toNat + n) x) h.memWrite (fun y hy => hx y (by simp [hy])) (by
        simp only [Run.memWrite_fields]; omega)
      (State.bitsFrom_memWrite hb2 fun i hi => by
        have := ho ((r.st.entry x).word.length + i) (by simp at hi ⊢; omega) n (by omega)
        rwa [← Nat.add_assoc] at this)
      (fun i hi j hj => by
        have := ho ((r.st.entry x).word.length + i) (by
          simp only [Run.memWrite_fields] at hi; simp at hi ⊢; omega) j hj
        rwa [← Nat.add_assoc] at this)
    refine ⟨r', e1, e2, ?_, ?_⟩
    · simp only [Run.memWrite_fields] at e3; rw [List.length_append, ← Nat.add_assoc]; exact e3
    · rw [hlen, decodeWalk_codeword h (hx x (by simp)) hb1, if_neg (by omega)]
      simp only [Run.memWrite_fields] at e4
      rw [e4]
      congr 1
      · simp; omega
      · simp only [List.length_cons]; omega

/-! ### DECODE -/

/-- When DECODE may walk, its body is the walk over the `B` bits. -/
theorem decodeBody_ready {s : State} (hw : s.windowsGood) (ht : s.status.treeValid = true) {p B : Nat}
    (ha : s.holdsArtifact p B) : decodeBody (startStep s) = decodeWalk p B 0 0 0 (startStep s) := by
  obtain ⟨h1, h2, h3⟩ := (windowsGood_iff s).1 hw
  obtain ⟨ha1, ha2, ha3⟩ := ha
  have e0 : s.srcLen ≠ 0#32 := by rintro e; rw [e] at ha1; simp at ha1
  have e1 : (startState s).header = p := ha2
  have e2 : (startState s).payloadBits = B + p := ha3
  simp only [decodeBody, startStep_st, startState_windows, h1, h2, h3, startState_fields, ht, e0, e1, e2]
  simp

/-- From the root of a good tree the walk over the codewords of `syms`, then whatever the rest is. -/
theorem decodeBody_symbols {s : State} (hw : s.windowsGood) (ht : s.status.treeValid = true) (htr : TreeFacts s) {p B : Nat} (ha : s.holdsArtifact p B) (syms : List Byte)
    (hx : ∀ x ∈ syms, (s.entry x).len ≠ 0#8) (hn : syms.length ≤ s.dstCap.toNat) (rest : List Bool)
    (hl : (s.ct.stream syms ++ rest).length ≤ B) (hb : s.payloadBegins (s.ct.stream syms ++ rest)) :
    ∃ r, r = (startStep s).memWriteAll s.dst.toNat syms ∧ TreeFacts r.st ∧
      r.st.bitsFrom (s.ct.stream syms).length rest ∧
      decodeBody (startStep s) =
        decodeWalk p (B - (s.ct.stream syms).length) (s.ct.stream syms).length syms.length 0 r := by
  have hT : TreeFacts (startStep s).st := htr.congr rfl fun _ => rfl
  have hout : ∀ i < (s.ct.stream syms ++ rest).length, ∀ j < s.dstCap.toNat,
      s.src.toNat + 1 + (0 + i) / 8 ≠ s.dst.toNat + j := by
    intro i hi j hj
    obtain ⟨-, -, h3⟩ := ha
    have := windowsGood_ne hw (i := 1 + i / 8) (by omega) hj
    rw [Nat.zero_add, Nat.add_assoc]; exact this
  obtain ⟨r, e1, e2, e3, e4⟩ := decodeWalk_symbols (p := p) syms (m := B - (s.ct.stream syms).length) (k := 0) (n := 0)
    (r := startStep s) hT hx (by simpa using hn) (rest := rest)
    (fun i hi => by rw [Nat.zero_add]; exact hb i hi) hout
  refine ⟨r, by simpa using e1, e2, by simpa using e3, ?_⟩
  rw [decodeBody_ready hw ht ha]
  have : B = (s.ct.stream syms).length + (B - (s.ct.stream syms).length) := by
    simp only [List.length_append] at hl; omega
  conv_lhs => rw [this]
  simp only [startStep_st, startState_fields, Nat.zero_add] at e4
  exact e4

end Sys2Proof.Machine
end

