-- ==== Sys2Proof/Laws/Commands.lean ====
section
/-! SUPPORT. What any command can do, said once (40_table_access.md to 43_decode_tree_walker.md, 60_exceptions.md R83):
the one inversion lemma `exec_cases`, and that a command's results depend on memory through its source window only. -/

namespace Sys2Proof.Machine

/-- The fields a command may change besides its record and data memory. -/
structure Effect where
  ct : Table
  arena : Arena
  arenaDraw : Draw
  nodeCount : Word
  elen : Byte
  ecode : Vector Word 8
  treeValid : Bool

/-- The effect that changes nothing. -/
def State.noEffect (s : State) : Effect :=
  { ct := s.ct, arena := s.arena, arenaDraw := s.arenaDraw, nodeCount := s.nodeCount, elen := s.elen
    ecode := s.ecode, treeValid := s.status.treeValid }

/-- A state with an effect applied and bytes written at `DST`. -/
def State.affected (s : State) (e : Effect) (bs : List Byte) : State :=
  { s with
    ct := e.ct, arena := e.arena, arenaDraw := e.arenaDraw, nodeCount := e.nodeCount, elen := e.elen
    ecode := e.ecode, status := { s.status with treeValid := e.treeValid }
    dmem := s.dmem.writeBytes s.dst.toNat bs }

/-- A command's outcome: the effect, the bytes it writes, and the record. -/
inductive Ending (s : State) (i : Instr) (e : Effect) (bs : List Byte) : Prop where
  | ok (o b p n : Nat) (h : exec i s = .next ((s.affected e bs).okRecord o b p n))
  | err (c : ErrCode) (pos : Nat) (h : exec i s = .next ((s.affected e bs).errRecord c.byte.toNat pos bs.length))
      (hbs : bs ≠ [] → i = .decode ∧ (c = .dstOverflow ∨ c = .decodeNullChild ∨ c = .decodeTruncated))

/-- Which effects each command may have. -/
def effectAllowed (s : State) (i : Instr) (e : Effect) : Prop :=
  match i with
  | .nop | .tableStore | .encode | .decode => e = s.noEffect
  | .tableClear => e = { s.noEffect with ct := Table.empty, treeValid := false }
  | .entryWrite => e = { s.noEffect with ct := s.ct.put s.esym s.stagedEntry, treeValid := false }
  | .entryRead => e = { s.noEffect with
      elen := (s.entry s.esym).len
      ecode := ecodeOf fun i => decide (i < (s.entry s.esym).len.toNat) && (s.entry s.esym).pos i }
  | .tableLoad => e = s.noEffect ∨
      (e.treeValid = false ∧ e = { s.noEffect with ct := e.ct, treeValid := false } ∧ ∀ x, (e.ct.get x).zeroTail)
  | .treeBuild =>
      (e = { s.noEffect with arena := [], arenaDraw := s.arenaDraw.next, nodeCount := 0#32, treeValid := false }) ∨
      ∃ t, buildTree s.arenaDraw s.arena s.ct = .ok t ∧
        e = { s.noEffect with arena := t.arena, nodeCount := BitVec.ofNat 32 t.count, treeValid := true }

/-- A failure that wrote nothing. -/
theorem raise_start (s : State) (c : ErrCode) (pos : Nat) :
    complete noErrorEffect (.raised (startStep s) c pos) =
      (s.affected s.noEffect []).errRecord c.byte.toNat pos 0 := by
  have h := completeError_start s c c.byte.toNat (by simp) pos
  simp only [complete, noErrorEffect]
  rw [h]; rfl

theorem loadRecords_zeroTail {s : State} {n o : Nat} {ct : Table} {r : Nat × Table} (hz : ∀ x, (ct.get x).zeroTail)
    (h : loadRecords s n o ct = .ok r) : ∀ x, (r.2.get x).zeroTail := by
  induction n generalizing o ct with
  | zero => cases h; exact hz
  | succ n ih =>
    rw [loadRecords] at h
    cases hr : loadRecord s o ct with
    | error e => rw [hr] at h; cases h
    | ok q =>
      rw [hr] at h
      refine ih ?_ h
      rw [loadRecord] at hr
      revert hr
      cases s.imageByte o with
      | none => intro hr; cases hr
      | some sym =>
        simp only
        split_ifs
        · intro hr; cases hr
        · cases s.imageByte (o + 1) with
          | none => intro hr; cases hr
          | some len =>
            simp only
            split_ifs
            · intro hr; cases hr
            · cases loadBits s len.toNat (o + 2) with
              | error e => intro hr; cases hr
              | ok w =>
                intro hr; cases hr
                intro x
                rw [Table.get_put]
                split_ifs
                · exact CTEntry.make_zeroTail _ _
                · exact hz x

theorem loadImage_zeroTail {s : State} {r : Nat × Table} (h : loadImage s = .ok r) : ∀ x, (r.2.get x).zeroTail := by
  rw [loadImage] at h
  revert h
  cases s.imageByte 0 with
  | none => intro h; cases h
  | some lo =>
    cases s.imageByte 1 with
    | none => intro h; cases h
    | some hi =>
      simp only
      split_ifs
      · intro h; cases h
      · cases hr : loadRecords s (lo.toNat + 256 * hi.toNat) 2 Table.empty with
        | error e => intro h; cases h
        | ok q =>
          simp only
          split_ifs
          · intro h; cases h
          · intro h; cases h
            exact loadRecords_zeroTail (r := q) (fun x => by rw [Table.get_empty]; exact CTEntry.empty_zeroTail) hr

/-- Everything a command can do. -/
theorem exec_cases (i : Instr) (s : State) : ∃ e bs, effectAllowed s i e ∧ bs.length ≤ s.dstCap.toNat ∧
    (bs ≠ [] → s.dst.toNat + s.dstCap.toNat ≤ 65536) ∧ Ending s i e bs := by
  have F := dstFits_iff s
  cases i with
  | nop => exact ⟨_, [], rfl, Nat.zero_le _, by simp, .ok 0 0 0 0 rfl⟩
  | tableClear => exact ⟨_, [], rfl, Nat.zero_le _, by simp, .ok 0 0 0 0 rfl⟩
  | entryWrite => exact ⟨_, [], rfl, Nat.zero_le _, by simp, .ok 0 0 0 0 rfl⟩
  | entryRead => exact ⟨_, [], rfl, Nat.zero_le _, by simp, .ok 0 0 0 0 rfl⟩
  | tableStore =>
    have he : exec .tableStore s = .next (complete noErrorEffect (tableStoreBody (startStep s))) := rfl
    simp only [tableStoreBody, startStep_st, startState_windows, startState_fields] at he
    cases h : s.dstFits
    · refine ⟨_, [], rfl, Nat.zero_le _, by simp, .err .range 1 ?_ (by simp)⟩
      rw [he, h]; rfl
    · simp only [h, Bool.not_true, Bool.false_eq_true, if_false] at he
      by_cases h2 : s.ct.imageSize > s.dstCap.toNat
      · refine ⟨_, [], rfl, Nat.zero_le _, by simp, .err .dstOverflow s.ct.imageSize ?_ (by simp)⟩
        rw [he, if_pos h2]; rfl
      · refine ⟨_, s.ct.image, rfl, ?_, fun _ => F.1 h, .ok s.ct.imageSize 0 0 s.ct.canonical.length ?_⟩
        · rw [image_eq, ← imageSize_eq]; omega
        · rw [he, if_neg h2, Run.memWriteAll_eq]; rfl
  | tableLoad =>
    have he := exec_tableLoad s
    by_cases hw : s.src.toNat + s.srcLen.toNat ≤ 65536
    · rw [if_pos hw] at he
      revert he
      cases hi : loadImage s with
      | error o =>
        intro he
        exact ⟨{ s.noEffect with ct := Table.empty, treeValid := false }, [],
          .inr ⟨rfl, rfl, fun x => by rw [Table.get_empty]; exact CTEntry.empty_zeroTail⟩, Nat.zero_le _, by simp,
          .err .tableFormat o he (by simp)⟩
      | ok r =>
        intro he
        exact ⟨{ s.noEffect with ct := r.2, treeValid := false }, [], .inr ⟨rfl, rfl, loadImage_zeroTail hi⟩,
          Nat.zero_le _, by simp, .ok 0 0 0 r.1 he⟩
    · rw [if_neg hw] at he
      exact ⟨_, [], .inl rfl, Nat.zero_le _, by simp, .err .range 0 he (by simp)⟩
  | encode =>
    have he := encode_exec s
    rcases encodeBody_cases s with ⟨hw, h2, h3, r, h4, -⟩ | ⟨c, pos, h, -⟩
    · refine ⟨_, artifact s.ct s.ctrl.padMode s.inputSymbols, rfl, ?_, fun _ => hw.2.1, ?_⟩
      · rw [artifact_length]; exact h3
      · have h5 := firstUncovered_eq_none.2 h2
        obtain ⟨k1, k2, k3⟩ := (windowsGood_iff s).1 hw
        have h6 : ¬ 1 + payloadBytes (streamBits s.ct s.inputSymbols) s.ctrl.padMode > s.dstCap.toNat := by omega
        simp only [encodeBody, startStep_st, startState_windows, startState_inputSymbols, startState_fields, k1, k2, k3,
          h5, if_neg h6, Bool.not_true, Bool.false_eq_true, if_false] at he
        refine .ok (1 + payloadBytes (streamBits s.ct s.inputSymbols) s.ctrl.padMode)
          (streamBits s.ct s.inputSymbols) (padding (streamBits s.ct s.inputSymbols) s.ctrl.padMode) s.srcLen.toNat ?_
        rw [he, Run.memWriteAll_eq]
        simp only [State.okRecord, BitVec.ofNat_toNat, BitVec.setWidth_eq]
        rfl
    · refine ⟨_, [], rfl, Nat.zero_le _, by simp, .err c pos ?_ (by simp)⟩
      rw [he, h, raise_start]; rfl
  | treeBuild =>
    have he := exec_treeBuild s
    revert he
    cases hb : buildTree s.arenaDraw s.arena s.ct with
    | error e =>
      intro he
      exact ⟨_, [], .inl rfl, Nat.zero_le _, by simp, .err e.1 e.2.toNat he (by simp)⟩
    | ok t =>
      intro he
      exact ⟨_, [], .inr ⟨t, hb, rfl⟩, Nat.zero_le _, by simp, .ok 0 0 0 s.ct.present.length he⟩
  | decode =>
    have he : exec .decode s = .next (complete noErrorEffect (decodeBody (startStep s))) := rfl
    have raise : ∀ c pos, decodeBody (startStep s) = .raised (startStep s) c pos →
        Ending s .decode s.noEffect [] := fun c pos h => by
      refine .err c pos ?_ (by simp)
      rw [he, h, raise_start]; rfl
    have key : ∃ bs, bs.length ≤ s.dstCap.toNat ∧ (bs ≠ [] → s.dstFits = true) ∧ Ending s .decode s.noEffect bs := by
      by_cases h1 : s.srcFits = true
      · by_cases h2 : s.dstFits = true
        · cases h3 : s.overlap
          · cases h4 : s.status.treeValid
            · exact ⟨[], Nat.zero_le _, by simp, raise .noTree 0 (by simp [decodeBody, h1, h2, h3, h4])⟩
            · by_cases h5 : s.srcLen = 0#32
              · exact ⟨[], Nat.zero_le _, by simp, raise .artifactEmpty 0 (by simp [decodeBody, h1, h2, h3, h4, h5])⟩
              · by_cases h6 : (startStep s).st.header > (startStep s).st.payloadBits
                · refine ⟨[], Nat.zero_le _, by simp, raise .padExceeds (startStep s).st.header ?_⟩
                  unfold decodeBody
                  rw [if_neg (by simp [h1]), if_neg (by simp [h2]), if_neg (by simp [h3]), if_neg (by simp [h4]),
                    if_neg (by simp [h5]), if_pos h6]
                · have hd : decodeBody (startStep s) = decodeWalk (startStep s).st.header
                      ((startStep s).st.payloadBits - (startStep s).st.header) 0 0 0 (startStep s) := by
                    unfold decodeBody
                    rw [if_neg (by simp [h1]), if_neg (by simp [h2]), if_neg (by simp [h3]), if_neg (by simp [h4]),
                      if_neg (by simp [h5]), if_neg h6]
                  obtain ⟨out, g1, g2⟩ := decodeWalk_cases (startStep s).st.header
                    ((startStep s).st.payloadBits - (startStep s).st.header) 0 0 0 (startStep s) (by simp)
                  simp only [startStep_st, startState_fields, Nat.zero_add, Nat.add_zero] at g1 g2
                  refine ⟨out, g1, fun _ => h2, ?_⟩
                  rcases g2 with g2 | ⟨c, q, hc, g2⟩
                  · refine .ok out.length ((startStep s).st.payloadBits - (startStep s).st.header)
                      (startStep s).st.header out.length ?_
                    rw [he, hd]
                    simp only [startStep_st]
                    rw [g2, Run.memWriteAll_eq]; rfl
                  · refine .err c q ?_ fun _ => ⟨rfl, ?_⟩
                    · rw [he, hd]
                      simp only [startStep_st]
                      rw [g2, Run.memWriteAll_eq]
                      simp only [complete, noErrorEffect, completeError, State.errRecord, BitVec.ofNat_toNat,
                        BitVec.setWidth_eq, startStep_written, Nat.zero_add]
                      rfl
                    · rcases hc with h | h | h <;> simp [h]
          · exact ⟨[], Nat.zero_le _, by simp, raise .overlap 0 (by simp [decodeBody, h1, h2, h3])⟩
        · exact ⟨[], Nat.zero_le _, by simp, raise .range 1 (by simp [decodeBody, h1, h2])⟩
      · exact ⟨[], Nat.zero_le _, by simp, raise .range 0 (by simp [decodeBody, h1])⟩
    obtain ⟨bs, k1, k2, k3⟩ := key
    exact ⟨s.noEffect, bs, rfl, k1, fun h => F.1 (k2 h), k3⟩

end Sys2Proof.Machine
end

