-- ==== Sys2Proof/Laws/HostPort.lean ====
section
/-! SUPPORT. The host port (10_state.md R16 to R25; 20_memory.md R37 to R44): where an offset leads, what an access of
a register is, what no access changes, and that data memory keeps its canonical form. -/

namespace Sys2Proof.Machine

/-! ### Targets -/

theorem hostAccess_rd_reg (s : State) (off : BitVec 17) (r : Reg) (h : target32 off = some (.reg r)) :
    hostAccess (.rd32 off) s = hostRead s (.reg r) := by
  simp [hostAccess, HostAccess.target, h]

theorem hostAccess_wr_reg (s : State) (off : BitVec 17) (r : Reg) (h : target32 off = some (.reg r)) (v : Word) :
    hostAccess (.wr32 off v) s = hostWrite s (.reg r) v := by
  simp [hostAccess, HostAccess.target, h]

theorem target32_mem {a : Nat} (ha : a < 65536) (h4 : a % 4 = 0) :
    target32 (BitVec.ofNat 17 (0x10000 + a)) = some (.word a) := by
  have e : (BitVec.ofNat 17 (0x10000 + a)).toNat = 0x10000 + a := by rw [BitVec.toNat_ofNat]; omega
  rw [target32, e, if_neg (by omega), if_neg (by simp [Config.dmemWindow])]
  simp [Config.dmemWindow]

theorem target8_mem {a : Nat} (ha : a < 65536) : target8 (BitVec.ofNat 17 (0x10000 + a)) = some (.byte a) := by
  have e : (BitVec.ofNat 17 (0x10000 + a)).toNat = 0x10000 + a := by rw [BitVec.toNat_ofNat]; omega
  rw [target8, e, if_neg (by simp [Config.dmemWindow])]
  simp [Config.dmemWindow]

/-- No register stands at an offset from 0x068 up (R16). -/
theorem regAt_none {n : Nat} (h : 0x068 ≤ n) : regAt n = none := by
  rw [regAt, List.find?_eq_none]
  intro r _
  cases r <;> simp only [Reg.offset, beq_iff_eq] <;> omega

/-- A target is a register or lies in data memory whole. -/
def Target.inMemory : Target → Prop
  | .reg _ => True
  | .byte x => x < 65536
  | .word x => x + 4 ≤ 65536

theorem target_inMemory {a : HostAccess} {t : Target} (h : a.target = some t) : t.inMemory := by
  have h8 : ∀ off, target8 off = some t → t.inMemory := by
    intro off h
    rw [target8] at h; split_ifs at h; cases h
    have := off.isLt; simp [Config.dmemWindow, Target.inMemory] at *; omega
  have h32 : ∀ off, target32 off = some t → t.inMemory := by
    intro off h
    rw [target32] at h; split_ifs at h with h1 h2
    · cases hr : regAt off.toNat with
      | none => rw [hr] at h; cases h
      | some r => rw [hr] at h; cases h; trivial
    · cases h
      have := off.isLt; simp [Config.dmemWindow, Target.inMemory] at *; omega
  cases a with
  | rd8 off => exact h8 _ h
  | wr8 off b => exact h8 _ h
  | rd32 off => exact h32 _ h
  | wr32 off v => exact h32 _ h
  | otherWidth => cases h

/-! ### What any access does -/

/-- Everything an access can do: the error response, a read, or a write of some value to its target. -/
theorem hostAccess_cases (a : HostAccess) (s : State) :
    hostAccess a s = s.respond .error ∨
    ∃ t, t.inMemory ∧ (hostAccess a s = hostRead s t ∨ ∃ v, hostAccess a s = hostWrite s t v) := by
  rw [hostAccess]
  cases ht : a.target with
  | none => exact .inl rfl
  | some t =>
    refine .inr ⟨t, target_inMemory ht, ?_⟩
    cases a with
    | rd8 off => exact .inl rfl
    | wr8 off b => exact .inr ⟨_, rfl⟩
    | rd32 off => exact .inl rfl
    | wr32 off v => exact .inr ⟨_, rfl⟩
    | otherWidth off => exact .inl rfl

/-- What no access changes: `TREE_VALID`, `BUSY` unless it accepts a command, the result registers, the code table,
the arena, the reset input and the draws of memory contents. -/
theorem hostAccess_frame (s : State) (a : HostAccess) :
    (hostAccess a s).status.treeValid = s.status.treeValid ∧
    (s.status.busy = true → (hostAccess a s).status.busy = true) ∧
    (hostAccess a s).errCode = s.errCode ∧ (hostAccess a s).errPos = s.errPos ∧
    (hostAccess a s).outLen = s.outLen ∧ (hostAccess a s).bitLen = s.bitLen ∧ (hostAccess a s).pad = s.pad ∧
    (hostAccess a s).symCount = s.symCount ∧ (hostAccess a s).nodeCount = s.nodeCount ∧
    (hostAccess a s).ct = s.ct ∧ (hostAccess a s).arena = s.arena ∧ (hostAccess a s).arenaDraw = s.arenaDraw ∧
    (hostAccess a s).dmemDraw = s.dmemDraw ∧ (hostAccess a s).resetLine = s.resetLine ∧
    (hostAccess a s).agenda = s.agenda := by
  obtain h | ⟨t, -, h | ⟨v, h⟩⟩ := hostAccess_cases a s
  · rw [h]; exact ⟨rfl, id, rfl, rfl, rfl, rfl, rfl, rfl, rfl, rfl, rfl, rfl, rfl, rfl, rfl⟩
  · rw [h, hostRead]
    split_ifs <;> exact ⟨rfl, id, rfl, rfl, rfl, rfl, rfl, rfl, rfl, rfl, rfl, rfl, rfl, rfl, rfl⟩
  · rw [h, hostWrite]
    split_ifs
    · exact ⟨rfl, id, rfl, rfl, rfl, rfl, rfl, rfl, rfl, rfl, rfl, rfl, rfl, rfl, rfl⟩
    · cases t with
      | byte x => exact ⟨rfl, id, rfl, rfl, rfl, rfl, rfl, rfl, rfl, rfl, rfl, rfl, rfl, rfl, rfl⟩
      | word x => exact ⟨rfl, id, rfl, rfl, rfl, rfl, rfl, rfl, rfl, rfl, rfl, rfl, rfl, rfl, rfl⟩
      | reg r =>
        cases r <;> first
          | exact ⟨rfl, id, rfl, rfl, rfl, rfl, rfl, rfl, rfl, rfl, rfl, rfl, rfl, rfl, rfl⟩
          | exact ⟨rfl, fun _ => rfl, rfl, rfl, rfl, rfl, rfl, rfl, rfl, rfl, rfl, rfl, rfl, rfl, rfl⟩

/-- An access keeps the canonical form of data memory. -/
theorem hostAccess_dmemWf {s : State} (h : s.dmem.wf) (a : HostAccess) : (hostAccess a s).dmem.wf := by
  obtain e | ⟨t, ht, e | ⟨v, e⟩⟩ := hostAccess_cases a s
  · rw [e]; exact h
  · rw [e, hostRead]; split_ifs <;> exact h
  · rw [e, hostWrite]
    split_ifs
    · exact h
    · cases t with
      | byte x => exact Memory.wf_writeBytes h _ ht
      | word x => exact Memory.wf_writeBytes h _ ht
      | reg r => cases r <;> exact h

end Sys2Proof.Machine
end

