-- ==== Sys2Proof/Laws/PerInstr.lean ====
section
/-! SUPPORT. Statements made per command. Family `Encoding`: a command is well formed, its word passes the two checks of
a command word (30_encoding.md R49, R51), and the decoder reads the command back from it. -/

/-- The family `Encoding`. -/
def Sys2Proof.Laws.Encoding.Statement (i : Sys2Proof.Instr) : Prop :=
  i.wellFormed = true ∧ Sys2Proof.wordWellFormed (Sys2Proof.encode i) = true ∧
    Sys2Proof.decode (Sys2Proof.encode i) = .ok i ∧
    Sys2Proof.decodeTableWord 32 (Sys2Proof.encode i).toNat = some i

theorem Sys2Proof.Laws.Encoding.nop : Sys2Proof.Laws.Encoding.Statement .nop := ⟨rfl, rfl, rfl, rfl⟩

theorem Sys2Proof.Laws.Encoding.tableClear : Sys2Proof.Laws.Encoding.Statement .tableClear := ⟨rfl, rfl, rfl, rfl⟩

theorem Sys2Proof.Laws.Encoding.entryWrite : Sys2Proof.Laws.Encoding.Statement .entryWrite := ⟨rfl, rfl, rfl, rfl⟩

theorem Sys2Proof.Laws.Encoding.entryRead : Sys2Proof.Laws.Encoding.Statement .entryRead := ⟨rfl, rfl, rfl, rfl⟩

theorem Sys2Proof.Laws.Encoding.tableStore : Sys2Proof.Laws.Encoding.Statement .tableStore := ⟨rfl, rfl, rfl, rfl⟩

theorem Sys2Proof.Laws.Encoding.tableLoad : Sys2Proof.Laws.Encoding.Statement .tableLoad := ⟨rfl, rfl, rfl, rfl⟩

theorem Sys2Proof.Laws.Encoding.encode : Sys2Proof.Laws.Encoding.Statement .encode := ⟨rfl, rfl, rfl, rfl⟩

theorem Sys2Proof.Laws.Encoding.treeBuild : Sys2Proof.Laws.Encoding.Statement .treeBuild := ⟨rfl, rfl, rfl, rfl⟩

theorem Sys2Proof.Laws.Encoding.decode : Sys2Proof.Laws.Encoding.Statement .decode := ⟨rfl, rfl, rfl, rfl⟩
end

