-- ==== Sys2Proof/Laws/Step.lean ====
section
/-! SUPPORT. What one step can do, said once (60_exceptions.md R81; 70_reset_and_hazards.md R93), and that every step
keeps the canonical forms of data memory and arena. -/

namespace Sys2Proof.Machine

/-- What a step can make of a state, with the agenda `l` left over: the pending command's transition, nothing, one
host access, or a reset. -/
inductive Happens (s t : State) (l : List Turn) : Prop where
  | command (hr : s.resetLine = false) (hb : s.status.busy = true)
      (h : runPending { s with agenda := l } = .next t)
  | idle (h : t = { s with agenda := l })
  | access (hr : s.resetLine = false) (a : HostAccess) (h : t = hostAccess a { s with agenda := l })
  | reset (level : Bool) (h : t = State.applyReset { s with agenda := l } level)

/-- Everything a step can do. -/
theorem step_cases {s t : State} (h : step s = .next t) : ∃ l, Happens s t l := by
  have key : ∀ l x, takeTurn x { s with agenda := l } = .next t → Happens s t l := by
    intro l x
    cases x with
    | engine =>
      intro ht
      rw [takeTurn, engineTurn] at ht
      by_cases hp : State.pending { s with agenda := l } = true
      · rw [if_pos hp] at ht
        simp [State.pending] at hp
        exact .command hp.2 hp.1 ht
      · rw [if_neg hp] at ht
        cases ht; exact .idle rfl
    | host a =>
      intro ht
      simp only [takeTurn, hostTurn] at ht
      split_ifs at ht with hp
      cases ht; exact .access (by simpa using hp) a rfl
    | assertReset => intro ht; cases ht; exact .reset true rfl
    | releaseReset =>
      intro ht
      cases ht
      simp only [releaseTurn]
      split_ifs
      · exact .reset false rfl
      · exact .idle rfl
  rw [step, nextTurn] at h
  cases ha : s.agenda with
  | nil => rw [ha] at h; refine ⟨[], key [] .engine ?_⟩; rw [← ha]; exact h
  | cons x l => rw [ha] at h; exact ⟨l, key l x h⟩

/-- The transition on an illegal word is a failure that writes nothing. -/
theorem runIllegal_eq (s : State) : runIllegal s = s.errRecord 1 0 0 := by
  rw [← completeError_start s .illegalCmd 1 rfl 0]; rfl

/-- A command keeps the canonical form of data memory. -/
theorem exec_dmemWf {i : Instr} {s t : State} (hs : s.dmem.wf) (h : exec i s = .next t) : t.dmem.wf := by
  obtain ⟨e, bs, -, hl, hd, hend⟩ := exec_cases i s
  have hdm : (s.dmem.writeBytes s.dst.toNat bs).wf := by
    by_cases hne : bs = []
    · subst hne; exact hs
    · have := hd hne
      exact Memory.wf_writeBytes hs bs (by simp [Config.dmemSize]; omega)
  cases hend with
  | ok o b p n h' => rw [h'] at h; cases h; exact hdm
  | err c pos h' => rw [h'] at h; cases h; exact hdm

/-- A command keeps the canonical form of the arena. -/
theorem exec_arenaWf {i : Instr} {s t : State} (hs : s.arena.wf) (h : exec i s = .next t) : t.arena.wf := by
  obtain ⟨e, bs, he, -, -, hend⟩ := exec_cases i s
  have key : Arena.wf e.arena := by
    cases i with
    | treeBuild =>
      rcases he with rfl | ⟨b, hb, rfl⟩
      · exact cellsWf_nil _
      · exact (arenaWf_build (cellsWf_writeCell hs (by decide) _) (by simp [Builder.root]) hb).1
    | tableLoad =>
      rcases he with rfl | ⟨-, h2, -⟩
      · exact hs
      · rw [h2]; exact hs
    | _ => cases he; exact hs
  cases hend with
  | ok o b p n h' => rw [h'] at h; cases h; exact key
  | err c pos h' => rw [h'] at h; cases h; exact key

/-- Every step keeps the canonical form of data memory. -/
theorem step_dmemWf {s t : State} (hs : s.dmem.wf) (h : step s = .next t) : t.dmem.wf := by
  obtain ⟨l, hl⟩ := step_cases h
  cases hl with
  | command hr hb h =>
    rw [runPending] at h
    cases hd : decode s.cmd with
    | ok i => simp only [hd] at h; exact exec_dmemWf (s := { s with agenda := l }) hs h
    | error e => simp only [hd] at h; cases h; exact hs
  | idle h => rw [h]; exact hs
  | access hr a h => rw [h]; exact hostAccess_dmemWf (s := { s with agenda := l }) hs a
  | reset level h => rw [h]; exact cellsWf_nil _

/-- Reset memory has the canonical form. -/
theorem reset_dmemWf : State.reset.dmem.wf := cellsWf_nil _

end Sys2Proof.Machine
end

