-- ==== Sys2Proof/Laws/Platform.lean ====
section
/-! SUPPORT. What one step of a platform can do, said once (60_exceptions.md R91), where an address leads, and that an
HBE's draws stay its own. -/

namespace Sys2Proof.Machine

@[simp] theorem Draw.next_unit (d : Draw) : d.next.unit = d.unit := rfl

/-- `t` takes its unspecified values from draws of the HBE that `s` is. -/
def State.sameUnit (s t : State) : Prop :=
  t.dmemDraw.unit = s.dmemDraw.unit ∧ t.arenaDraw.unit = s.arenaDraw.unit ∧ t.draws.unit = s.draws.unit

/-- A command draws from its own HBE. -/
theorem exec_sameUnit {i : Instr} {s t : State} (h : exec i s = .next t) : s.sameUnit t := by
  obtain ⟨e, bs, he, -, -, hend⟩ := exec_cases i s
  have key : e.arenaDraw.unit = s.arenaDraw.unit := by
    cases i with
    | treeBuild => rcases he with rfl | ⟨b, hb, rfl⟩ <;> rfl
    | tableLoad =>
      rcases he with rfl | ⟨-, h3, -⟩
      · rfl
      · rw [h3]; rfl
    | _ => cases he; rfl
  cases hend with
  | ok o b p n h' => rw [h'] at h; cases h; exact ⟨rfl, key, rfl⟩
  | err c pos h' => rw [h'] at h; cases h; exact ⟨rfl, key, rfl⟩

/-- An access draws from its own HBE. -/
theorem hostAccess_sameUnit (s : State) (a : HostAccess) : s.sameUnit (hostAccess a s) := by
  obtain h | ⟨t, -, h | ⟨v, h⟩⟩ := hostAccess_cases a s
  · rw [h]; exact ⟨rfl, rfl, rfl⟩
  · rw [h, hostRead]; split_ifs <;> exact ⟨rfl, rfl, rfl⟩
  · rw [h, hostWrite]
    split_ifs
    · exact ⟨rfl, rfl, rfl⟩
    · cases t with
      | byte x => exact ⟨rfl, rfl, rfl⟩
      | word x => exact ⟨rfl, rfl, rfl⟩
      | reg r => cases r <;> exact ⟨rfl, rfl, rfl⟩

/-- Every step draws from its own HBE. -/
theorem step_sameUnit {s t : State} (h : step s = .next t) : s.sameUnit t := by
  obtain ⟨l, hl⟩ := step_cases h
  cases hl with
  | command hr hb h =>
    rw [runPending] at h
    cases hd : decode s.cmd with
    | ok i => simp only [hd] at h; exact exec_sameUnit (s := { s with agenda := l }) h
    | error e => simp only [hd] at h; cases h; exact ⟨rfl, rfl, rfl⟩
  | idle h => rw [h]; exact ⟨rfl, rfl, rfl⟩
  | access hr a h => rw [h]; exact hostAccess_sameUnit { s with agenda := l } a
  | reset level h => rw [h]; exact ⟨rfl, rfl, rfl⟩

/-! ### Steps of a platform -/

/-- A turn of an HBE that takes its step. -/
theorem Platform.turnAt_next {p : Platform} {k : Nat} {sl : PlatformSlot} {t : Turn} {s : State} (hk : p[k]? = some sl)
    (h : step { sl.hbe with agenda := t :: sl.hbe.agenda } = .next s) :
    p.turnAt k t = .next (p.set k { sl with hbe := s }) := by
  simp only [Platform.turnAt, hk, h]

/-- Everything a turn at a place can do. -/
theorem Platform.turnAt_cases {p p' : Platform} {k : Nat} {t : Turn} (h : p.turnAt k t = .next p') :
    p' = p ∨ ∃ sl s, p[k]? = some sl ∧ step { sl.hbe with agenda := t :: sl.hbe.agenda } = .next s ∧
      p' = p.set k { sl with hbe := s } := by
  rw [Platform.turnAt] at h
  cases hk : p[k]? with
  | none => rw [hk] at h; cases h; exact .inl rfl
  | some sl =>
    simp only [hk] at h
    cases hs : step { sl.hbe with agenda := t :: sl.hbe.agenda } with
    | next s => rw [hs] at h; cases h; exact .inr ⟨sl, s, rfl, hs, rfl⟩
    | fault f => cases f
    | refused r => rw [hs] at h; cases h

/-- Everything a step of a platform can do: nothing, or one step of one HBE. -/
theorem platformStep_cases {p p' : Platform} {t : PlatformTurn} (h : platformStep p t = .next p') :
    p' = p ∨ ∃ k sl x s, p[k]? = some sl ∧ step { sl.hbe with agenda := x :: sl.hbe.agenda } = .next s ∧
      p' = p.set k { sl with hbe := s } := by
  have key : ∀ k x, p.turnAt k x = .next p' → p' = p ∨ ∃ k sl x s, p[k]? = some sl ∧
      step { sl.hbe with agenda := x :: sl.hbe.agenda } = .next s ∧ p' = p.set k { sl with hbe := s } := by
    intro k x hx
    rcases Platform.turnAt_cases hx with h | ⟨sl, s, h⟩
    · exact .inl h
    · exact .inr ⟨k, sl, x, s, h⟩
  cases t with
  | bus addr op =>
    rw [platformStep] at h
    cases hr : p.route addr with
    | none => rw [hr] at h; cases h; exact .inl rfl
    | some r => rw [hr] at h; exact key _ _ h
  | engine k => exact key k .engine h
  | assertReset k => exact key k .assertReset h
  | releaseReset k => exact key k .releaseReset h

/-! ### Where an address leads -/

theorem platformOffset_inside (base : Nat) (off : BitVec 17) : platformOffset base (base + off.toNat) = some off := by
  have := off.isLt
  rw [platformOffset, if_pos ⟨by omega, by simp only [Config.dmemWindow]; omega⟩]
  simp

theorem platformOffset_outside {base addr : Nat} (h : addr < base ∨ base + 0x20000 ≤ addr) :
    platformOffset base addr = none := by
  rw [platformOffset, if_neg]
  simp only [Config.dmemWindow]; omega

/-- An address in no HBE's windows leads nowhere. -/
theorem Platform.route_none {p : Platform} {addr : Nat}
    (h : ∀ sl ∈ p, addr < sl.base ∨ sl.base + 0x20000 ≤ addr) : p.route addr = none := by
  induction p with
  | nil => rfl
  | cons sl p ih =>
    rw [Platform.route, platformOffset_outside (h sl (by simp)), ih fun x hx => h x (by simp [hx])]
    rfl

/-- Where the HBEs are apart, a base and an offset lead to that HBE at that offset. -/
theorem Platform.route_some {p : Platform} (hp : p.apart) {k : Nat} {sl : PlatformSlot} (hk : p[k]? = some sl)
    (off : BitVec 17) : p.route (sl.base + off.toNat) = some (k, off) := by
  induction p generalizing k with
  | nil => simp at hk
  | cons x p ih =>
    rw [Platform.apart, List.pairwise_cons] at hp
    cases k with
    | zero =>
      simp only [List.getElem?_cons_zero, Option.some.injEq] at hk
      subst hk
      rw [Platform.route, platformOffset_inside]
    | succ k =>
      rw [List.getElem?_cons_succ] at hk
      have hx := hp.1 sl (List.mem_of_getElem? hk)
      have := off.isLt
      rw [Platform.route, platformOffset_outside (by omega), ih hp.2 hk]
      rfl

end Sys2Proof.Machine
end

