-- ==== Sys2Proof/Tests/Slice0.lean ====
section
/-! SUPPORT. Tests of the model: command words written out from 30_encoding.md R49 and R51, one or two single steps
for each command with expected results from 95_test_vectors.md (the vector's name stands in each docstring), and for
every obligation with hypotheses a witness: states and operands that meet the hypotheses together. -/

namespace Sys2Proof.Tests
open Sys2Proof Sys2Proof.Machine

/-! ### Command words -/

/-- R49: a bit of `RSV` set refuses the word whatever its opcode. -/
theorem test_wellFormed_refuses_reserved_bits : wordWellFormed 0x00000106#32 = false := by decide
/-- R51, R52: opcodes 0x09 and 0xFF are not assigned. -/
theorem test_wellFormed_refuses_unassigned_opcodes :
    wordWellFormed 0x00000009#32 = false ∧ wordWellFormed 0x000000FF#32 = false := by decide
/-- R51: the last assigned opcode passes both checks. -/
theorem test_wellFormed_admits_decode : wordWellFormed 0x00000008#32 = true := by decide
theorem test_instr_wellFormed : Instr.treeBuild.wellFormed = true := by decide

theorem test_decode_nop : decode 0b00000000000000000000000000000000#32 = .ok .nop := by decide
theorem test_decode_tableClear : decode 0b00000000000000000000000000000001#32 = .ok .tableClear := by decide
theorem test_decode_entryWrite : decode 0b00000000000000000000000000000010#32 = .ok .entryWrite := by decide
theorem test_decode_entryRead : decode 0b00000000000000000000000000000011#32 = .ok .entryRead := by decide
theorem test_decode_tableStore : decode 0b00000000000000000000000000000100#32 = .ok .tableStore := by decide
theorem test_decode_tableLoad : decode 0b00000000000000000000000000000101#32 = .ok .tableLoad := by decide
theorem test_decode_encode : decode 0b00000000000000000000000000000110#32 = .ok .encode := by decide
theorem test_decode_treeBuild : decode 0b00000000000000000000000000000111#32 = .ok .treeBuild := by decide
theorem test_decode_decode : decode 0b00000000000000000000000000001000#32 = .ok .decode := by decide
/-- R52, vectors CW2 to CW4. -/
theorem test_decode_rejects_by_name :
    decode 0b00000000000000000000000000001001#32 = .error (.unassignedOpcode 0x09#8) ∧
    decode 0b00000000000000000000000100000110#32 = .error (.reservedBits 1#24) ∧
    decode 0b11111111111111111111111111111111#32 = .error (.reservedBits 0xFFFFFF#24) := by decide
/-- Vectors CW2 and CW3: the first word that names no command, and a command word with a reserved bit. -/
theorem test_decodeTableWord :
    decodeTableWord 32 6 = some .encode ∧ decodeTableWord 32 9 = none ∧ decodeTableWord 32 0x106 = none := by decide

/-! ### Small states -/

/-- A table from symbols and codewords. -/
def tableOf (l : List (Byte × List Bool)) : Table :=
  l.foldl (fun t p => t.put p.1 (CTEntry.make (BitVec.ofNat 8 p.2.length) (bitAt p.2))) Table.empty

/-- Table T1 of 95_test_vectors.md: a "0", b "10", c "11". -/
def tableT1 : Table := tableOf [(0x61#8, [false]), (0x62#8, [true, false]), (0x63#8, [true, true])]

/-- The reset state with table `ct`, bytes `bs` from address `src` up as the source window, and a destination
window. -/
def loaded (ct : Table) (src : Nat) (bs : List Byte) (dst cap : Nat) : State :=
  { State.reset with
    ct := ct
    dmem := Memory.writeBytes [] src bs
    src := BitVec.ofNat 32 src
    srcLen := BitVec.ofNat 32 bs.length
    dst := BitVec.ofNat 32 dst
    dstCap := BitVec.ofNat 32 cap }

/-- The state of a next outcome. -/
def stateOf (o : Host.Outcome State Fault Refusal) : State :=
  match o with
  | .next t => t
  | .fault _ | .refused _ => State.reset

/-- The state after one step that runs the pending command `i`. -/
def ran (i : Instr) (s : State) : State := stateOf (step (s.withFetchWord 32 (encode i).toNat))

/-- A leaf of the arena. -/
def leaf (sym : Byte) : Node := { left := 0, right := 0, hasSym := true, sym := sym }

/-- An inner node of the arena. -/
def inner (left right : Fin 512) : Node := { left := left, right := right, hasSym := false, sym := 0#8 }

/-- The decode tree of T1 as vector TB1 lists it. -/
def treeT1 : Arena := [(0, inner 1 2), (1, leaf 0x61#8), (2, inner 3 4), (3, leaf 0x62#8), (4, leaf 0x63#8)]

/-- `s` with the arena `ar` and `TREE_VALID = 1`. -/
def withTree (ar : Arena) (s : State) : State :=
  { s with arena := ar, nodeCount := BitVec.ofNat 32 ar.length }.setTreeValid true

/-- The table {a: "0", b: "10"} of worked example W3, and its tree. -/
def tableW3 : Table := tableOf [(0x61#8, [false]), (0x62#8, [true, false])]
def treeW3 : Arena := [(0, inner 1 2), (1, leaf 0x61#8), (2, inner 3 0), (3, leaf 0x62#8)]

/-- The tree of a table, built where the arena lists nothing. -/
theorem withTree_treeOfTable (ct : Table) (src : Nat) (art : List Byte) (dst cap : Nat) (ar : Arena)
    (h : buildTree ⟨0, 0⟩ [] ct = .ok ⟨ar, ar.length⟩) : (withTree ar (loaded ct src art dst cap)).treeOfTable :=
  ⟨[], _, h, rfl, rfl⟩

/-- Vector TB1: the whole arena. -/
theorem test_treeBuild_arena : buildTree ⟨0, 0⟩ [] tableT1 = .ok ⟨treeT1, 5⟩ := by decide +kernel

theorem test_treeBuild_arena_W3 : buildTree ⟨0, 0⟩ [] tableW3 = .ok ⟨treeW3, 4⟩ := by decide +kernel

/-- The bytes of memory from `a` up, those written since reset. -/
def written (s : State) (a n : Nat) : List (Option Byte) := (List.range n).map fun i => findCell s.dmem (a + i)

/-- ERRCODE, ERR_POS, OUT_LEN. -/
def errorRecord (s : State) : Nat × Nat × Nat := (s.errCode.toNat, s.errPos.toNat, s.outLen.toNat)

/-- OUT_LEN, BIT_LEN, PAD, SYM_COUNT. -/
def results (s : State) : Nat × Nat × Nat × Nat :=
  (s.outLen.toNat, s.bitLen.toNat, s.pad.toNat, s.symCount.toNat)

/-- The fields of arena node `n`. -/
def nodeFields (s : State) (n : Fin 512) : Nat × Nat × Bool × Nat :=
  ((s.nodeAt n).left.val, (s.nodeAt n).right.val, (s.nodeAt n).hasSym, (s.nodeAt n).sym.toNat)

/-! ### One step of each command -/

/-- Vector CW1. -/
theorem test_nop : (ran .nop State.reset).status.word = 2#32 ∧ (ran .nop State.reset).errCode = 0#8 := by decide +kernel

/-- Vector CW2, with the illegal word accepted. -/
theorem test_illegal_word :
    (stateOf (step (State.reset.withFetchWord 32 9))).status.word = 6#32 ∧
    errorRecord (stateOf (step (State.reset.withFetchWord 32 9))) = (1, 0, 0) := by decide +kernel

/-- Vectors TA9 and TA12: the table is empty, `TREE_VALID` 0, `NODE_COUNT` stays 5. -/
theorem test_tableClear :
    let t := ran .tableClear (withTree treeT1 (loaded tableT1 0 [] 0 0))
    t.ct.present = [] ∧ t.status.treeValid = false ∧ t.nodeCount = 5#32 := by decide +kernel

/-- Vector TA7: positions past the length are discarded. -/
theorem test_entryWrite_discards_the_tail :
    let s := { State.reset with esym := 0x62#8, elen := 2#8, ecode := State.reset.ecode.set 0 0xBFFFFFFF#32 }
    ((ran .entryWrite s).ct.present, (ran .entryWrite s).entry 0x62#8) =
      ([0x62#8], ⟨2#8, 0b10#2 ++ 0#253⟩) := by decide +kernel

/-- Vector TA5: 255 ones, and `ECODE7` bit 0 is not part of any entry. -/
theorem test_entryWrite_longest_codeword :
    let s := { State.reset with esym := 0#8, elen := 255#8, ecode := Vector.replicate 8 0xFFFFFFFF#32 }
    ((ran .entryWrite s).entry 0#8) = ⟨255#8, BitVec.allOnes 255⟩ ∧
    (ran .entryRead (ran .entryWrite s)).ecode =
      #v[0xFFFFFFFF#32, 0xFFFFFFFF#32, 0xFFFFFFFF#32, 0xFFFFFFFF#32, 0xFFFFFFFF#32, 0xFFFFFFFF#32, 0xFFFFFFFF#32,
        0xFFFFFFFE#32] := by decide +kernel

/-- Vector TA8. -/
theorem test_entryRead :
    let t := ran .entryRead { loaded tableT1 0 [] 0 0 with esym := 0x63#8, ecode := Vector.replicate 8 7#32 }
    t.elen = 2#8 ∧ t.ecode = #v[0xC0000000#32, 0#32, 0#32, 0#32, 0#32, 0#32, 0#32, 0#32] := by decide +kernel

/-- Vector TS1. -/
theorem test_tableStore :
    let t := ran .tableStore (loaded tableT1 0 [] 0x300 64)
    written t 0x300 14 = [some 3#8, some 0#8, some 0x61#8, some 1#8, some 0x30#8, some 0x62#8, some 2#8, some 0x31#8,
      some 0x30#8, some 0x63#8, some 2#8, some 0x31#8, some 0x31#8, none] ∧ results t = (13, 0, 0, 3) := by
  decide +kernel

/-- Vector TS8: equal codewords are ordered by symbol. -/
theorem test_tableStore_breaks_ties_by_symbol :
    written (ran .tableStore (loaded (tableOf [(0x41#8, [false, true]), (0x40#8, [false, true])]) 0 [] 0x300 64))
      0x300 10 = [some 2#8, some 0#8, some 0x40#8, some 2#8, some 0x30#8, some 0x31#8, some 0x41#8, some 2#8,
        some 0x30#8, some 0x31#8] := by decide +kernel

/-- TS1's image. -/
def imageT1 : List Byte :=
  [3#8, 0#8, 0x61#8, 1#8, 0x30#8, 0x62#8, 2#8, 0x31#8, 0x30#8, 0x63#8, 2#8, 0x31#8, 0x31#8]

/-- Vector TL1. -/
theorem test_tableLoad :
    let t := ran .tableLoad (loaded Table.empty 0x400 imageT1 0 0)
    t.ct.present.map (fun s => (s, (t.entry s).word)) =
      [(0x61#8, [false]), (0x62#8, [true, false]), (0x63#8, [true, true])] ∧
    results t = (0, 0, 0, 3) ∧ t.status.word = 2#32 := by decide +kernel

/-- Vector TL6: the repeated symbol byte is the first wrong one, and no record is kept. -/
theorem test_tableLoad_repeated_symbol :
    let t := ran .tableLoad (loaded tableT1 0x400 [2#8, 0#8, 0x61#8, 1#8, 0x30#8, 0x61#8, 1#8, 0x31#8] 0 0)
    errorRecord t = (0x0D, 5, 0) ∧ t.ct.present = [] := by decide +kernel

/-- Vector EN1: "aab" in mode 0. -/
theorem test_encode :
    let t := ran .encode (loaded tableT1 0 [0x61#8, 0x61#8, 0x62#8] 0x100 16)
    written t 0x100 3 = [some 4#8, some 0x20#8, none] ∧ results t = (2, 4, 4, 3) := by decide +kernel

/-- Vector EN8: a whole byte of filler in mode 0. -/
theorem test_encode_pads_a_whole_byte :
    let t := ran .encode (loaded tableT1 0 (List.replicate 8 0x61#8) 0x100 16)
    written t 0x100 4 = [some 8#8, some 0#8, some 0#8, none] ∧ results t = (3, 8, 8, 8) := by decide +kernel

/-- Vector TB1: children on bit 0 are left ones, nodes are numbered in the order of their creation. -/
theorem test_treeBuild :
    let t := ran .treeBuild (loaded tableT1 0 [] 0 0)
    (nodeFields t 0, nodeFields t 2, nodeFields t 4) = ((1, 2, false, 0), (3, 4, false, 0), (0, 0, true, 0x63)) ∧
    (t.nodeCount, results t, t.status.treeValid) = (5#32, (0, 0, 0, 3), true) := by decide +kernel

/-- Vector TB3. -/
theorem test_treeBuild_not_prefix_free :
    let t := ran .treeBuild (withTree treeT1 (loaded (tableOf [(0x61#8, [false]), (0x62#8, [false, true])]) 0 [] 0 0))
    errorRecord t = (0x0B, 0x62, 0) ∧ t.nodeCount = 0#32 ∧ t.status.treeValid = false := by decide +kernel

/-- Vector DE1. -/
theorem test_decode_run :
    let t := ran .decode (withTree treeT1 (loaded tableT1 0 [4#8, 0x20#8] 0x100 16))
    written t 0x100 4 = [some 0x61#8, some 0x61#8, some 0x62#8, none] ∧ results t = (3, 4, 4, 3) := by decide +kernel

/-- Vector DE24 (worked example W3): a missing child after two symbols. -/
theorem test_decode_null_child :
    let s := withTree treeW3 (loaded tableW3 0 [3#8, 0x58#8] 0x100 16)
    errorRecord (ran .decode s) = (9, 4, 2) ∧
    written (ran .decode s) 0x100 3 = [some 0x61#8, some 0x62#8, none] := by decide +kernel

/-! ### The host port -/

/-- Vectors BUS3 to BUS6: no state changes on a bus error. -/
theorem test_bus_errors :
    hostAccess (.rd32 0x068#17) State.reset = State.reset.respond .error ∧
    hostAccess (.rd32 0x002#17) State.reset = State.reset.respond .error ∧
    hostAccess (.wr8 0x008#17 4#8) State.reset = State.reset.respond .error ∧
    hostAccess (.rd32 0x10001#17) State.reset = State.reset.respond .error := ⟨rfl, rfl, rfl, rfl⟩

/-- Vectors BUS7 and BUS8: both widths see one little-endian byte array. -/
theorem test_bus_byte_order :
    let s := hostAccess (.wr32 0x10040#17 0x11223344#32) State.reset
    (hostAccess (.rd8 0x10040#17) s).busResp = .data8 0x44#8 ∧
    (hostAccess (.rd8 0x10043#17) s).busResp = .data8 0x11#8 := by decide +kernel

/-! ### Witnesses: states and operands that meet the hypotheses of each obligation that has some

A clause of a statement with its own hypothesis has its own line, at a boundary value of its range. -/

/-- The reset state with the word `c` pending. -/
def pendingWith (c : Word) : State := State.reset.acceptCommand c

/-- The reset state with the given windows. -/
def windows (src srcLen dst cap : Nat) : State :=
  { State.reset with
    src := BitVec.ofNat 32 src
    srcLen := BitVec.ofNat 32 srcLen
    dst := BitVec.ofNat 32 dst
    dstCap := BitVec.ofNat 32 cap }

/-- "aab" under T1, with a destination window of `cap` bytes at 0x100. -/
def encodeState (cap : Nat) : State := loaded tableT1 0 [0x61#8, 0x61#8, 0x62#8] 0x100 cap

/-- An artifact under T1's tree, with a destination window of `cap` bytes at 0x100. -/
def decodeState (art : List Byte) (cap : Nat) : State := withTree treeT1 (loaded tableT1 0 art 0x100 cap)

theorem tableOf_zeroTail (l : List (Byte × List Bool)) (sym : Byte) : ((tableOf l).get sym).zeroTail := by
  suffices h : ∀ t : Table, (∀ x, (t.get x).zeroTail) →
      ((l.foldl (fun t p => t.put p.1 (CTEntry.make (BitVec.ofNat 8 p.2.length) (bitAt p.2))) t).get sym).zeroTail from
    h Table.empty fun x => by simpa using CTEntry.empty_zeroTail
  induction l with
  | nil => exact fun t h => h sym
  | cons p l ih =>
    refine fun t h => ih _ fun x => ?_
    rw [Table.get_put]
    split
    · exact CTEntry.make_zeroTail _ _
    · exact h x

/-- The state after the command `i`. -/
def after (i : Instr) (s : State) : State := stateOf (exec i s)

theorem exec_after (i : Instr) (s : State) : exec i s = .next (after i s) := by cases i <;> rfl

theorem witness_IllegalWordCompletesWithIllegalCmd :
    (∀ i, 0x00000009#32 ≠ encode i) ∧ (∀ i, 0x00000100#32 ≠ encode i) ∧ (∀ i, 0xFFFFFFFF#32 ≠ encode i) ∧
    State.reset.status.busy = false ∧
    (pendingWith 9#32).cmd = 9#32 ∧ (pendingWith 9#32).status.busy = true ∧ (pendingWith 9#32).resetLine = false := by
  refine ⟨fun i => ?_, fun i => ?_, fun i => ?_, by decide, by decide, by decide, by decide⟩ <;> cases i <;> decide

theorem witness_StepRunsTheDecodedCommand :
    decode (pendingWith 8#32).cmd = .ok .decode ∧ (pendingWith 8#32).status.busy = true ∧
    (pendingWith 8#32).resetLine = false ∧ (pendingWith 8#32).agenda = [] := by decide

theorem witness_StepTakesHostAndIdleTurns :
    State.reset.resetLine = false ∧ State.reset.status.busy = false ∧ State.reset.agenda = [] := by decide

/-- A failure of another command, and a failure of DECODE before its walk. -/
theorem witness_FailuresOtherThanWalkErrorsWriteNothing :
    (∃ t, exec .encode (encodeState 1) = .next t ∧ t.status.err = true ∧ Instr.encode ≠ .decode) ∧
    (∃ t, exec .decode (encodeState 1) = .next t ∧ t.status.err = true ∧
      t.errCode ≠ 0x05#8 ∧ t.errCode ≠ 0x09#8 ∧ t.errCode ≠ 0x0A#8) :=
  ⟨⟨_, exec_after _ _, by decide +kernel, by decide⟩, _, exec_after _ _, by decide +kernel, by decide +kernel⟩

/-- The bytes next to the window on both sides. -/
theorem witness_CommandsWriteOnlyTheDestinationWindow :
    (∃ t, exec .encode (encodeState 2) = .next t ∧ t.status.err = false) ∧
    0xFF < (encodeState 2).dst.toNat ∧ (encodeState 2).dst.toNat + (encodeState 2).dstCap.toNat ≤ 0x102 :=
  ⟨⟨_, exec_after _ _, by decide +kernel⟩, by decide, by decide⟩

/-- Another memory under another draw that agrees on the source window and not beside it. -/
theorem witness_CommandsReadOnlyTheSourceWindow :
    ∀ a, (encodeState 2).src.toNat ≤ a → a < (encodeState 2).src.toNat + (encodeState 2).srcLen.toNat →
      State.byteAt { encodeState 2 with
        dmem := Memory.writeBytes [] 0 [0x61#8, 0x61#8, 0x62#8, 7#8], dmemDraw := ⟨0, 1⟩ } a = (encodeState 2).byteAt a := by
  have h : ∀ a < 3, State.byteAt { encodeState 2 with
      dmem := Memory.writeBytes [] 0 [0x61#8, 0x61#8, 0x62#8, 7#8], dmemDraw := ⟨0, 1⟩ } a = (encodeState 2).byteAt a := by
    decide +kernel
  exact fun a _ ha => h a ha

theorem witness_OnlyEncodeReadsThePaddingMode : Instr.decode ≠ .encode := by decide

/-- The last code position and the last `ECODE` bit. -/
theorem witness_EntryWriteStoresTheStagedEntry : 254 < 255 ∧ 1#8 ≠ State.reset.esym := by decide

theorem witness_EntryReadCopiesTheEntry :
    255 < 256 ∧ ∀ sym, ((loaded tableT1 0 [] 0 0).entry sym).zeroTail := ⟨by decide, tableOf_zeroTail _⟩

/-- TS1's image from T1's records. -/
theorem imageBytes_tableT1 : imageBytes tableT1.records = imageT1 := by decide +kernel

/-- A window of exactly the image's size, at the top of memory. -/
theorem witness_TableStoreWritesTheImage :
    let s := loaded tableT1 0 [] 65523 13
    s.dst.toNat + s.dstCap.toNat ≤ 65536 ∧ (imageBytes s.ct.records).length ≤ s.dstCap.toNat :=
  ⟨by decide, by change (imageBytes tableT1.records).length ≤ 13; rw [imageBytes_tableT1]; decide⟩

/-- A window one byte past memory; a window one byte short. -/
theorem witness_TableStoreErrors :
    (let s := loaded tableT1 0 [] 0xFFFF 2
     65536 < s.dst.toNat + s.dstCap.toNat) ∧
    (let s := loaded tableT1 0 [] 65524 12
     s.dst.toNat + s.dstCap.toNat ≤ 65536 ∧ s.dstCap.toNat < (imageBytes s.ct.records).length) :=
  ⟨by decide, by decide, by change 12 < (imageBytes tableT1.records).length; rw [imageBytes_tableT1]; decide⟩

/-- The source window of a loaded state holds the bytes it was given. -/
theorem loaded_sourceHolds (ct : Table) (src : Nat) (bs : List Byte) (dst cap : Nat) (h : src + bs.length ≤ 65536) :
    (loaded ct src bs dst cap).sourceHolds bs := by
  have hs : (loaded ct src bs dst cap).src.toNat = src := by simp [loaded]; omega
  have hl : (loaded ct src bs dst cap).srcLen.toNat = bs.length := by simp [loaded]; omega
  refine ⟨by omega, hl, fun i hi => ?_⟩
  rw [hs, State.byteAt, loaded, Memory.read_writeBytes, dif_pos ⟨by omega, by omega⟩]
  simp

/-- No record, and records with the shortest and the longest codeword, the source window ending with memory. -/
theorem witness_TableLoadReadsEveryWellFormedImage :
    (recordsGood [] ∧ (loaded tableT1 0x400 (imageBytes []) 0 0).sourceHolds (imageBytes [])) ∧
    (let recs := [(0xFF#8, [true]), (0#8, List.replicate 255 false)]
     recordsGood recs ∧ (loaded tableT1 65274 (imageBytes recs) 0 0).sourceHolds (imageBytes recs)) := by
  refine ⟨⟨?_, loaded_sourceHolds _ _ _ _ _ (by decide)⟩, ?_, loaded_sourceHolds _ _ _ _ _ (by decide +kernel)⟩
  · unfold recordsGood; decide
  · unfold recordsGood; decide +kernel

theorem witness_TableLoadErrors :
    (let s := windows 0xFFFF 2 0 0
     65536 < s.src.toNat + s.srcLen.toNat) ∧
    (let s := windows 0x10000 0 0 0
     s.src.toNat ≤ 65536 ∧ s.srcLen = 0#32 ∧ s.src.toNat + s.srcLen.toNat ≤ 65536 ∧
      ∃ t, exec .tableLoad s = .next t ∧ t.status.err = true) ∧
    (let s := windows 0xFFFF 1 0 0
     s.src.toNat + 1 ≤ 65536 ∧ s.srcLen = 1#32) ∧
    (let s := loaded tableT1 0xFFFE [1#8, 1#8] 0 0
     s.src.toNat + s.srcLen.toNat ≤ 65536 ∧ 2 ≤ s.srcLen.toNat ∧
      256 < (s.byteAt s.src.toNat).toNat + 256 * (s.byteAt (s.src.toNat + 1)).toNat) :=
  ⟨by decide, ⟨by decide, by decide, by decide, _, exec_after _ _, by decide +kernel⟩, by decide, by decide +kernel⟩

/-- The hypotheses that all clauses of `TableLoadReportsTheFirstBadByte` share. -/
def badByteHypotheses (s : State) (n : Nat) (recs : List (Byte × List Bool)) (o : Nat) : Prop :=
  s.src.toNat + s.srcLen.toNat ≤ 65536 ∧ n ≤ 256 ∧ recs.length ≤ n ∧
  ((recs.map Prod.fst).Nodup ∧ ∀ r ∈ recs, 1 ≤ r.2.length ∧ r.2.length ≤ 255) ∧
  o = (countBytes n ++ recs.flatMap recordBytes).length ∧ o ≤ s.srcLen.toNat ∧
  ∀ i (h : i < (countBytes n ++ recs.flatMap recordBytes).length),
    s.byteAt (s.src.toNat + i) = (countBytes n ++ recs.flatMap recordBytes)[i]

/-- Vectors TL3, TL6, TL4, TL5, TL8, an image that ends after a symbol byte, and one that ends in a codeword. -/
theorem witness_TableLoadReportsTheFirstBadByte :
    (let s := loaded tableT1 0x400 [3#8, 0#8, 0x61#8, 1#8, 0x30#8] 0 0
     badByteHypotheses s 3 [(0x61#8, [false])] 5 ∧ 1 < 3 ∧ 5 = s.srcLen.toNat) ∧
    (let s := loaded tableT1 0x400 [2#8, 0#8, 0x61#8, 1#8, 0x30#8, 0x61#8, 1#8, 0x31#8] 0 0
     badByteHypotheses s 2 [(0x61#8, [false])] 5 ∧ 5 < s.srcLen.toNat ∧ s.byteAt 0x405 ∈ [0x61#8]) ∧
    (let s := loaded tableT1 0x400 [1#8, 0#8, 0x61#8] 0 0
     badByteHypotheses s 1 [] 2 ∧ 2 < s.srcLen.toNat ∧ s.byteAt 0x402 ∉ ([] : List Byte) ∧ 2 + 1 = s.srcLen.toNat) ∧
    (let s := loaded tableT1 0x400 [1#8, 0#8, 0x61#8, 0#8] 0 0
     badByteHypotheses s 1 [] 2 ∧ 2 + 1 < s.srcLen.toNat ∧ s.byteAt 0x403 = 0#8) ∧
    (let s := loaded tableT1 0x400 [1#8, 0#8, 0x61#8, 1#8, 0x32#8] 0 0
     badByteHypotheses s 1 [] 2 ∧ 0 < (s.byteAt 0x403).toNat ∧ 2 + 2 + 0 < s.srcLen.toNat ∧
      s.byteAt 0x404 ≠ 0x30#8 ∧ s.byteAt 0x404 ≠ 0x31#8) ∧
    (let s := loaded tableT1 0x400 [1#8, 0#8, 0x61#8, 2#8, 0x30#8] 0 0
     badByteHypotheses s 1 [] 2 ∧ 1 < (s.byteAt 0x403).toNat ∧ s.byteAt 0x404 = 0x30#8 ∧
      2 + 2 + 1 = s.srcLen.toNat) ∧
    (let s := loaded tableT1 0x400 [0#8, 0#8, 0xFF#8] 0 0
     badByteHypotheses s 0 [] 2 ∧ 2 < s.srcLen.toNat) := by
  unfold badByteHypotheses
  refine ⟨?_, ?_, ?_, ?_, ?_, ?_, ?_⟩ <;> decide +kernel

/-- T1 stored in a window of exactly its image's size and read back from there; and vector TL2's image with its
records out of canonical order. -/
theorem witness_StoreThenLoadRestoresTheTable :
    (let s := loaded tableT1 0 [] 65523 13
     let t := after .tableStore s
     let l := { windows 65523 13 0 0 with dmem := t.dmem }
     (∀ sym, (s.entry sym).zeroTail) ∧ exec .tableStore s = .next t ∧ t.status.err = false ∧
      l.src.toNat + l.srcLen.toNat ≤ 65536 ∧ l.srcLen = t.outLen ∧
      ∀ i < t.outLen.toNat, l.byteAt (l.src.toNat + i) = t.byteAt (s.dst.toNat + i)) ∧
    (let recs := [(0x62#8, [false, true]), (0x61#8, [true])]
     recordsGood recs ∧ (loaded tableT1 0x400 (imageBytes recs) 0 0).sourceHolds (imageBytes recs)) := by
  refine ⟨⟨tableOf_zeroTail _, exec_after _ _, by decide +kernel, by decide, by decide +kernel, by decide +kernel⟩, ?_⟩
  unfold recordsGood State.sourceHolds
  decide +kernel

theorem witness_PaddingRanges : 0 % 8 = 0 ∧ 8 % 8 = 0 := by decide

/-- Vector EN16: a window of exactly the artifact's size. -/
theorem witness_EncodeWritesTheArtifact :
    let s := encodeState 2
    let syms := [0x61#8, 0x61#8, 0x62#8]
    s.windowsGood ∧ syms = (List.range s.srcLen.toNat).map (fun j => s.byteAt (s.src.toNat + j)) ∧
    (∀ x ∈ syms, (s.entry x).len ≠ 0#8) ∧ 4 = (syms.map fun x => (s.entry x).len.toNat).sum ∧
    4 = (if s.ctrl.padMode then (8 - 4 % 8) % 8 else 8 - 4 % 8) ∧ 1 + (4 + 4) / 8 ≤ s.dstCap.toNat := by
  unfold State.windowsGood
  decide +kernel

/-- Vectors EN22, EN24, EN17, EN14, EN15. -/
theorem witness_EncodeErrors :
    (let s := windows 0xFFFFFFFF 1 0 0
     65536 < s.src.toNat + s.srcLen.toNat) ∧
    (let s := loaded tableT1 0 [0x61#8] 0x10000 1
     s.src.toNat + s.srcLen.toNat ≤ 65536 ∧ 65536 < s.dst.toNat + s.dstCap.toNat) ∧
    (let s := windows 0x100 3 0x102 4
     s.src.toNat + s.srcLen.toNat ≤ 65536 ∧ s.dst.toNat + s.dstCap.toNat ≤ 65536 ∧ ¬ s.windowsGood) ∧
    (let s := loaded tableT1 0 [0x61#8, 0x62#8, 0x64#8] 0x100 16
     s.windowsGood ∧ 2 < s.srcLen.toNat ∧ (s.entry (s.byteAt (s.src.toNat + 2))).len = 0#8 ∧
      ∀ i < 2, (s.entry (s.byteAt (s.src.toNat + i))).len ≠ 0#8) ∧
    (let s := encodeState 1
     s.windowsGood ∧ (∀ j < s.srcLen.toNat, (s.entry (s.byteAt (s.src.toNat + j))).len ≠ 0#8) ∧
      4 = ((List.range s.srcLen.toNat).map fun j => (s.entry (s.byteAt (s.src.toNat + j))).len.toNat).sum ∧
      s.dstCap.toNat < 1 + (4 + 4) / 8) := by
  unfold State.windowsGood
  decide +kernel

/-- A successful ENCODE in each padding mode. -/
theorem witness_ArtifactSizeLaw :
    (∃ t, exec .encode (encodeState 2) = .next t ∧ t.status.err = false ∧ (encodeState 2).ctrl.padMode = false) ∧
    (∃ t, exec .encode { encodeState 2 with ctrl := ⟨false, false, true⟩ } = .next t ∧ t.status.err = false ∧
      State.ctrl { encodeState 2 with ctrl := ⟨false, false, true⟩ } = ⟨false, false, true⟩) :=
  ⟨⟨_, exec_after _ _, by decide +kernel, by decide⟩, _, exec_after _ _, by decide +kernel, by decide⟩

/-! ### Tables whose trees need 512 and 513 nodes: two codewords of 255 bits and a third one. -/

/-- The table {0: 255 zeros, 1: 255 ones, 2: `w`}. -/
def bigTable (w : List Bool) : Table :=
  tableOf [(0#8, List.replicate 255 false), (1#8, List.replicate 255 true), (2#8, w)]

/-- The prefixes of 255 zeros and of 255 ones, and further ones. -/
def bigPrefixes (extra : List (List Bool)) : List (List Bool) :=
  (List.range 256).map (fun n => List.replicate n false)
    ++ ((List.range 255).map (fun n => List.replicate (n + 1) true) ++ extra)

theorem mem_bigPrefixes {extra : List (List Bool)} {p : List Bool} : p ∈ bigPrefixes extra ↔
    p <+: List.replicate 255 false ∨ (p <+: List.replicate 255 true ∧ p ≠ []) ∨ p ∈ extra := by
  have hr : ∀ b, p <+: List.replicate 255 b ↔ ∃ n < 256, List.replicate n b = p := fun b => by
    rw [List.prefix_replicate_iff]
    exact ⟨fun h => ⟨p.length, by omega, h.2.symm⟩, by rintro ⟨n, h, rfl⟩; simp; omega⟩
  rw [hr, hr]
  simp only [bigPrefixes, List.mem_append, List.mem_map, List.mem_range]
  refine or_congr Iff.rfl (or_congr ⟨?_, ?_⟩ Iff.rfl)
  · rintro ⟨n, h, rfl⟩; exact ⟨⟨n + 1, by omega, rfl⟩, by simp⟩
  · rintro ⟨⟨n, h, rfl⟩, h0⟩
    obtain _ | n := n
    · exact absurd rfl h0
    · exact ⟨n, by omega, rfl⟩

theorem bigPrefixes_nodup {extra : List (List Bool)} (hn : extra.Nodup)
    (he : ∀ p ∈ extra, true ∈ p ∧ false ∈ p) : (bigPrefixes extra).Nodup := by
  have hinj : ∀ (b : Bool) (m n : Nat), List.replicate m b = List.replicate n b → m = n := fun b m n h => by
    simpa using congrArg List.length h
  rw [bigPrefixes, List.nodup_append, List.nodup_append]
  refine ⟨List.nodup_range.map fun m n h => hinj _ _ _ h,
    ⟨List.nodup_range.map fun m n h => by have := hinj _ _ _ h; omega, hn, ?_⟩, ?_⟩
  · rintro p hp q hq rfl
    obtain ⟨n, -, rfl⟩ := List.mem_map.1 hp
    simpa using (he _ hq).2
  · rintro p hp q hq rfl
    obtain ⟨n, -, rfl⟩ := List.mem_map.1 hp
    rcases List.mem_append.1 hq with h | h
    · obtain ⟨m, -, h⟩ := List.mem_map.1 h
      have : true ∈ List.replicate n false := h ▸ by simp
      simp at this
    · simpa using (he _ h).1

/-- What the witnesses below use of a big table. -/
structure BigFacts (w : List Bool) (extra : List (List Bool)) : Prop where
  present : (bigTable w).present = [0#8, 1#8, 2#8]
  word0 : ((bigTable w).get 0#8).word = List.replicate 255 false
  word1 : ((bigTable w).get 1#8).word = List.replicate 255 true
  word2 : ((bigTable w).get 2#8).word = w
  free : ∀ s ∈ [0#8, 1#8, 2#8], ∀ t ∈ [0#8, 1#8, 2#8], s ≠ t →
    ¬ ((bigTable w).get s).word <+: ((bigTable w).get t).word
  nodup : extra.Nodup
  mixed : ∀ p ∈ extra, true ∈ p ∧ false ∈ p
  prefixes : ∀ p, p <+: w ↔ p = [] ∨ p = [true] ∨ p ∈ extra

theorem bigFacts512 : BigFacts [true, false] [[true, false]] where
  present := by decide +kernel
  word0 := by decide +kernel
  word1 := by decide +kernel
  word2 := by decide +kernel
  free := by decide +kernel
  nodup := by decide
  mixed := by decide
  prefixes p := by rw [← List.mem_inits]; simp [List.inits]

theorem bigFacts513 : BigFacts [true, false, true] [[true, false], [true, false, true]] where
  present := by decide +kernel
  word0 := by decide +kernel
  word1 := by decide +kernel
  word2 := by decide +kernel
  free := by decide +kernel
  nodup := by decide
  mixed := by decide
  prefixes p := by rw [← List.mem_inits]; simp [List.inits]

variable {w : List Bool} {extra : List (List Bool)}

theorem BigFacts.mem (h : BigFacts w extra) (s : Byte) :
    ((bigTable w).get s).len ≠ 0#8 ↔ s ∈ [0#8, 1#8, 2#8] := by
  rw [← Table.mem_present, h.present]

theorem BigFacts.prefixCount (h : BigFacts w extra) : (bigTable w).prefixCount 256 (511 + extra.length) := by
  refine ⟨bigPrefixes extra, bigPrefixes_nodup h.nodup h.mixed, by simp [bigPrefixes]; omega, fun p => ?_⟩
  have hone : [true] <+: List.replicate 255 true := ⟨List.replicate 254 true, rfl⟩
  rw [mem_bigPrefixes]
  constructor
  · rintro (g | ⟨g, -⟩ | g)
    · exact .inr ⟨0#8, by decide, (h.mem _).2 (by decide), h.word0 ▸ g⟩
    · exact .inr ⟨1#8, by decide, (h.mem _).2 (by decide), h.word1 ▸ g⟩
    · exact .inr ⟨2#8, by decide, (h.mem _).2 (by decide), by rw [h.word2, h.prefixes]; exact .inr (.inr g)⟩
  · rintro (rfl | ⟨s, -, hs, g⟩)
    · exact .inl List.nil_prefix
    · rw [h.mem] at hs
      simp only [List.mem_cons, List.not_mem_nil, or_false] at hs
      obtain rfl | rfl | rfl := hs
      · exact .inl (h.word0 ▸ g)
      · rw [h.word1] at g
        by_cases h0 : p = []
        · exact .inl (h0 ▸ List.nil_prefix)
        · exact .inr (.inl ⟨g, h0⟩)
      · rw [h.word2, h.prefixes] at g
        rcases g with rfl | rfl | g
        · exact .inl List.nil_prefix
        · exact .inr (.inl ⟨hone, by simp⟩)
        · exact .inr (.inr g)

theorem BigFacts.prefixFree (h : BigFacts w extra) : (bigTable w).prefixFree :=
  fun s t hst hs ht => h.free s ((h.mem s).1 hs) t ((h.mem t).1 ht) hst

/-- A prefix-free table of more than 512 prefixes has no tree in the arena: TREE_BUILD ends with TREE_OVERFLOW. -/
theorem BigFacts.overflow (h : BigFacts w extra) (hn : 512 < 511 + extra.length) (s : State)
    (hs : s.ct = bigTable w) : ∃ t, exec .treeBuild s = .next t ∧ t.status.err = true ∧ t.errCode = 0x0C#8 := by
  have hb := buildTree_spec s.arenaDraw s.arena s.ct
  rw [exec_treeBuild]
  revert hb
  cases buildTree s.arenaDraw s.arena s.ct with
  | ok t =>
    rintro ⟨⟨path, g⟩, -⟩
    have := count_eq g (hs ▸ h.prefixCount)
    have := g.le
    omega
  | error e =>
    obtain ⟨code, sym⟩ := e
    rintro ⟨u, v, g, -, ⟨-, x, hx, hc⟩ | ⟨rfl, -⟩⟩
    · rw [hs, h.present] at g
      have hd : [0#8, 1#8, 2#8].Nodup := by decide
      rw [g] at hd
      have hne : x ≠ sym := fun e => (List.nodup_append.1 hd).2.2 x hx sym (by simp) e
      have hx' : x ∈ [0#8, 1#8, 2#8] := by rw [g]; simp [hx]
      have hs' : sym ∈ [0#8, 1#8, 2#8] := by rw [g]; simp
      rw [hs] at hc
      rcases hc with hc | hc
      · exact absurd hc (h.free x hx' sym hs' hne)
      · exact absurd hc (h.free sym hs' x hx' hne.symm)
    · exact ⟨_, rfl, rfl, rfl⟩

/-- A prefix-free table with two symbols of one key (they are the same symbol). -/
theorem witness_CanonicalListIsSortedByKeyThenSymbol :
    (bigTable [true, false]).prefixFree ∧ ((bigTable [true, false]).get 2#8).len ≠ 0#8 ∧
    canonicalKey ((bigTable [true, false]).get 2#8).word = canonicalKey ((bigTable [true, false]).get 2#8).word :=
  ⟨bigFacts512.prefixFree, (bigFacts512.mem _).2 (by decide), rfl⟩

/-- A prefix-free table whose tree fills the arena, one whose tree needs a 513th node, and one that is not
prefix-free (vector TB5) with its two prefixes. -/
theorem witness_TreeBuildSucceedsExactlyOnPrefixFreeTablesThatFit :
    ((bigTable [true, false]).prefixCount 256 512 ∧ (bigTable [true, false]).prefixFree ∧ 512 ≤ 512) ∧
    ((bigTable [true, false, true]).prefixCount 256 513 ∧
      ¬ ((bigTable [true, false, true]).prefixFree ∧ 513 ≤ 512)) ∧
    ((tableOf [(0x61#8, [true]), (0x62#8, [true])]).prefixCount 256 2 ∧
      ¬ (tableOf [(0x61#8, [true]), (0x62#8, [true])]).prefixFree) := by
  have hw : ((tableOf [(0x61#8, [true]), (0x62#8, [true])]).get 0x61#8).word = [true] ∧
      ((tableOf [(0x61#8, [true]), (0x62#8, [true])]).get 0x62#8).word = [true] := by decide +kernel
  have hp : (tableOf [(0x61#8, [true]), (0x62#8, [true])]).present = [0x61#8, 0x62#8] := by decide +kernel
  have hl : ∀ s : Byte, ((tableOf [(0x61#8, [true]), (0x62#8, [true])]).get s).len ≠ 0#8 ↔
      s = 0x61#8 ∨ s = 0x62#8 := fun s => by rw [← Table.mem_present, hp]; simp
  refine ⟨⟨bigFacts512.prefixCount, bigFacts512.prefixFree, le_rfl⟩, ⟨bigFacts513.prefixCount, by omega⟩,
    ⟨[[], [true]], by decide, rfl, fun p => ?_⟩, fun h => ?_⟩
  · have hi : p <+: [true] ↔ p = [] ∨ p = [true] := by rw [← List.mem_inits]; simp [List.inits]
    constructor
    · intro h
      exact .inr ⟨0x61#8, by decide, (hl _).2 (.inl rfl), by rw [hw.1, hi]; simpa using h⟩
    · rintro (rfl | ⟨s, -, hs, g⟩)
      · simp
      · rcases (hl s).1 hs with rfl | rfl
        · rw [hw.1, hi] at g; simpa using g
        · rw [hw.2, hi] at g; simpa using g
  · exact h 0x61#8 0x62#8 (by decide) ((hl _).2 (.inl rfl)) ((hl _).2 (.inr rfl)) (by rw [hw.1, hw.2])

/-- Vector TB3, and a table that needs a 513th node. -/
theorem witness_TreeBuildNamesTheSymbolItStoppedAt :
    (∃ t, exec .treeBuild (loaded (tableOf [(0x61#8, [false]), (0x62#8, [false, true])]) 0 [] 0 0) = .next t ∧
      t.status.err = true ∧ t.errCode = 0x0B#8) ∧
    (∃ t, exec .treeBuild (loaded (bigTable [true, false, true]) 0 [] 0 0) = .next t ∧
      t.status.err = true ∧ t.errCode = 0x0C#8) :=
  ⟨⟨_, exec_after _ _, by decide +kernel⟩, bigFacts513.overflow (by decide) _ rfl⟩

/-- Vector TB1, with a codeword that leads to a leaf and a path that ends at an inner node. -/
theorem witness_AcceptedTreeHasTheTablesLeaves :
    let s := loaded tableT1 0 [] 0 0
    let t := after .treeBuild s
    exec .treeBuild s = .next t ∧ t.status.err = false ∧ (s.entry 0x61#8).len ≠ 0#8 ∧
    t.follow 0 [false] = some 1 ∧ (t.nodeAt 1).hasSym = true ∧
    [true] ≠ [] ∧ t.follow 0 [true] = some 2 ∧ (t.nodeAt 2).hasSym = false :=
  ⟨exec_after _ _, by decide +kernel, by decide +kernel, by decide +kernel, by decide +kernel, by decide, by decide +kernel,
    by decide +kernel⟩

/-- Vector DE2 with room for exactly its symbols. -/
theorem witness_DecodeRecoversTheSymbols :
    let s := decodeState [3#8, 0x58#8] 3
    let syms := [0x61#8, 0x62#8, 0x63#8]
    s.walkReady ∧ (∀ x ∈ syms, (s.entry x).len ≠ 0#8) ∧ s.holdsArtifact 3 (s.ct.stream syms).length ∧
    s.payloadBegins (s.ct.stream syms) ∧ syms.length ≤ s.dstCap.toNat := by
  refine ⟨⟨?_, by decide +kernel, withTree_treeOfTable _ _ _ _ _ _ test_treeBuild_arena⟩, by decide +kernel, ?_, ?_, by decide +kernel⟩
  · unfold State.windowsGood; decide +kernel
  · unfold State.holdsArtifact; decide +kernel
  · unfold State.payloadBegins; decide +kernel

/-- Vectors DE26, EN24's windows, DE27, DE18, DE9 and DE16. -/
theorem witness_DecodeErrorsBeforeTheWalk :
    (let s := windows 0xFFFF 2 0 0
     65536 < s.src.toNat + s.srcLen.toNat) ∧
    (let s := windows 0 3 0x10000 1
     s.src.toNat + s.srcLen.toNat ≤ 65536 ∧ 65536 < s.dst.toNat + s.dstCap.toNat) ∧
    (let s := windows 0 2 1 4
     s.src.toNat + s.srcLen.toNat ≤ 65536 ∧ s.dst.toNat + s.dstCap.toNat ≤ 65536 ∧ ¬ s.windowsGood) ∧
    (let s := loaded tableT1 0 [4#8, 0x20#8] 0x100 16
     s.windowsGood ∧ s.status.treeValid = false) ∧
    (let s := decodeState [] 16
     s.windowsGood ∧ s.status.treeValid = true ∧ s.srcLen = 0#32) ∧
    (let s := decodeState [0x11#8, 0#8, 0#8] 16
     s.windowsGood ∧ s.status.treeValid = true ∧ s.srcLen ≠ 0#32 ∧
      8 * (s.srcLen.toNat - 1) < (s.byteAt s.src.toNat).toNat) := by
  unfold State.windowsGood
  decide +kernel

/-- The bit 1 after "a" and "b" of a tree of {a: "0", b: "10"} (vector DE24 has it after the bit 1 of "b"). -/
theorem witness_DecodeNullChildKeepsTheEmittedSymbols :
    let s := withTree treeW3 (loaded tableW3 0 [3#8, 0x58#8] 0x100 2)
    let syms := [0x61#8, 0x62#8]
    s.walkReady ∧ (∀ x ∈ syms, (s.entry x).len ≠ 0#8) ∧ syms.length ≤ s.dstCap.toNat ∧
    ((s.entry 0x62#8).len ≠ 0#8 ∧ [true] <+: (s.entry 0x62#8).word ∧ [true] ≠ (s.entry 0x62#8).word) ∧
    (∀ y, (s.entry y).len ≠ 0#8 → ¬ ([true] ++ [true]) <+: (s.entry y).word) ∧
    s.holdsArtifact 3 5 ∧ (s.ct.stream syms ++ [true] ++ [true]).length ≤ 5 ∧
    s.payloadBegins (s.ct.stream syms ++ [true] ++ [true]) := by
  refine ⟨⟨?_, by decide +kernel, withTree_treeOfTable _ _ _ _ _ _ test_treeBuild_arena_W3⟩, by decide +kernel, by decide +kernel, by decide +kernel, ?_, ?_,
    by decide +kernel, ?_⟩
  · unfold State.windowsGood; decide +kernel
  · decide +kernel
  · unfold State.holdsArtifact; decide +kernel
  · unfold State.payloadBegins; decide +kernel

/-- Vector DE10: the bits end inside a codeword, at once. -/
theorem witness_DecodeTruncatedKeepsTheEmittedSymbols :
    let s := decodeState [7#8, 0x80#8] 0
    s.walkReady ∧ (∀ x ∈ ([] : List Byte), (s.entry x).len ≠ 0#8) ∧ ([] : List Byte).length ≤ s.dstCap.toNat ∧
    [true] ≠ [] ∧ ((s.entry 0x62#8).len ≠ 0#8 ∧ [true] <+: (s.entry 0x62#8).word ∧ [true] ≠ (s.entry 0x62#8).word) ∧
    s.holdsArtifact 7 (s.ct.stream [] ++ [true]).length ∧ s.payloadBegins (s.ct.stream [] ++ [true]) := by
  refine ⟨⟨?_, by decide, withTree_treeOfTable _ _ _ _ _ _ test_treeBuild_arena⟩, by decide, by decide, by decide,
    by decide +kernel, ?_, ?_⟩
  · unfold State.windowsGood; decide +kernel
  · unfold State.holdsArtifact; decide +kernel
  · unfold State.payloadBegins; decide +kernel

/-- Vector DE13: the third symbol of "aab" has no room. -/
theorem witness_DecodeOverflowKeepsTheEmittedSymbols :
    let s := decodeState [4#8, 0x20#8] 2
    let syms := [0x61#8, 0x61#8]
    s.walkReady ∧ (∀ x ∈ syms, (s.entry x).len ≠ 0#8) ∧ (s.entry 0x62#8).len ≠ 0#8 ∧ syms.length = s.dstCap.toNat ∧
    s.holdsArtifact 4 4 ∧ (s.ct.stream (syms ++ [0x62#8])).length ≤ 4 ∧
    s.payloadBegins (s.ct.stream (syms ++ [0x62#8])) := by
  refine ⟨⟨?_, by decide, withTree_treeOfTable _ _ _ _ _ _ test_treeBuild_arena⟩, by decide +kernel, by decide +kernel,
    by decide, ?_, by decide +kernel, ?_⟩
  · unfold State.windowsGood; decide +kernel
  · unfold State.holdsArtifact; decide +kernel
  · unfold State.payloadBegins; decide +kernel

theorem witness_DecodeFrame :
    exec .decode (decodeState [4#8, 0x20#8] 2) = .next (after .decode (decodeState [4#8, 0x20#8] 2)) := exec_after _ _

/-- "aab" encoded and decoded under T1, the artifact where ENCODE left it. -/
theorem witness_EncodeThenDecodeIsTheIdentity :
    let b := loaded tableT1 0 [] 0 0
    let b' := after .treeBuild b
    let e := encodeState 2
    let e' := after .encode e
    let d := { windows 0x100 2 0x200 3 with
      ct := tableT1, arena := b'.arena, dmem := e'.dmem, status := ⟨false, false, false, true, false⟩ }
    exec .treeBuild b = .next b' ∧ b'.status.err = false ∧ e.ct = b.ct ∧ exec .encode e = .next e' ∧
    e'.status.err = false ∧ d.ct = b.ct ∧ d.arena = b'.arena ∧ d.arenaDraw = b'.arenaDraw ∧
    d.status.treeValid = true ∧ d.windowsGood ∧ d.srcLen = e'.outLen ∧
    (∀ i < e'.outLen.toNat, d.byteAt (d.src.toNat + i) = e'.byteAt (e.dst.toNat + i)) ∧
    e.srcLen.toNat ≤ d.dstCap.toNat := by
  refine ⟨exec_after _ _, by decide +kernel, rfl, exec_after _ _, by decide +kernel, rfl,
    by decide +kernel, by decide +kernel, rfl, ?_, by decide +kernel, by decide +kernel, by decide⟩
  unfold State.windowsGood; decide +kernel

/-- An outcome is a next state. -/
def isNext (o : Host.Outcome State Fault Refusal) : Bool :=
  match o with
  | .next _ => true
  | .fault _ | .refused _ => false

theorem next_of_isNext {o : Host.Outcome State Fault Refusal} (h : isNext o = true) : o = .next (stateOf o) := by
  cases o <;> simp_all [isNext, stateOf]

/-- A state with a table and its tree, not a reset one, and a step from it that runs DECODE. -/
theorem witness_EveryStepKeepsTheInvariant :
    ((decodeState [4#8, 0x20#8] 16).withPending 8#32).Inv ∧
    step ((decodeState [4#8, 0x20#8] 16).withPending 8#32) =
      .next (stateOf (step ((decodeState [4#8, 0x20#8] 16).withPending 8#32))) where
  left :=
    { dmemWf := by decide +kernel
      arenaWf := by decide +kernel
      zeroTail := tableOf_zeroTail _
      busyQuiet := by decide
      errHasCode := by decide
      codeRange := by decide
      nodeCountRange := by decide +kernel
      treeCurrent := fun _ => by
        obtain ⟨b, t, h⟩ := withTree_treeOfTable tableT1 0 [4#8, 0x20#8] 0x100 16 treeT1 test_treeBuild_arena
        exact ⟨b, t, h⟩
      resetHeld := fun h => by cases h }
  right := next_of_isNext (by decide +kernel)

theorem witness_TreeValidIsSetOnlyByTreeBuild :
    let s := (loaded tableT1 0 [] 0 0).withPending 7#32
    step s = .next (stateOf (step s)) ∧ s.status.treeValid = false ∧ (stateOf (step s)).status.treeValid = true :=
  ⟨next_of_isNext (by decide +kernel), by decide +kernel, by decide +kernel⟩

theorem witness_TableChangeClearsTreeValid :
    let s := (decodeState [] 0).withPending 1#32
    step s = .next (stateOf (step s)) ∧ (stateOf (step s)).ct ≠ s.ct ∧ s.status.treeValid = true :=
  ⟨next_of_isNext (by decide +kernel), by decide +kernel, by decide +kernel⟩

/-- An idle machine, and the ends of the empty part of the register window. -/
theorem witness_RegisterMap :
    State.reset.status.busy = false ∧ 0x068 ≤ (0x00068#17).toNat ∧ (0x0FFFF#17).toNat < 0x10000 := by decide

/-- An idle machine; the first and the last offset of the list. -/
theorem witness_WritesToReadOnlyRegistersChangeNothing :
    let offs := [0x000#17, 0x004#17, 0x014#17, 0x018#17, 0x02C#17, 0x030#17, 0x034#17, 0x038#17, 0x03C#17]
    State.reset.status.busy = false ∧ 0x000#17 ∈ offs ∧ 0x03C#17 ∈ offs := by decide

theorem witness_IdentityRegistersAreConstant : State.reset.status.busy = false := by decide

theorem witness_WrittenRegistersReadBack : State.reset.status.busy = false ∧ (7 : Fin 8) ≠ 0 := by decide

theorem witness_HostReadsHaveNoSideEffect : State.reset.status.busy = false := by decide

theorem witness_InterruptFollowsItsEnabledSources : State.reset.status.busy = false := by decide

theorem witness_RunProgramPerformsTheCommand :
    State.reset.status.busy = false ∧ State.reset.resetLine = false := by decide

/-- An idle machine; a busy one with an illegal word pending. -/
theorem witness_CmdWriteAcceptsACommand :
    State.reset.status.busy = false ∧ (pendingWith 9#32).status.busy = true ∧ (pendingWith 9#32).cmd = 9#32 ∧
    (∀ i, 9#32 ≠ encode i) ∧ (pendingWith 9#32).resetLine = false ∧ (pendingWith 9#32).agenda = [] :=
  ⟨by decide, by decide, by decide, fun i => by cases i <;> decide, by decide, by decide⟩

/-- Every kind of illegal access, at the ends of its range. -/
theorem witness_IllegalAccessesGetABusError :
    (0x00000#17).toNat < 0x10000 ∧ (0x0FFFF#17).toNat < 0x10000 ∧ (0x00001#17).toNat % 4 ≠ 0 ∧
    (0x1FFFF#17).toNat % 4 ≠ 0 ∧ 0x068 ≤ (0x00068#17).toNat ∧ (0x0FFFC#17).toNat < 0x10000 := by decide

/-- The last byte and the last word of memory. -/
theorem witness_IdleMemoryAccesses :
    State.reset.status.busy = false ∧ 65535 < 65536 ∧ 65532 < 65536 ∧ 65532 % 4 = 0 := by decide

theorem witness_MixedWidthAccessesSeeOneByteArray :
    State.reset.status.busy = false ∧ 65532 + 3 < 65536 ∧ 65532 % 4 = 0 := by decide

/-- A busy machine; the first and last register, the first and last word and byte of memory. -/
theorem witness_BusyWritesAreDroppedWithCollision :
    (pendingWith 0#32).status.busy = true ∧
    ((0x000#17).toNat % 4 = 0 ∧ (0x000#17).toNat ≠ 0x00C ∧ (0x000#17).toNat < 0x068) ∧
    ((0x064#17).toNat % 4 = 0 ∧ (0x064#17).toNat ≠ 0x00C ∧ (0x064#17).toNat < 0x068) ∧
    ((0x1FFFC#17).toNat % 4 = 0 ∧ (0x1FFFC#17).toNat ≠ 0x00C ∧ 0x10000 ≤ (0x1FFFC#17).toNat) ∧
    0x10000 ≤ (0x10000#17).toNat ∧ 0x10000 ≤ (0x1FFFF#17).toNat := by decide

/-- A busy machine; both ends of every range of offsets, no two of which share an offset. -/
theorem witness_BusyReadsAreExactOrUnspecified :
    (pendingWith 0#32).status.busy = true ∧ (0x018#17).toNat % 4 = 0 ∧
    (0x02C ≤ (0x02C#17).toNat ∧ (0x03C#17).toNat ≤ 0x03C ∧ (0x02C#17).toNat % 4 = 0 ∧ (0x03C#17).toNat % 4 = 0) ∧
    (0x048 ≤ (0x048#17).toNat ∧ (0x064#17).toNat ≤ 0x064 ∧ (0x048#17).toNat % 4 = 0 ∧ (0x064#17).toNat % 4 = 0) ∧
    (0x10000 ≤ (0x10000#17).toNat ∧ 0x10000 ≤ (0x1FFFC#17).toNat ∧ (0x1FFFC#17).toNat % 4 = 0) ∧
    0x10000 ≤ (0x1FFFF#17).toNat := by decide

/-! ### Platforms -/

/-- Two HBEs after reset, the second's first address next after the first's last. -/
def twoHbes : Platform := [⟨0x40000, State.resetOf 0⟩, ⟨0x60000, State.resetOf 1⟩]

/-- The value of `SRC` in each HBE after a platform step. -/
def sourcesAfter (t : PlatformTurn) : List Word :=
  match platformStep twoHbes t with
  | .next p => p.map fun sl => sl.hbe.src
  | .fault _ => []
  | .refused _ => []

/-- R91, R37: a write at a base plus 0x01C is a write to `SRC` of the HBE at that base and of no other; the same
offset from no base reaches neither. -/
theorem test_platform_write_reaches_one_hbe :
    sourcesAfter (.bus 0x4001C (.wr32 7#32)) = [7#32, 0#32] ∧
    sourcesAfter (.bus 0x6001C (.wr32 7#32)) = [0#32, 7#32] ∧
    sourcesAfter (.bus 0x8001C (.wr32 7#32)) = [0#32, 0#32] := by decide +kernel

theorem twoHbes_apart : twoHbes.apart := by simp [twoHbes, Platform.apart]

theorem twoHbes_ownDraws : twoHbes.ownDraws := by
  intro k h
  match k, h with
  | 0, _ => exact ⟨rfl, rfl, rfl⟩
  | 1, _ => exact ⟨rfl, rfl, rfl⟩

/-- The first and the last address of the two windows, the last before and the first after them. -/
theorem witness_PlatformAddressesMapToOffsets :
    0 < 0x20000 ∧ 0x1FFFF < 0x20000 ∧ 0x3FFFF < 0x40000 ∧ 0x40000 + 0x20000 ≤ 0x60000 := by decide

/-- The second of two HBEs takes each kind of turn: a read of its last byte, its engine's, both of its reset input; and
the addresses next before the first HBE's and next after the second's reach none. -/
theorem witness_InstancesShareNoState :
    ∃ h : 1 < twoHbes.length,
      (∃ s, step { twoHbes[1].hbe with
        agenda := .host (BusOp.rd8.toAccess 0x1FFFF#17) :: twoHbes[1].hbe.agenda } = .next s) ∧
      (∃ s, step { twoHbes[1].hbe with agenda := .engine :: twoHbes[1].hbe.agenda } = .next s) ∧
      (∃ s, step { twoHbes[1].hbe with agenda := .assertReset :: twoHbes[1].hbe.agenda } = .next s) ∧
      (∃ s, step { twoHbes[1].hbe with agenda := .releaseReset :: twoHbes[1].hbe.agenda } = .next s) ∧
      twoHbes.apart ∧
      (∀ sl ∈ twoHbes, 0x3FFFF < sl.base ∨ sl.base + 0x20000 ≤ 0x3FFFF) ∧
      ∀ sl ∈ twoHbes, 0x80000 < sl.base ∨ sl.base + 0x20000 ≤ 0x80000 :=
  ⟨by decide, ⟨_, rfl⟩, ⟨_, rfl⟩, ⟨_, rfl⟩, ⟨_, rfl⟩, twoHbes_apart, by simp [twoHbes], by simp [twoHbes]⟩

/-- Two HBEs that are apart and draw their own values, and a step of each kind of them. -/
theorem witness_PlatformStepKeepsInstancesApart :
    twoHbes.apart ∧ twoHbes.ownDraws ∧
    (∃ p, platformStep twoHbes (.bus 0x7FFFF (.wr8 1#8)) = .next p) ∧
    (∃ p, platformStep twoHbes (.bus 0x80000 .rd8) = .next p) ∧
    (∃ p, platformStep twoHbes (.engine 0) = .next p) ∧
    ∃ p, platformStep twoHbes (.assertReset 1) = .next p :=
  ⟨twoHbes_apart, twoHbes_ownDraws, ⟨_, rfl⟩, ⟨_, rfl⟩, ⟨_, rfl⟩, ⟨_, rfl⟩⟩

end Sys2Proof.Tests
end

-- Proofs: register accesses of the host port, and the identity registers
section
/-! PROOFS. What a host access of a register answers (10_state.md R17; 20_memory.md R43, R44), and that the identity
registers are constant (10_state.md R18). -/

namespace Sys2Proof.Machine

/-- R17, R44: a read of a register is exact while no command is pending, and in the registers of R44 always. -/
theorem hostRead_reg_of_exact (s : State) (r : Reg) (h : s.status.busy = false ∨ r.exactWhileBusy = true) :
    hostRead s (.reg r) = s.answered (.data32 (s.readReg r)) := by
  have hno : ¬(s.status.busy && (Target.reg r).unspecifiedWhileBusy) = true := by
    rcases h with h | h <;> simp [h, Target.unspecifiedWhileBusy]
  rw [hostRead, if_neg hno]
  rfl

/-- R17: a write to a register while no command is pending is performed and acknowledged. -/
theorem hostWrite_reg_of_idle (s : State) (r : Reg) (v : Word) (h : s.status.busy = false) :
    hostWrite s (.reg r) v = (s.writeReg v r).answered .ack := by
  rw [hostWrite, if_neg (by simp [h])]
  rfl

theorem target32_id : target32 0x000#17 = some (.reg .id) := by decide

theorem target32_version : target32 0x004#17 = some (.reg .version) := by decide

theorem readReg_id (s : State) : s.readReg .id = 0x48424531#32 := rfl

theorem readReg_version (s : State) : s.readReg .version = 1#32 := rfl

theorem writeReg_id (s : State) (v : Word) : s.writeReg v .id = s := rfl

theorem writeReg_version (s : State) (v : Word) : s.writeReg v .version = s := rfl

/-- Settles O45: both registers are exact while busy, hold no field of the state, and take no write. -/
theorem identityRegistersAreConstant : Obligations.IdentityRegistersAreConstant := by
  intro s
  refine ⟨?readId, ?readVersion, fun idle v => ⟨?writeId, ?writeVersion⟩, fun level =>
    ⟨readReg_id _, readReg_version _⟩⟩
  case readId => rw [hostAccess_rd_reg _ _ _ target32_id, hostRead_reg_of_exact _ _ (.inr rfl), readReg_id]
  case readVersion =>
    rw [hostAccess_rd_reg _ _ _ target32_version, hostRead_reg_of_exact _ _ (.inr rfl), readReg_version]
  case writeId => rw [hostAccess_wr_reg _ _ _ target32_id, hostWrite_reg_of_idle _ _ _ idle, writeReg_id]
  case writeVersion =>
    rw [hostAccess_wr_reg _ _ _ target32_version, hostWrite_reg_of_idle _ _ _ idle, writeReg_version]

end Sys2Proof.Machine
end

-- Proofs: memory accesses of the host port, idle and busy
section
/-! PROOFS. What a host access of data memory is while no command is pending, that accesses of both widths see one byte
array (20_memory.md R38, R40, R41), and what a write is while one is pending (R43). -/

namespace Sys2Proof.Machine

/-! ### Performed accesses -/

theorem hostAccess_rd8_of_target (s : State) {off : BitVec 17} {t : Target} (h : target8 off = some t) :
    hostAccess (.rd8 off) s = hostRead s t := by
  simp [hostAccess, HostAccess.target, h]

theorem hostAccess_rd32_of_target (s : State) {off : BitVec 17} {t : Target} (h : target32 off = some t) :
    hostAccess (.rd32 off) s = hostRead s t := by
  simp [hostAccess, HostAccess.target, h]

theorem hostAccess_wr8_of_target (s : State) {off : BitVec 17} {t : Target} (h : target8 off = some t) (b : Byte) :
    hostAccess (.wr8 off b) s = hostWrite s t (b.setWidth 32) := by
  simp [hostAccess, HostAccess.target, h]

theorem hostAccess_wr32_of_target (s : State) {off : BitVec 17} {t : Target} (h : target32 off = some t) (v : Word) :
    hostAccess (.wr32 off v) s = hostWrite s t v := by
  simp [hostAccess, HostAccess.target, h]

theorem hostRead_of_idle {s : State} (idle : s.status.busy = false) (t : Target) :
    hostRead s t = s.answered (t.response (s.readTarget t)) := by
  rw [hostRead, if_neg (by simp [idle])]
  rfl

theorem hostWrite_of_idle {s : State} (idle : s.status.busy = false) (t : Target) (v : Word) :
    hostWrite s t v = (s.writeTarget v t).answered .ack := by
  rw [hostWrite, if_neg (by simp [idle])]
  rfl

/-! ### Memory while no command is pending (R38, R40) -/

section
variable {s : State} {a : Nat}

theorem hostAccess_rd8_mem (idle : s.status.busy = false) (ha : a < 65536) :
    hostAccess (.rd8 (BitVec.ofNat 17 (0x10000 + a))) s = s.answered (.data8 (s.byteAt a)) := by
  rw [hostAccess_rd8_of_target s (target8_mem ha), hostRead_of_idle idle]
  simp [Target.response, State.readTarget]

theorem hostAccess_rd32_mem (idle : s.status.busy = false) (ha : a < 65536) (h4 : a % 4 = 0) :
    hostAccess (.rd32 (BitVec.ofNat 17 (0x10000 + a))) s = s.answered (.data32 (s.wordAt a)) := by
  rw [hostAccess_rd32_of_target s (target32_mem ha h4), hostRead_of_idle idle]
  rfl

theorem hostAccess_wr8_mem (idle : s.status.busy = false) (ha : a < 65536) (b : Byte) :
    hostAccess (.wr8 (BitVec.ofNat 17 (0x10000 + a)) b) s =
      { s with dmem := s.dmem.writeBytes a [b] }.answered .ack := by
  rw [hostAccess_wr8_of_target s (target8_mem ha), hostWrite_of_idle idle]
  simp [State.writeTarget]

theorem hostAccess_wr32_mem (idle : s.status.busy = false) (ha : a < 65536) (h4 : a % 4 = 0) (v : Word) :
    hostAccess (.wr32 (BitVec.ofNat 17 (0x10000 + a)) v) s =
      { s with dmem := s.dmem.writeBytes a (wordBytes v) }.answered .ack := by
  rw [hostAccess_wr32_of_target s (target32_mem ha h4), hostWrite_of_idle idle]
  rfl

theorem wr8_mem_busy (idle : s.status.busy = false) (ha : a < 65536) (b : Byte) :
    (hostAccess (.wr8 (BitVec.ofNat 17 (0x10000 + a)) b) s).status.busy = false := by
  rw [hostAccess_wr8_mem idle ha]
  exact idle

theorem wr32_mem_busy (idle : s.status.busy = false) (ha : a < 65536) (h4 : a % 4 = 0) (v : Word) :
    (hostAccess (.wr32 (BitVec.ofNat 17 (0x10000 + a)) v) s).status.busy = false := by
  rw [hostAccess_wr32_mem idle ha h4]
  exact idle

/-- A byte write sets one byte of the array. -/
theorem byteAt_wr8_mem (idle : s.status.busy = false) (ha : a < 65536) (b : Byte) (x : Nat) :
    (hostAccess (.wr8 (BitVec.ofNat 17 (0x10000 + a)) b) s).byteAt x = if x = a then b else s.byteAt x := by
  rw [hostAccess_wr8_mem idle ha]
  exact Memory.read_writeCell s.dmemDraw s.dmem a b x

@[simp] theorem wordBytes_length (v : Word) : (wordBytes v).length = 4 := rfl

theorem wordBytes_getElem (v : Word) {i : Nat} (hi : i < (wordBytes v).length) :
    (wordBytes v)[i] = v.extractLsb' (8 * i) 8 := by
  match i, hi with
  | 0, _ | 1, _ | 2, _ | 3, _ => rfl

/-- A word write sets the four bytes from its address, least significant first, and no other. -/
theorem byteAt_wr32_mem (idle : s.status.busy = false) (ha : a < 65536) (h4 : a % 4 = 0) (v : Word) (x : Nat) :
    (hostAccess (.wr32 (BitVec.ofNat 17 (0x10000 + a)) v) s).byteAt x =
      if a ≤ x ∧ x < a + 4 then v.extractLsb' (8 * (x - a)) 8 else s.byteAt x := by
  rw [hostAccess_wr32_mem idle ha h4]
  refine (Memory.read_writeBytes s.dmemDraw (wordBytes v) s.dmem a x).trans ?_
  by_cases inside : a ≤ x ∧ x < a + 4
  · have hi : x - a < (wordBytes v).length := by rw [wordBytes_length]; omega
    rw [dif_pos ⟨inside.1, hi⟩, if_pos inside, wordBytes_getElem v hi]
  · have outside : ¬(a ≤ x ∧ x - a < (wordBytes v).length) := by rw [wordBytes_length]; omega
    rw [dif_neg outside, if_neg inside]
    rfl

/-- After four byte writes at rising addresses the word there is their little-endian composition. -/
theorem rd32_after_wr8s (idle : s.status.busy = false) (ha : a + 3 < 65536) (h4 : a % 4 = 0) (b0 b1 b2 b3 : Byte) :
    (hostAccess (.rd32 (BitVec.ofNat 17 (0x10000 + a)))
      (hostAccess (.wr8 (BitVec.ofNat 17 (0x10000 + (a + 3))) b3)
        (hostAccess (.wr8 (BitVec.ofNat 17 (0x10000 + (a + 2))) b2)
          (hostAccess (.wr8 (BitVec.ofNat 17 (0x10000 + (a + 1))) b1)
            (hostAccess (.wr8 (BitVec.ofNat 17 (0x10000 + a)) b0) s))))).busResp =
      .data32 (bytesWord b0 b1 b2 b3) := by
  have idle1 := wr8_mem_busy idle (show a < 65536 by omega) b0
  have idle2 := wr8_mem_busy idle1 (show a + 1 < 65536 by omega) b1
  have idle3 := wr8_mem_busy idle2 (show a + 2 < 65536 by omega) b2
  have idle4 := wr8_mem_busy idle3 ha b3
  rw [hostAccess_rd32_mem idle4 (by omega) h4]
  refine congrArg BusResp.data32 ?_
  simp [State.wordAt, byteAt_wr8_mem idle3 ha, byteAt_wr8_mem idle2 (show a + 2 < 65536 by omega),
    byteAt_wr8_mem idle1 (show a + 1 < 65536 by omega), byteAt_wr8_mem idle (show a < 65536 by omega)]

end

/-- Settles O52: reads and writes of both widths are reads and writes of the same bytes. -/
theorem mixedWidthAccessesSeeOneByteArray : Obligations.MixedWidthAccessesSeeOneByteArray := by
  intro s a v idle ha h4
  refine ⟨fun i hi => ?byteOfWord, fun b0 b1 b2 b3 => ?wordOfBytes⟩
  case byteOfWord =>
    have ha' : a < 65536 := by omega
    rw [Nat.add_assoc, hostAccess_rd8_mem (wr32_mem_busy idle ha' h4 v) (by omega)]
    refine congrArg BusResp.data8 ?_
    rw [byteAt_wr32_mem idle ha' h4, if_pos (by omega), Nat.add_sub_cancel_left]
  case wordOfBytes =>
    simp only [Nat.add_assoc 0x10000 a]
    exact rd32_after_wr8s idle ha h4 b0 b1 b2 b3

/-! ### Writes while a command is pending (R43) -/

theorem offset_of_regAt {n : Nat} {r : Reg} (h : regAt n = some r) : r.offset = n := by
  simpa using List.find?_some h

/-- Registers stand at every multiple of 4 below 0x068 (R16). -/
theorem regAt_isSome {n : Nat} (h4 : n % 4 = 0) (h : n < 0x068) : (regAt n).isSome := by
  have every : ∀ k < 26, (regAt (4 * k)).isSome := by decide
  have e : n = 4 * (n / 4) := by omega
  rw [e]
  exact every _ (by omega)

/-- A 32-bit access at an aligned offset of a register or of memory is legal (R38). -/
theorem target32_isSome {off : BitVec 17} (h4 : off.toNat % 4 = 0) (h : off.toNat < 0x068 ∨ 0x10000 ≤ off.toNat) :
    (target32 off).isSome := by
  rw [target32, if_neg (by omega)]
  obtain h | h := h
  · rw [if_pos (by simp only [Config.dmemWindow]; omega), Option.isSome_map]
    exact regAt_isSome h4 h
  · rw [if_neg (by simp only [Config.dmemWindow]; omega)]
    rfl

theorem target32_status : target32 0x00C#17 = some (.reg .status) := by decide

/-- `STATUS` is addressed at its own offset only. -/
theorem offset_of_target32_status {off : BitVec 17} (h : target32 off = some (.reg .status)) : off.toNat = 0x00C := by
  rw [target32] at h
  split_ifs at h with aligned window
  · obtain ⟨r, hr, e⟩ := Option.map_eq_some_iff.1 h
    cases e
    exact (offset_of_regAt hr).symm
  · cases h

theorem target8_of_ge {off : BitVec 17} (h : 0x10000 ≤ off.toNat) : target8 off = some (.byte (off.toNat - 0x10000)) :=
  if_neg (Nat.not_lt.2 h)

theorem hostWrite_dropped {s : State} (busy : s.status.busy = true) {t : Target} (ht : t ≠ .reg .status) (v : Word) :
    hostWrite s t v = s.setCollision.answered .ack := by
  rw [hostWrite, if_pos (by simp [busy, ht])]
  rfl

/-- R20, R43: a write to `STATUS` is performed whether or not a command is pending. -/
theorem hostWrite_status (s : State) (v : Word) : hostWrite s (.reg .status) v = (s.acknowledge v).answered .ack := by
  rw [hostWrite, if_neg (by simp)]
  rfl

theorem writeOneToClear_eq (t : Status) (v : Word) :
    t.writeOneToClear v =
      { busy := t.busy
        done := if v.getLsbD 1 then false else t.done
        err := if v.getLsbD 2 then false else t.err
        treeValid := t.treeValid
        collision := if v.getLsbD 4 then false else t.collision } := by
  have cleared : ∀ old one : Bool, (old && !one) = if one then false else old := by decide
  simp only [Status.writeOneToClear, cleared]

/-- Settles O53: the target of each write but the last is not `STATUS`, so the write is dropped. -/
theorem busyWritesAreDroppedWithCollision : Obligations.BusyWritesAreDroppedWithCollision := by
  intro s off v b busy
  refine ⟨fun h4 hne legal => ?write32, fun memory => ?write8, ?writeStatus⟩
  case write32 =>
    obtain ⟨t, ht⟩ := Option.isSome_iff_exists.1 (target32_isSome h4 legal)
    have notStatus : t ≠ .reg .status := by
      rintro rfl
      exact hne (offset_of_target32_status ht)
    rw [hostAccess_wr32_of_target s ht, hostWrite_dropped busy notStatus]
    rfl
  case write8 =>
    rw [hostAccess_wr8_of_target s (target8_of_ge memory), hostWrite_dropped busy (by simp)]
    rfl
  case writeStatus =>
    rw [hostAccess_wr_reg _ _ _ target32_status, hostWrite_status, State.acknowledge, writeOneToClear_eq, busy]

end Sys2Proof.Machine
end

-- Proofs: the decoder and the encoder of command words
section
/-! PROOFS. What the decoder answers, field by field, and that it agrees with the encoder on every word
(30_encoding.md R49, R51, R52). -/

namespace Sys2Proof

/-- R49: the two fields are the whole word. -/
theorem reservedField_append_opcodeField (w : Word) : reservedField w ++ opcodeField w = w := by
  calc w.extractLsb' 8 24 ++ w.extractLsb' 0 8 = w.extractLsb' 0 32 :=
        BitVec.extractLsb'_append_extractLsb'_eq_extractLsb' rfl
    _ = w := BitVec.extractLsb'_eq_self

/-- R52: the decoder accepts a word exactly when `RSV` is zero and the opcode map has its `OPCODE`. -/
theorem decode_eq_ok_iff (w : Word) (i : Instr) :
    decode w = .ok i ↔ reservedField w = 0#24 ∧ opcodeCommand (opcodeField w) = some i := by
  rw [decode]
  by_cases hr : reservedField w = 0#24
  · cases hc : opcodeCommand (opcodeField w) <;> simp [hr]
  · simp [hr]

/-- R51: the opcode map has each command once, so the command determines the opcode. -/
theorem opcode_eq_of_opcodeCommand_eq_some {o : Byte} {i : Instr} (h : opcodeCommand o = some i) :
    o = opcodeField (encode i) := by
  rw [opcodeCommand] at h
  split at h
  case h_10 => cases h
  all_goals
    cases h
    exact BitVec.eq_of_toNat_eq ‹_›

theorem reservedField_encode (i : Instr) : reservedField (encode i) = 0#24 := by cases i <;> rfl

/-- The family `Encoding` holds of every command. -/
theorem encoding_statement : ∀ i : Instr, Laws.Encoding.Statement i
  | .nop => Laws.Encoding.nop
  | .tableClear => Laws.Encoding.tableClear
  | .entryWrite => Laws.Encoding.entryWrite
  | .entryRead => Laws.Encoding.entryRead
  | .tableStore => Laws.Encoding.tableStore
  | .tableLoad => Laws.Encoding.tableLoad
  | .encode => Laws.Encoding.encode
  | .treeBuild => Laws.Encoding.treeBuild
  | .decode => Laws.Encoding.decode

/-- The decoder reads every command back from its word. -/
theorem decode_encode (i : Instr) : decode (encode i) = .ok i := by
  obtain ⟨-, -, decoded, -⟩ := encoding_statement i
  exact decoded

/-- No other word decodes to a command: its two fields are those of the command's own word. -/
theorem eq_encode_of_decode {w : Word} {i : Instr} (h : decode w = .ok i) : w = encode i := by
  obtain ⟨reserved, assigned⟩ := (decode_eq_ok_iff w i).1 h
  calc w = reservedField w ++ opcodeField w := (reservedField_append_opcodeField w).symm
    _ = reservedField (encode i) ++ opcodeField (encode i) := by
      rw [reserved, opcode_eq_of_opcodeCommand_eq_some assigned, reservedField_encode]
    _ = encode i := reservedField_append_opcodeField _

/-- Settles O1: a word that decodes has the fields of its command's encoding, and the decoder reads every encoding
back. -/
theorem legalWordsAreExactlyTheNine : Obligations.LegalWordsAreExactlyTheNine := by
  refine ⟨fun w i => ⟨eq_encode_of_decode, ?ofEncoding⟩, rfl, rfl, rfl, rfl, rfl, rfl, rfl, rfl, rfl⟩
  case ofEncoding =>
    rintro rfl
    exact decode_encode i

end Sys2Proof
end

-- Proofs: the code table access commands
section
/-! PROOFS. What the four code table access commands leave of a state, as records (40_table_access.md R55 to R58). -/

namespace Sys2Proof.Machine

/-! ### The state each command leaves -/

theorem exec_nop (s : State) : exec .nop s = .next (s.okRecord 0 0 0 0) := rfl

theorem exec_tableClear (s : State) :
    exec .tableClear s = .next ({ s.withoutTree with ct := Table.empty }.okRecord 0 0 0 0) := rfl

theorem exec_entryWrite (s : State) :
    exec .entryWrite s = .next ({ s.withoutTree with ct := s.ct.put s.esym s.stagedEntry }.okRecord 0 0 0 0) := rfl

/-- The selected entry copied into `ELEN` and `ECODE` (R58). -/
def State.entryCopied (s : State) : State :=
  { s with
    elen := (s.entry s.esym).len
    ecode := ecodeOf fun i => decide (i < (s.entry s.esym).len.toNat) && (s.entry s.esym).pos i }

theorem entryCopied_elen (s : State) : s.entryCopied.elen = (s.entry s.esym).len := rfl

theorem exec_entryRead (s : State) : exec .entryRead s = .next (s.entryCopied.okRecord 0 0 0 0) := rfl

/-- R83: completion leaves the code table. -/
@[simp] theorem okRecord_entry (s : State) (o b p n : Nat) (sym : Byte) :
    (s.okRecord o b p n).entry sym = s.entry sym := rfl

theorem entry_withTable (s : State) (t : Table) (sym : Byte) : { s with ct := t }.entry sym = t.get sym := rfl

/-! ### Entries and the entry registers -/

@[simp] theorem CTEntry.empty_pos (i : Nat) : CTEntry.empty.pos i = false :=
  CTEntry.empty_zeroTail i (Nat.zero_le i)

/-- R25: below 256 a position of the staged codeword is a bit of the register its number selects. -/
theorem ecodeBit_of_lt (v : Vector Word 8) {i : Nat} (h : i < 256) :
    ecodeBit v i = (v[i / 32]'(by omega)).getLsbD (31 - i % 32) :=
  dif_pos (by omega)

/-- R57: what ENTRY_WRITE stores, position by position. -/
theorem stagedEntry_pos (s : State) {i : Nat} (h : i < 255) :
    s.stagedEntry.pos i = (decide (i < s.elen.toNat) && (s.ecode[i / 32]'(by omega)).getLsbD (31 - i % 32)) := by
  rw [State.stagedEntry, CTEntry.make_pos, ecodeBit_of_lt _ (show i < 256 by omega)]

/-- R58: positions past the length read back as 0. -/
theorem ecodeBit_entryCopied (s : State) {i : Nat} (h : i < 256) :
    ecodeBit s.entryCopied.ecode i = (decide (i < (s.entry s.esym).len.toNat) && (s.entry s.esym).pos i) :=
  ecodeBit_ecodeOf _ h

/-- R58: a copied entry stages itself, if its tail is zero: the positions the copy drops were 0. -/
theorem stagedEntry_entryCopied {s : State} (tail : (s.entry s.esym).zeroTail) :
    s.entryCopied.stagedEntry = s.entry s.esym := by
  refine CTEntry.ext_pos (entryCopied_elen s) fun i hi => ?_
  rw [State.stagedEntry, CTEntry.make_pos, entryCopied_elen, ecodeBit_entryCopied s (show i < 256 by omega)]
  by_cases below : i < (s.entry s.esym).len.toNat
  · simp [below]
  · simp [below, tail i (Nat.le_of_not_lt below)]

/-- A table with its own entry stored again is the same table. -/
@[simp] theorem Table.put_get_self (t : Table) (sym : Byte) : t.put sym (t.get sym) = t :=
  Vector.set_getElem_self sym.isLt

/-! ### The statements -/

/-- Settles O13: the body of NOP is empty, so the two steps around it are all it runs. -/
theorem nopOnlyCompletes : Obligations.NopOnlyCompletes :=
  ⟨rfl, exec_nop, _, exec_nop State.reset, by decide, rfl⟩

/-- Settles O14: every entry of the table it leaves is the empty one. -/
theorem tableClearEmptiesTheTable : Obligations.TableClearEmptiesTheTable := by
  refine ⟨rfl, fun s => ⟨_, exec_tableClear s, fun sym => ?entries, rfl⟩⟩
  case entries =>
    rw [okRecord_entry, entry_withTable, Table.get_empty]
    exact ⟨rfl, CTEntry.empty_pos⟩

/-- Settles O15: the table it leaves has the staged entry put at `ESYM`. -/
theorem entryWriteStoresTheStagedEntry : Obligations.EntryWriteStoresTheStagedEntry := by
  refine ⟨rfl, fun s => ⟨_, exec_entryWrite s, ?length, fun i hi => ?position, fun sym other => ?others, rfl⟩⟩
  all_goals rw [okRecord_entry, entry_withTable, Table.get_put]
  case length => rw [if_pos rfl, State.stagedEntry, CTEntry.make_len]
  case position => rw [if_pos rfl, stagedEntry_pos s hi]
  case others => rw [if_neg other, State.entry]

/-- Settles O16: `ECODE` holds the positions ENTRY_READ copied, and a copied entry stages itself. -/
theorem entryReadCopiesTheEntry : Obligations.EntryReadCopiesTheEntry := by
  refine ⟨rfl, fun s => ⟨_, exec_entryRead s, rfl, fun i hi => ?copied, rfl⟩,
    fun s tails => ⟨_, _, exec_entryRead s, exec_entryWrite _, ?rewritten, rfl⟩⟩
  case copied => exact (ecodeBit_of_lt _ hi).symm.trans (ecodeBit_entryCopied s hi)
  case rewritten =>
    calc s.ct.put s.esym s.entryCopied.stagedEntry = s.ct.put s.esym (s.ct.get s.esym) := by
          rw [stagedEntry_entryCopied (tails s.esym), State.entry]
      _ = s.ct := Table.put_get_self s.ct s.esym

end Sys2Proof.Machine
end

-- Proofs: the canonical order, and TABLE_LOAD of what TABLE_STORE stored
section
/-! PROOFS. The canonical key and the order it gives (41_table_serializer.md R59 to R61), the records of a table, and
TABLE_LOAD of an image of records, that of TABLE_STORE among them (R65). -/

namespace Sys2Proof.Machine

/-! ### The canonical key (R59, R61) -/

/-- Settles O17, by induction on the codeword: its first bit is the digit of the highest power of ten. -/
theorem canonicalKeyIsTheDecimalNumeral : Obligations.CanonicalKeyIsTheDecimalNumeral := by
  intro w
  induction w with
  | nil => rfl
  | cons b w ih =>
    have shift : ∀ i, bitAt (b :: w) (i + 1) = bitAt w i := fun _ => rfl
    have head : (bitAt (b :: w) 0).toNat + 1 = if b then 2 else 1 := by cases b <;> rfl
    rw [canonicalKey_cons, ih, List.length_cons, List.range_succ_eq_map, List.map_cons, List.sum_cons, List.map_map,
      head]
    simp only [Function.comp_def, Nat.succ_eq_add_one, shift, Nat.add_sub_cancel, Nat.sub_zero, Nat.sub_sub,
      Nat.add_comm 1]

/-- R61: the order of keys is shortlex order. -/
theorem canonicalKey_lt_iff_shortlex (u w : List Bool) : canonicalKey u < canonicalKey w ↔
    u.length < w.length ∨ (u.length = w.length ∧
      ∃ i < u.length, (∀ j < i, bitAt u j = bitAt w j) ∧ bitAt u i = false ∧ bitAt w i = true) := by
  rcases Nat.lt_trichotomy u.length w.length with shorter | same | longer
  · simp [shorter, canonicalKey_lt_of_length shorter]
  · simpa [same] using canonicalKey_lt_iff same
  · have larger := canonicalKey_lt_of_length longer
    exact iff_of_false (by omega) fun h => by rcases h with h | ⟨h, -⟩ <;> omega

theorem CTEntry.bitAt_word_of_lt {e : CTEntry} {i : Nat} (h : i < e.len.toNat) : bitAt e.word i = e.pos i := by
  rw [CTEntry.bitAt_word, decide_eq_true h, Bool.true_and]

/-- R61, in the fields of two entries: the order of their keys. -/
theorem CTEntry.key_lt_iff (e f : CTEntry) : canonicalKey e.word < canonicalKey f.word ↔
    e.len.toNat < f.len.toNat ∨ (e.len = f.len ∧
      ∃ i < e.len.toNat, (∀ j < i, e.pos j = f.pos j) ∧ e.pos i = false ∧ f.pos i = true) := by
  rw [canonicalKey_lt_iff_shortlex, CTEntry.word_length, CTEntry.word_length, BitVec.toNat_inj]
  refine or_congr_right (and_congr_right fun same => exists_congr fun i => and_congr_right fun below => ?_)
  have left : ∀ j ≤ i, bitAt e.word j = e.pos j := fun j h => CTEntry.bitAt_word_of_lt (by omega)
  have right : ∀ j ≤ i, bitAt f.word j = f.pos j := fun j h => CTEntry.bitAt_word_of_lt (by rw [← same]; omega)
  rw [left i le_rfl, right i le_rfl]
  refine and_congr_left fun _ => forall₂_congr fun j h => ?_
  rw [left j h.le, right j h.le]

theorem canonicalKey_eq_iff {u w : List Bool} : canonicalKey u = canonicalKey w ↔ u = w :=
  ⟨canonicalKey_inj, congrArg canonicalKey⟩

/-- Settles O19: equal keys are equal codewords, and the order of different keys is shortlex order. -/
theorem canonicalOrderIsShortlex : Obligations.CanonicalOrderIsShortlex := by
  intro ct s t
  rw [canonBefore_iff, canonicalKey_eq_iff, CTEntry.key_lt_iff, or_assoc]

/-! ### The canonical list (R60) -/

/-- R60: where no codeword begins another, each is held once, as a codeword begins itself. -/
theorem Table.prefixFree.eq_of_word_eq {ct : Table} (free : ct.prefixFree) {s t : Byte}
    (same : (ct.get s).word = (ct.get t).word) (present : (ct.get s).len ≠ 0#8) : s = t := by
  by_contra other
  have present' : (ct.get t).len ≠ 0#8 := CTEntry.word_ne_nil.1 (same ▸ CTEntry.word_ne_nil.2 present)
  exact free s t other present present' (same ▸ List.prefix_refl _)

/-- Settles O18: the sorted list orders each pair, and a key determines its codeword. -/
theorem canonicalListIsSortedByKeyThenSymbol : Obligations.CanonicalListIsSortedByKeyThenSymbol := by
  refine fun ct => ⟨ct.canonical_sorted.imp canonBefore_iff.1, fun s => Table.mem_canonical, fun s t sameKey => ?_⟩
  have sameWord := canonicalKey_inj sameKey
  exact ⟨sameWord, fun free present => free.eq_of_word_eq sameWord present⟩

/-! ### The records of a table -/

theorem Table.mem_records {ct : Table} {r : Byte × List Bool} :
    r ∈ ct.records ↔ (ct.get r.1).len ≠ 0#8 ∧ (ct.get r.1).word = r.2 := by
  obtain ⟨x, w⟩ := r
  simp [Table.records, Table.mem_canonical]

theorem Table.records_length (ct : Table) :
    ct.records.length = (allSymbols.filter fun x => (ct.get x).len ≠ 0#8).length := by
  rw [Table.records, List.length_map, ct.canonical_length, ct.present_eq]

theorem recordsGood.nodup {recs : List (Byte × List Bool)} (good : recordsGood recs) : recs.Nodup :=
  good.1.of_map

/-- The table read from good records has these records. -/
theorem mem_records_putRecords {recs : List (Byte × List Bool)} (good : recordsGood recs) {r : Byte × List Bool} :
    r ∈ (putRecords Table.empty recs).records ↔ r ∈ recs := by
  obtain ⟨distinct, lengths⟩ := good
  rw [Table.mem_records]
  constructor
  · rintro ⟨present, word⟩
    by_cases listed : r.1 ∈ recs.map Prod.fst
    · obtain ⟨q, hq, sym⟩ := List.mem_map.1 listed
      rw [← sym, get_putRecords distinct hq, entryOf_word (lengths q hq)] at word
      rwa [← Prod.ext sym word]
    · rw [get_putRecords_of_not_mem listed, Table.get_empty] at present
      exact absurd rfl present
  · intro hr
    rw [get_putRecords distinct hr]
    exact ⟨(entryOf_len (lengths r hr)).1, entryOf_word (lengths r hr)⟩

/-- R65: the records of the table read from good records are these records in another order. -/
theorem records_putRecords_perm {recs : List (Byte × List Bool)} (good : recordsGood recs) :
    (putRecords Table.empty recs).records.Perm recs :=
  (List.perm_ext_iff_of_nodup (records_good _).nodup good.nodup).2 fun _ => mem_records_putRecords good

/-- With a zero tail an entry is made from its codeword. -/
theorem entryOf_word_self {e : CTEntry} (tail : e.zeroTail) : entryOf e.word = e := by
  rw [entryOf, CTEntry.word_length, BitVec.ofNat_toNat, BitVec.setWidth_eq, CTEntry.make_word tail]

/-- With a zero tail an absent entry is the empty one. -/
theorem CTEntry.eq_empty {e : CTEntry} (tail : e.zeroTail) (absent : e.len = 0#8) : e = CTEntry.empty := by
  refine CTEntry.ext_pos absent fun i _ => ?_
  rw [tail i (by simp [absent]), CTEntry.empty_pos]

/-- R65: a table with zero tails is read from its own records. -/
theorem putRecords_records {ct : Table} (tails : ∀ x, (ct.get x).zeroTail) : putRecords Table.empty ct.records = ct := by
  refine Table.ext_get fun x => ?_
  by_cases absent : (ct.get x).len = 0#8
  · have unlisted : x ∉ ct.records.map Prod.fst := fun h => by
      obtain ⟨r, hr, rfl⟩ := List.mem_map.1 h
      exact (Table.mem_records.1 hr).1 absent
    rw [get_putRecords_of_not_mem unlisted, Table.get_empty, CTEntry.eq_empty (tails x) absent]
  · have listed : (x, (ct.get x).word) ∈ ct.records := Table.mem_records.2 ⟨absent, rfl⟩
    exact (get_putRecords (records_good ct).1 listed).trans (entryOf_word_self (tails x))

/-! ### TABLE_LOAD after TABLE_STORE (R65) -/

/-- R64: TABLE_LOAD of an image of good records, in any order. -/
theorem exec_tableLoad_of_sourceHolds {s : State} {recs : List (Byte × List Bool)} (good : recordsGood recs)
    (image : s.sourceHolds (imageBytes recs)) : exec .tableLoad s =
      .next ({ s.withoutTree with ct := putRecords Table.empty recs }.okRecord 0 0 0 recs.length) := by
  rw [exec_tableLoad, if_pos image.1, (loadImage_good good image).1]

/-- R63: what a TABLE_STORE that did not fail leaves: its results, and the image at `DST`. -/
theorem tableStore_of_not_err {s t : State} (stored : exec .tableStore s = .next t) (ok : t.status.err = false) :
    t.outLen.toNat = (imageBytes s.ct.records).length ∧ t.symCount = BitVec.ofNat 32 s.ct.records.length ∧
      ∀ i (h : i < (imageBytes s.ct.records).length), t.byteAt (s.dst.toNat + i) = (imageBytes s.ct.records)[i] := by
  rcases exec_tableStore s with ⟨window, fits, t', stored', record, bytes, -⟩ | ⟨-, failed⟩ | ⟨-, -, failed⟩
  · obtain rfl : t' = t := Host.Outcome.next.inj (stored'.symm.trans stored)
    have size : t'.outLen = BitVec.ofNat 32 (imageBytes s.ct.records).length := congrArg State.outLen record
    refine ⟨?_, congrArg State.symCount record, bytes⟩
    rw [size, BitVec.toNat_ofNat, Nat.mod_eq_of_lt (by omega)]
  all_goals
    obtain rfl := Host.Outcome.next.inj (failed.symm.trans stored)
    cases ok

/-- Settles O25: the image TABLE_STORE left reads as the table's records, which make the table again; and the records
of a table made from good records are these, in canonical order. -/
theorem storeThenLoadRestoresTheTable : Obligations.StoreThenLoadRestoresTheTable := by
  constructor
  · intro s t l tails stored ok window length copied
    obtain ⟨size, count, bytes⟩ := tableStore_of_not_err stored ok
    have image : l.sourceHolds (imageBytes s.ct.records) :=
      ⟨window, length ▸ size, fun i hi => (copied i (size ▸ hi)).trans (bytes i hi)⟩
    refine ⟨_, exec_tableLoad_of_sourceHolds (records_good s.ct) image, rfl, putRecords_records tails, count.symm, ?_⟩
    calc (BitVec.ofNat 32 s.ct.records.length).toNat = s.ct.records.length := by
          have := (loadImage_good (records_good s.ct) image).2
          rw [BitVec.toNat_ofNat, Nat.mod_eq_of_lt (by omega)]
      _ = (allSymbols.filter fun x => (s.ct.get x).len ≠ 0#8).length := s.ct.records_length
  · intro l recs good image
    exact ⟨_, exec_tableLoad_of_sourceHolds good image, records_putRecords_perm good⟩

end Sys2Proof.Machine
end

-- Proofs: the size law of ENCODE
section
/-! PROOFS. The payload of an artifact in each padding mode, and the results a successful ENCODE reports
(42_encoder.md R67, R70, R71). -/

namespace Sys2Proof.Machine

/-- R71: in mode 0 the padding fills the payload's last byte, a whole byte where the stream ends on a boundary. -/
theorem payloadBytes_false (len : Nat) : payloadBytes len false = len / 8 + 1 := by
  have pad : padding len false = 8 - len % 8 := rfl
  rw [payloadBytes, pad]
  omega

/-- R71: in mode 1 the payload is the stream rounded up to whole bytes. -/
theorem payloadBytes_true (len : Nat) : payloadBytes len true = (len + 7) / 8 := by
  have pad : padding len true = (8 - len % 8) % 8 := rfl
  rw [payloadBytes, pad]
  omega

/-- R70: the three results of a successful ENCODE, as numbers. None wraps: the size fits the destination window, and
the bits those of an input that fits in memory. -/
theorem encode_results {s t : State} (encoded : exec .encode s = .next t) (ok : t.status.err = false) :
    t.outLen.toNat = 1 + payloadBytes t.bitLen.toNat s.ctrl.padMode ∧
      t.pad.toNat = padding t.bitLen.toNat s.ctrl.padMode := by
  obtain ⟨window, -, fits, record, -⟩ := encode_ok encoded ok
  have bits := streamBits_le s window
  have padBits := padding_le (streamBits s.ct s.inputSymbols) s.ctrl.padMode
  have capacity := s.dstCap.isLt
  have outLen : t.outLen.toNat = _ := congrArg (fun u => u.outLen.toNat) record
  have bitLen : t.bitLen.toNat = _ := congrArg (fun u => u.bitLen.toNat) record
  have pad : t.pad.toNat = _ := congrArg (fun u => u.pad.toNat) record
  simp only [State.okRecord, BitVec.toNat_ofNat] at outLen bitLen pad
  rw [Nat.mod_eq_of_lt (by omega)] at outLen bitLen pad
  rw [outLen, bitLen, pad]
  exact ⟨rfl, rfl⟩

/-- Settles O29: the reported size is the payload of the reported bits and one byte, and the reported padding is that
of the reported bits. -/
theorem artifactSizeLaw : Obligations.ArtifactSizeLaw := by
  intro s t encoded ok
  obtain ⟨size, pad⟩ := encode_results encoded ok
  rw [size, pad]
  refine ⟨rfl, padding_aligned _ _, fun mode0 => ?wholeByte, fun mode1 => ?roundedUp⟩
  case wholeByte => rw [mode0, payloadBytes_false, Nat.add_assoc]
  case roundedUp => rw [mode1, payloadBytes_true]

end Sys2Proof.Machine
end

-- Proofs: the leaves of an accepted tree
section
/-! PROOFS. What the paths of the current table's tree end at, from the facts about the tree (43_decode_tree_walker.md
R75), and that a successful TREE_BUILD leaves such a tree. -/

namespace Sys2Proof.Machine

/-- A path goes on by `b` to the child on `b`, where there is one. -/
theorem follow_concat {s : State} {n m : Fin 512} {w : List Bool} (path : s.follow n w = some m) (b : Bool) :
    s.follow n (w ++ [b]) = if (s.nodeAt m).child b = 0 then none else some ((s.nodeAt m).child b) := by
  rw [follow_append, path]
  rfl

namespace TreeFacts

variable {s : State} (tree : TreeFacts s)
include tree

/-- Every path from the root but the empty one begins a codeword. -/
theorem begins_codeword {w : List Bool} {n : Fin 512} (nonempty : w ≠ []) (path : s.follow 0 w = some n) :
    ∃ x, (s.entry x).len ≠ 0#8 ∧ w <+: (s.entry x).word := by
  by_contra stray
  have noPath := tree.nowhere w nonempty fun x present begins => stray ⟨x, present, begins⟩
  cases path.symm.trans noPath

/-- R75: a node that holds a symbol ends the codeword of that symbol. -/
theorem word_of_hasSym {w : List Bool} {n : Fin 512} (path : s.follow 0 w = some n)
    (holds : (s.nodeAt n).hasSym = true) :
    (s.entry (s.nodeAt n).sym).len ≠ 0#8 ∧ (s.entry (s.nodeAt n).sym).word = w := by
  have nonempty : w ≠ [] := by
    rintro rfl
    obtain rfl : 0 = n := Option.some.inj path
    cases holds.symm.trans tree.rootBare
  obtain ⟨x, present, begins⟩ := tree.begins_codeword nonempty path
  have whole : w = (s.entry x).word := by
    by_contra proper
    cases holds.symm.trans (tree.inner x w n present begins proper path)
  subst whole
  obtain ⟨-, rfl⟩ := tree.leaf x n present path
  exact ⟨present, rfl⟩

/-- R75: the node at the end of a codeword has no child, since the codeword begins no other. -/
theorem child_of_codeword {x : Byte} {n : Fin 512} (present : (s.entry x).len ≠ 0#8)
    (path : s.follow 0 (s.entry x).word = some n) (b : Bool) : (s.nodeAt n).child b = 0 := by
  by_contra child
  have longer := follow_concat path b
  rw [if_neg child] at longer
  obtain ⟨y, presentY, begins⟩ := tree.begins_codeword (by simp) longer
  have begins' : (s.entry x).word <+: (s.entry y).word := (List.prefix_append _ [b]).trans begins
  have proper : (s.entry x).word ≠ (s.entry y).word := fun same => by
    have := begins.length_le
    simp [same] at this
  cases (tree.leaf x n present path).1.symm.trans (tree.inner y _ n presentY begins' proper path)

/-- R75: a node other than the root that holds no symbol has a child, the next one on the way to a codeword's end. -/
theorem exists_child {w : List Bool} {n : Fin 512} (nonempty : w ≠ []) (path : s.follow 0 w = some n)
    (bare : (s.nodeAt n).hasSym = false) : ∃ b, (s.nodeAt n).child b ≠ 0 := by
  obtain ⟨x, present, begins⟩ := tree.begins_codeword nonempty path
  have proper : w ≠ (s.entry x).word := by
    rintro rfl
    cases (tree.leaf x n present path).1.symm.trans bare
  have shorter : w.length < (s.entry x).word.length :=
    lt_of_not_ge fun h => proper (begins.eq_of_length_le h)
  obtain ⟨m, next⟩ := tree.prefixPath x _ present (List.concat_get_prefix begins shorter)
  by_contra childless
  rw [follow_concat path, if_pos (not_exists_not.1 childless _)] at next
  cases next

end TreeFacts

/-- R30, R74: after a successful TREE_BUILD the arena holds the tree of the table, which is as it was. -/
theorem treeBuild_treeOfTable {s t : State} (built : exec .treeBuild s = .next t) (ok : t.status.err = false) :
    t.ct = s.ct ∧ t.treeOfTable := by
  obtain ⟨builder, tree, arena, ct, draw, count⟩ := treeBuild_ok built ok
  exact ⟨ct, s.arena, builder, by rw [draw, ct, tree], arena, count⟩

/-- Settles O32: the four clauses are facts of the tree that TREE_BUILD leaves of the table. -/
theorem acceptedTreeHasTheTablesLeaves : Obligations.AcceptedTreeHasTheTablesLeaves := by
  intro s t built ok
  obtain ⟨ct, ofTable⟩ := treeBuild_treeOfTable built ok
  have tree := TreeFacts.of_treeOfTable ofTable
  have entry : ∀ x, s.entry x = t.entry x := fun x => by rw [State.entry, State.entry, ct]
  simp only [entry]
  refine ⟨tree.rootBare, fun x present => ?leaves, fun w n => tree.word_of_hasSym, fun w n nonempty path bare => ?inner⟩
  case leaves =>
    obtain ⟨n, path⟩ := tree.prefixPath x _ present (List.prefix_refl _)
    obtain ⟨holds, sym⟩ := tree.leaf x n present path
    have childless := tree.child_of_codeword present path
    exact ⟨n, path, holds, sym, childless false, childless true⟩
  case inner =>
    obtain ⟨_ | _, child⟩ := tree.exists_child nonempty path bare
    · exact .inl child
    · exact .inr child

end Sys2Proof.Machine
end

-- Proofs: DECODE after ENCODE
section
/-! PROOFS. A source window that holds an artifact, what DECODE leaves of it, and that this is the input of the ENCODE
that made it (43_decode_tree_walker.md R78, R79). -/

namespace Sys2Proof.Machine

/-- R70: a successful ENCODE reports the length of its artifact; it fits the destination window, so it does not wrap. -/
theorem encode_outLen {s t : State} (encoded : exec .encode s = .next t) (ok : t.status.err = false) :
    t.outLen.toNat = (artifact s.ct s.ctrl.padMode s.inputSymbols).length := by
  obtain ⟨-, -, fits, record, -⟩ := encode_ok encoded ok
  have outLen : t.outLen.toNat = _ := congrArg (fun u => u.outLen.toNat) record
  rw [outLen, artifact_length]
  exact Nat.mod_eq_of_lt (fits.trans_lt s.dstCap.isLt)

/-- R66, R68, R69: the artifact of an input, read back: its header is the padding, its payload the codewords. -/
theorem holdsArtifact_of_sourceHolds {s : State} {reduced : Bool} {syms : List Byte}
    (source : s.sourceHolds (artifact s.ct reduced syms)) :
    s.holdsArtifact (padding (streamBits s.ct syms) reduced) (s.ct.stream syms).length ∧
      s.payloadBegins (s.ct.stream syms) := by
  obtain ⟨-, size, bytes⟩ := source
  have length : (s.ct.stream syms).length = streamBits s.ct syms := codeStream_length s.ct syms
  have payload := payloadBytes_mul (streamBits s.ct syms) reduced
  rw [artifact_length] at size
  refine ⟨⟨by omega, ?header, by omega⟩, fun k inside => ?bits⟩
  case header =>
    rw [← artifact_head s.ct reduced syms (by simp), ← bytes 0 (by simp)]
    rfl
  case bits =>
    have stored : 1 + k / 8 < (artifact s.ct reduced syms).length := by rw [artifact_length]; omega
    rw [Nat.add_assoc, bytes _ stored, artifact_bit _ _ _ stored]
    exact bitAt_of_lt _ inside

/-- R78: over payload bits that are the codewords of symbols that fit, DECODE writes these symbols. -/
theorem exec_decode_of_stream {s : State} {syms : List Byte} {p : Nat} (windows : s.windowsGood)
    (valid : s.status.treeValid = true) (tree : TreeFacts s) (present : ∀ x ∈ syms, (s.entry x).len ≠ 0#8)
    (art : s.holdsArtifact p (s.ct.stream syms).length) (payload : s.payloadBegins (s.ct.stream syms))
    (room : syms.length ≤ s.dstCap.toNat) :
    ∃ t, exec .decode s = .next t ∧
      t.isRecordWith (s.okRecord syms.length (s.ct.stream syms).length p syms.length) s s.dst.toNat syms := by
  obtain ⟨r, rfl, -, -, body⟩ := decodeBody_symbols windows valid tree art syms present room [] (by simp)
    (by simpa using payload)
  rw [Nat.sub_self, decodeWalk, if_neg (by simp), Run.memWriteAll_eq] at body
  have decoded : exec .decode s = .next (complete noErrorEffect (decodeBody (startStep s))) := rfl
  rw [body] at decoded
  exact ⟨_, decoded, isRecordWith_of_writeBytes rfl rfl rfl⟩

/-- Settles O39: the source window holds the artifact of the encoder's input, and DECODE recovers that input from it. -/
theorem encodeThenDecodeIsTheIdentity : Obligations.EncodeThenDecodeIsTheIdentity := by
  intro b b' e e' d built okTree encTable encoded okEnc decTable arena draw valid windows srcLen copied room
  obtain ⟨treeTable, ofTable⟩ := treeBuild_treeOfTable built okTree
  have tree : TreeFacts d := (TreeFacts.of_treeOfTable ofTable).congr (decTable.trans treeTable.symm) fun n => by
    rw [State.nodeAt, State.nodeAt, arena, draw]
  obtain ⟨-, present, -, record, bytes, -⟩ := encode_ok encoded okEnc
  have size := encode_outLen encoded okEnc
  have table : e.ct = d.ct := encTable.trans decTable.symm
  have stream : (d.ct.stream e.inputSymbols).length = streamBits d.ct e.inputSymbols := codeStream_length _ _
  simp only [State.entry, table] at present record bytes size
  have source : d.sourceHolds (artifact d.ct e.ctrl.padMode e.inputSymbols) :=
    ⟨windows.1, srcLen ▸ size, fun i inside => (copied i (size ▸ inside)).trans (bytes i inside)⟩
  obtain ⟨art, payload⟩ := holdsArtifact_of_sourceHolds source
  obtain ⟨d', decoded, record', written, -⟩ :=
    exec_decode_of_stream windows valid tree present art payload (by simpa using room)
  rw [stream, inputSymbols_length] at record'
  refine ⟨d', decoded, congrArg (fun u => u.status.err) record',
    (congrArg State.outLen record').trans (congrArg State.symCount record).symm,
    (congrArg State.bitLen record').trans (congrArg State.bitLen record).symm,
    (congrArg State.pad record').trans (congrArg State.pad record).symm, fun j inside => ?_⟩
  rw [written j (by rwa [inputSymbols_length]), inputSymbols_getElem]

end Sys2Proof.Machine
end

-- Proofs: the interrupt output
section
/-! PROOFS. When the interrupt output is 1, and what host writes of `STATUS`, `CMD` and `CTRL` make of it
(60_exceptions.md R89). -/

namespace Sys2Proof.Machine

theorem target32_ctrl : target32 0x008#17 = some (.reg .ctrl) := by decide

theorem target32_cmd : target32 0x010#17 = some (.reg .cmd) := by decide

theorem irq_answered (s : State) (r : BusResp) : (s.answered r).irq = s.irq := rfl

/-- R89: the output is 1 exactly when an enabled source is pending. -/
theorem irq_iff (s : State) : s.irq = true ↔
    (s.ctrl.ieDone = true ∧ s.status.done = true) ∨ (s.ctrl.ieErr = true ∧ s.status.err = true) := by
  simp only [State.irq, Bool.or_eq_true, Bool.and_eq_true]

/-- R89: the output is 0 when no source is pending. -/
theorem irq_of_not_pending {s : State} (done : s.status.done = false) (err : s.status.err = false) :
    s.irq = false := by
  simp [State.irq, done, err]

/-- R89: the output is 0 when no source is enabled. -/
theorem irq_of_masked {s : State} (ieDone : s.ctrl.ieDone = false) (ieErr : s.ctrl.ieErr = false) :
    s.irq = false := by
  simp [State.irq, ieDone, ieErr]

/-- R20, R89: after a write of `v` to `STATUS`, busy or not, a source is pending if it was and `v` is 0 in its bit. -/
theorem irq_wr_status (s : State) (v : Word) : (hostAccess (.wr32 0x00C#17 v) s).irq =
    ((s.ctrl.ieDone && (s.status.done && !v.getLsbD 1)) || (s.ctrl.ieErr && (s.status.err && !v.getLsbD 2))) := by
  rw [hostAccess_wr_reg _ _ _ target32_status, hostWrite_status]
  rfl

/-- Settles O56: a write of `STATUS` clears the source in its bit, acceptance and reset leave none pending, and a write
of 0 to `CTRL` leaves none enabled. -/
theorem interruptFollowsItsEnabledSources : Obligations.InterruptFollowsItsEnabledSources := by
  intro s
  refine ⟨irq_iff s, ?clearDone, ?clearErr, fun idle c => ?acceptance, fun level => irq_of_not_pending rfl rfl,
    fun idle => ?masking, ?collision⟩
  case clearDone => simp [irq_wr_status]
  case clearErr => simp [irq_wr_status]
  case acceptance =>
    rw [hostAccess_wr_reg _ _ _ target32_cmd, hostWrite_reg_of_idle _ _ _ idle, irq_answered]
    exact irq_of_not_pending rfl rfl
  case masking =>
    rw [hostAccess_wr_reg _ _ _ target32_ctrl, hostWrite_reg_of_idle _ _ _ idle, irq_answered]
    exact ⟨irq_of_masked rfl rfl, rfl⟩
  case collision => rfl

end Sys2Proof.Machine
end

-- Proofs: what every command leaves
section
/-! PROOFS. The states a command may leave, as its effect, its bytes and its record, and what this says of memory
(20_memory.md R36) and of the host's registers (60_exceptions.md R82, R83). -/

namespace Sys2Proof.Machine

/-- The states a command may leave: its effect and its bytes, under the record of a success or of a failure. -/
inductive Completed (s : State) (e : Effect) (bs : List Byte) : State → Prop where
  | ok (o b p n : Nat) : Completed s e bs ((s.affected e bs).okRecord o b p n)
  | err (c : ErrCode) (pos : Nat) : Completed s e bs ((s.affected e bs).errRecord c.byte.toNat pos bs.length)

/-- Every command completes from every state. -/
theorem exists_completed (i : Instr) (s : State) : ∃ t e bs, exec i s = .next t ∧ effectAllowed s i e ∧
    bs.length ≤ s.dstCap.toNat ∧ Completed s e bs t := by
  obtain ⟨e, bs, allowed, fits, -, ending⟩ := exec_cases i s
  cases ending with
  | ok o b p n executed => exact ⟨_, e, bs, executed, allowed, fits, .ok o b p n⟩
  | err c pos executed => exact ⟨_, e, bs, executed, allowed, fits, .err c pos⟩

theorem exec_completed {i : Instr} {s t : State} (executed : exec i s = .next t) : ∃ e bs, effectAllowed s i e ∧
    bs.length ≤ s.dstCap.toNat ∧ Completed s e bs t := by
  obtain ⟨t', e, bs, executed', allowed, fits, completed⟩ := exists_completed i s
  obtain rfl : t' = t := Host.Outcome.next.inj (executed'.symm.trans executed)
  exact ⟨e, bs, allowed, fits, completed⟩

theorem errRecord_errCode (s : State) (c : ErrCode) (pos written : Nat) :
    (s.errRecord c.byte.toNat pos written).errCode = c.byte := by
  rw [State.errRecord, BitVec.ofNat_toNat, BitVec.setWidth_eq]

namespace Completed

variable {s t : State} {e : Effect} {bs : List Byte} (completed : Completed s e bs t)
include completed

/-- R83, R84: the error record, and the results after a failure. -/
theorem record : t.status.busy = false ∧ t.status.done = true ∧ (t.status.err = true ↔ t.errCode ≠ 0#8) ∧
    t.errCode.toNat ≤ 0x0D ∧ (t.status.err = false → t.errPos = 0#32) ∧
    (t.status.err = true → t.bitLen = 0#32 ∧ t.pad = 0#32 ∧ t.symCount = 0#32) := by
  cases completed with
  | ok o b p n =>
    exact ⟨rfl, rfl, iff_of_false Bool.false_ne_true fun h => h rfl, Nat.zero_le _, fun _ => rfl, nofun⟩
  | err c pos =>
    rw [errRecord_errCode]
    exact ⟨rfl, rfl, iff_of_true rfl (errCode_byte_ne_zero c), errCode_byte_le c, nofun, fun _ => ⟨rfl, rfl, rfl⟩⟩

/-- R23, R25, R31: what no command writes. -/
theorem frame : t.status.collision = s.status.collision ∧ t.ctrl = s.ctrl ∧ t.cmd = s.cmd ∧ t.src = s.src ∧
    t.srcLen = s.srcLen ∧ t.dst = s.dst ∧ t.dstCap = s.dstCap ∧ t.esym = s.esym ∧ t.resetLine = s.resetLine ∧
    t.agenda = s.agenda ∧ t.busResp = s.busResp := by
  cases completed <;> exact ⟨rfl, rfl, rfl, rfl, rfl, rfl, rfl, rfl, rfl, rfl, rfl⟩

/-- What the effect makes of code table and tree. -/
theorem effect : t.ct = e.ct ∧ t.arena = e.arena ∧ t.arenaDraw = e.arenaDraw ∧ t.nodeCount = e.nodeCount ∧
    t.status.treeValid = e.treeValid := by
  cases completed <;> exact ⟨rfl, rfl, rfl, rfl, rfl⟩

theorem entry (sym : Byte) : t.entry sym = e.ct.get sym := by cases completed <;> rfl

/-- Memory is as it was but for the bytes written from `DST` up. -/
theorem byteAt (a : Nat) : t.byteAt a =
    if h : s.dst.toNat ≤ a ∧ a - s.dst.toNat < bs.length then bs[a - s.dst.toNat]'h.2 else s.byteAt a := by
  cases completed <;> exact Memory.read_writeBytes s.dmemDraw bs s.dmem s.dst.toNat a

/-- R36: a byte outside the destination window is as it was. -/
theorem byteAt_outside (fits : bs.length ≤ s.dstCap.toNat) {a : Nat}
    (outside : a < s.dst.toNat ∨ s.dst.toNat + s.dstCap.toNat ≤ a) : t.byteAt a = s.byteAt a := by
  rw [completed.byteAt, dif_neg (by omega)]

end Completed

/-- R82: the start step writes over the results of an earlier command. -/
theorem exec_results (i : Instr) (s : State) (c : Byte) (p o b d n : Word) :
    exec i { s with errCode := c, errPos := p, outLen := o, bitLen := b, pad := d, symCount := n } = exec i s := by
  cases i <;> rfl

/-- Settles O8: both records complete the command and leave the host's registers. -/
theorem everyCommandEndsInACompletionRecord : Obligations.EveryCommandEndsInACompletionRecord := by
  intro i s
  obtain ⟨t, e, bs, executed, -, -, completed⟩ := exists_completed i s
  obtain ⟨busy, done, err, code, pos, results⟩ := completed.record
  obtain ⟨collision, ctrl, cmd, src, srcLen, dst, dstCap, esym, resetLine, agenda, busResp⟩ := completed.frame
  exact ⟨t, executed, busy, done, err, code, pos, results, collision, ctrl, cmd, src, srcLen, dst, dstCap, esym,
    resetLine, agenda, busResp, fun c p o b d n => (exec_results i s c p o b d n).trans executed⟩

/-- Settles O9: a failure that wrote a byte is a walk error of DECODE. -/
theorem failuresOtherThanWalkErrorsWriteNothing : Obligations.FailuresOtherThanWalkErrorsWriteNothing := by
  intro i s t executed failed notWalk
  obtain ⟨e, bs, -, -, -, ending⟩ := exec_cases i s
  cases ending with
  | ok o b p n executed' =>
    obtain rfl := Host.Outcome.next.inj (executed'.symm.trans executed)
    cases failed
  | err c pos executed' walk =>
    obtain rfl := Host.Outcome.next.inj (executed'.symm.trans executed)
    rw [errRecord_errCode] at notWalk
    have nothing : bs = [] := by
      by_contra written
      obtain ⟨rfl, cause⟩ := walk written
      obtain decode | ⟨overflow, nullChild, truncated⟩ := notWalk
      · exact decode rfl
      · rcases cause with rfl | rfl | rfl
        · exact overflow rfl
        · exact nullChild rfl
        · exact truncated rfl
    subst nothing
    exact ⟨rfl, fun a => rfl⟩

/-- Settles O10: the bytes a command writes fit the window that starts at `DST`. -/
theorem commandsWriteOnlyTheDestinationWindow : Obligations.CommandsWriteOnlyTheDestinationWindow := by
  intro i s t a executed outside
  obtain ⟨e, bs, -, fits, completed⟩ := exec_completed executed
  exact completed.byteAt_outside fits outside

end Sys2Proof.Machine
end

-- Proofs: the invariant of the machine
section
/-! PROOFS. What one step makes of code table, tree and flags, and that it keeps the invariant (10_state.md R20, R28 to
R30; 60_exceptions.md R84; 70_reset_and_hazards.md R93, R99). -/

namespace Sys2Proof.Machine

/-! ### Commands -/

/-- The engine's transition is a command's, or the failure on an illegal word. -/
theorem runPending_cases {s t : State} (ran : runPending s = .next t) :
    (∃ i, decode s.cmd = .ok i ∧ exec i s = .next t) ∨ t = s.errRecord 1 0 0 := by
  rw [runPending] at ran
  cases decoded : decode s.cmd with
  | ok i =>
    rw [decoded] at ran
    exact .inl ⟨i, rfl, ran⟩
  | error e =>
    rw [decoded] at ran
    obtain rfl := Host.Outcome.next.inj ran
    exact .inr (runIllegal_eq s)

/-- The engine's transition completes a command; an illegal word has the effect of NOP. -/
theorem runPending_completed {s t : State} (ran : runPending s = .next t) :
    ∃ i e bs, effectAllowed s i e ∧ Completed s e bs t := by
  obtain ⟨i, -, executed⟩ | rfl := runPending_cases ran
  · obtain ⟨e, bs, allowed, -, completed⟩ := exec_completed executed
    exact ⟨i, e, bs, allowed, completed⟩
  · exact ⟨.nop, s.noEffect, [], rfl, .err .illegalCmd 0⟩

theorem runPending_arenaWf {s t : State} (wf : s.arena.wf) (ran : runPending s = .next t) : t.arena.wf := by
  obtain ⟨i, -, executed⟩ | rfl := runPending_cases ran
  · exact exec_arenaWf wf executed
  · exact wf

/-- R28: every entry a command stores has a zero tail. -/
theorem effect_zeroTail {s : State} {i : Instr} {e : Effect} (allowed : effectAllowed s i e)
    (tails : ∀ sym, (s.entry sym).zeroTail) (sym : Byte) : (e.ct.get sym).zeroTail := by
  cases i with
  | tableClear =>
    subst allowed
    rw [Table.get_empty]
    exact CTEntry.empty_zeroTail
  | entryWrite =>
    subst allowed
    rw [Table.get_put]
    split_ifs
    · exact CTEntry.make_zeroTail _ _
    · exact tails sym
  | tableLoad =>
    obtain rfl | ⟨-, -, loaded⟩ := allowed
    · exact tails sym
    · exact loaded sym
  | treeBuild => obtain rfl | ⟨b, -, rfl⟩ := allowed <;> exact tails sym
  | nop | entryRead | tableStore | encode | decode => subst allowed; exact tails sym

/-- R74: a tree that TREE_BUILD finishes fits the arena. -/
theorem buildTree_count_le {d : Draw} {ar : Arena} {ct : Table} {b : Builder} (built : buildTree d ar ct = .ok b) :
    b.count ≤ 512 := by
  have spec := buildTree_spec d ar ct
  rw [built] at spec
  obtain ⟨⟨path, inv⟩, -⟩ := spec
  exact inv.le

theorem effect_nodeCount {s : State} {i : Instr} {e : Effect} (allowed : effectAllowed s i e)
    (range : s.nodeCount.toNat ≤ 512) : e.nodeCount.toNat ≤ 512 := by
  cases i with
  | treeBuild =>
    obtain rfl | ⟨b, built, rfl⟩ := allowed
    · exact Nat.zero_le _
    · exact (Nat.mod_le _ _).trans (buildTree_count_le built)
  | tableLoad =>
    obtain rfl | ⟨-, kept, -⟩ := allowed
    · exact range
    · rw [kept]
      exact range
  | nop | tableClear | entryWrite | entryRead | tableStore | encode | decode => subst allowed; exact range

/-- R30: a command that ends with `TREE_VALID` 1 leaves the code table, and either found a tree, which it leaves, or is
the TREE_BUILD that makes it. -/
theorem effect_treeValid {s : State} {i : Instr} {e : Effect} (allowed : effectAllowed s i e)
    (valid : e.treeValid = true) : e.ct = s.ct ∧ e.arenaDraw = s.arenaDraw ∧
      ((s.status.treeValid = true ∧ e.arena = s.arena ∧ e.nodeCount = s.nodeCount) ∨
        (i = .treeBuild ∧ ∃ b, buildTree s.arenaDraw s.arena s.ct = .ok b ∧ e.arena = b.arena ∧
          e.nodeCount = BitVec.ofNat 32 b.count)) := by
  cases i with
  | tableClear | entryWrite => subst allowed; cases valid
  | tableLoad =>
    obtain rfl | ⟨cleared, -, -⟩ := allowed
    · exact ⟨rfl, rfl, .inl ⟨valid, rfl, rfl⟩⟩
    · cases cleared.symm.trans valid
  | treeBuild =>
    obtain rfl | ⟨b, built, rfl⟩ := allowed
    · cases valid
    · exact ⟨rfl, rfl, .inr ⟨rfl, b, built, rfl, rfl⟩⟩
  | nop | entryRead | tableStore | encode | decode => subst allowed; exact ⟨rfl, rfl, .inl ⟨valid, rfl, rfl⟩⟩

/-- R30: a tree that is valid after a command is the current table's. -/
theorem Completed.treeOfTable {s t : State} {i : Instr} {e : Effect} {bs : List Byte}
    (completed : Completed s e bs t) (allowed : effectAllowed s i e)
    (current : s.status.treeValid = true → s.treeOfTable) (valid : t.status.treeValid = true) : t.treeOfTable := by
  obtain ⟨ct, arena, draw, count, treeValid⟩ := completed.effect
  obtain ⟨ct', draw', ⟨found, arena', count'⟩ | ⟨-, b, built, arena', count'⟩⟩ :=
    effect_treeValid allowed (treeValid.symm.trans valid)
  · obtain ⟨before, b, built, holds, nodes⟩ := current found
    exact ⟨before, b, by rwa [draw, draw', ct, ct'], by rw [arena, arena', holds], by rw [count, count', nodes]⟩
  · exact ⟨s.arena, b, by rwa [draw, draw', ct, ct'], by rw [arena, arena'], by rw [count, count']⟩

/-- The engine's transition keeps the invariant; memory's canonical form is a law of every step. -/
theorem runPending_inv {s t : State} (inv : s.Inv) (released : s.resetLine = false) (dmemWf : t.dmem.wf)
    (ran : runPending s = .next t) : t.Inv := by
  obtain ⟨i, e, bs, allowed, completed⟩ := runPending_completed ran
  obtain ⟨busy, -, err, code, -, -⟩ := completed.record
  obtain ⟨-, -, -, count, -⟩ := completed.effect
  obtain ⟨-, -, -, -, -, -, -, -, resetLine, -, -⟩ := completed.frame
  exact
    { dmemWf := dmemWf
      arenaWf := runPending_arenaWf inv.arenaWf ran
      zeroTail := fun sym => completed.entry sym ▸ effect_zeroTail allowed inv.zeroTail sym
      busyQuiet := fun h => by cases busy.symm.trans h
      errHasCode := err.1
      codeRange := code
      nodeCountRange := count ▸ effect_nodeCount allowed inv.nodeCountRange
      treeCurrent := completed.treeOfTable allowed inv.treeCurrent
      resetHeld := fun h => by cases (resetLine.trans released).symm.trans h }

/-! ### Host accesses -/

/-- Everything an access can make of `STATUS`. -/
theorem hostAccess_status_cases (a : HostAccess) (s : State) :
    (hostAccess a s).status = s.status ∨ (hostAccess a s).status = { s.status with collision := true } ∨
      (hostAccess a s).status = s.status.accept ∨
      ∃ v, (hostAccess a s).status = s.status.writeOneToClear v := by
  obtain h | ⟨t, -, h | ⟨v, h⟩⟩ := hostAccess_cases a s
  · exact .inl (by rw [h]; rfl)
  · refine .inl ?_
    rw [h, hostRead]
    split_ifs <;> rfl
  · rw [h, hostWrite]
    split_ifs
    · exact .inr (.inl rfl)
    · cases t with
      | byte x => exact .inl rfl
      | word x => exact .inl rfl
      | reg r =>
        cases r with
        | status => exact .inr (.inr (.inr ⟨v, rfl⟩))
        | cmd => exact .inr (.inr (.inl rfl))
        | _ => exact .inl rfl

/-- R20: an access sets neither `DONE` nor `ERR`, and leaves them 0 where it leaves `BUSY` 1. -/
theorem hostAccess_flags (a : HostAccess) {s : State}
    (quiet : s.status.busy = true → s.status.done = false ∧ s.status.err = false) :
    ((hostAccess a s).status.busy = true →
      (hostAccess a s).status.done = false ∧ (hostAccess a s).status.err = false) ∧
    ((hostAccess a s).status.err = true → s.status.err = true) := by
  obtain h | h | h | ⟨v, h⟩ := hostAccess_status_cases a s <;> rw [h]
  · exact ⟨quiet, id⟩
  · exact ⟨quiet, id⟩
  · exact ⟨fun _ => ⟨rfl, rfl⟩, fun err => by cases err⟩
  · refine ⟨fun busy => ?_, fun err => (Bool.and_eq_true_iff.1 err).1⟩
    obtain ⟨done, err⟩ := quiet busy
    simp [Status.writeOneToClear, done, err]

theorem hostAccess_inv {s : State} (inv : s.Inv) (released : s.resetLine = false) (a : HostAccess) :
    (hostAccess a s).Inv := by
  obtain ⟨valid, -, code, -, -, -, -, -, count, ct, arena, draw, -, resetLine, -⟩ := hostAccess_frame s a
  obtain ⟨quiet, err⟩ := hostAccess_flags a inv.busyQuiet
  exact
    { dmemWf := hostAccess_dmemWf inv.dmemWf a
      arenaWf := by rw [arena]; exact inv.arenaWf
      zeroTail := by unfold State.entry; rw [ct]; exact inv.zeroTail
      busyQuiet := quiet
      errHasCode := fun h => by rw [code]; exact inv.errHasCode (err h)
      codeRange := by rw [code]; exact inv.codeRange
      nodeCountRange := by rw [count]; exact inv.nodeCountRange
      treeCurrent := by unfold State.treeOfTable; rw [valid, draw, ct, arena, count]; exact inv.treeCurrent
      resetHeld := fun h => by cases (resetLine.trans released).symm.trans h }

/-! ### Reset, and every step -/

/-- R93: at its reset values the machine has the invariant, whatever the draws and the turns to come. -/
theorem inv_of_resetValues (level : Bool) (dmem arena reads : Draw) (l : List Turn) :
    { State.reset with
      resetLine := level, dmemDraw := dmem, arenaDraw := arena, draws := reads, agenda := l }.Inv where
  dmemWf := reset_dmemWf
  arenaWf := cellsWf_nil _
  zeroTail sym := by
    have entry : State.reset.entry sym = CTEntry.empty := Table.get_empty sym
    exact entry ▸ CTEntry.empty_zeroTail
  busyQuiet h := by cases h
  errHasCode h := by cases h
  codeRange := Nat.zero_le _
  nodeCountRange := Nat.zero_le _
  treeCurrent h := by cases h
  resetHeld h := by
    obtain rfl : level = true := h
    rfl

theorem applyReset_inv (s : State) (level : Bool) : (s.applyReset level).Inv := inv_of_resetValues level _ _ _ _

/-- The invariant does not speak of the turns to come. -/
theorem State.Inv.withAgenda {s : State} (inv : s.Inv) (l : List Turn) : { s with agenda := l }.Inv :=
  { inv with resetHeld := fun h => congrArg (fun u : State => { u with agenda := l }) (inv.resetHeld h) }

/-- Settles O40: every field is at its reset value. -/
theorem invariantHoldsAtReset : Obligations.InvariantHoldsAtReset := inv_of_resetValues false _ _ _ _

/-- Settles O41, by the cases of a step: a command, nothing, a host access, a reset. -/
theorem everyStepKeepsTheInvariant : Obligations.EveryStepKeepsTheInvariant := by
  intro s t inv stepped
  obtain ⟨l, happens⟩ := step_cases stepped
  cases happens with
  | command released busy ran => exact runPending_inv (inv.withAgenda l) released (step_dmemWf inv.dmemWf stepped) ran
  | idle h =>
    rw [h]
    exact inv.withAgenda l
  | access released a h =>
    rw [h]
    exact hostAccess_inv (inv.withAgenda l) released a
  | reset level h =>
    rw [h]
    exact applyReset_inv _ level

/-- R30: TREE_BUILD leaves `TREE_VALID` 1 only when it succeeds. -/
theorem treeBuild_ok_of_treeValid {s t : State} (built : exec .treeBuild s = .next t)
    (valid : t.status.treeValid = true) : t.status.done = true ∧ t.status.err = false := by
  rw [exec_treeBuild] at built
  cases tree : buildTree s.arenaDraw s.arena s.ct with
  | ok b =>
    rw [tree] at built
    obtain rfl := Host.Outcome.next.inj built
    exact ⟨rfl, rfl⟩
  | error e =>
    rw [tree] at built
    obtain rfl := Host.Outcome.next.inj built
    cases valid

/-- Settles O42: of all effects only that of TREE_BUILD sets `TREE_VALID`, and its word is the one that decodes to
it. -/
theorem treeValidIsSetOnlyByTreeBuild : Obligations.TreeValidIsSetOnlyByTreeBuild := by
  intro s t stepped invalid valid
  obtain ⟨l, happens⟩ := step_cases stepped
  cases happens with
  | command released busy ran =>
    obtain ⟨i, decoded, executed⟩ | rfl := runPending_cases ran
    · obtain ⟨e, bs, allowed, -, completed⟩ := exec_completed executed
      obtain ⟨-, -, -, -, treeValid⟩ := completed.effect
      obtain ⟨-, -, ⟨found, -⟩ | ⟨rfl, -⟩⟩ := effect_treeValid allowed (treeValid.symm.trans valid)
      · cases invalid.symm.trans found
      · exact ⟨busy, eq_encode_of_decode decoded, treeBuild_ok_of_treeValid executed valid⟩
    · cases invalid.symm.trans valid
  | idle h =>
    subst h
    cases invalid.symm.trans valid
  | access released a h =>
    subst h
    obtain ⟨treeValid, -⟩ := hostAccess_frame { s with agenda := l } a
    cases invalid.symm.trans (treeValid.symm.trans valid)
  | reset level h =>
    subst h
    cases valid

/-- Settles O43: a command that ends with `TREE_VALID` 1 leaves the code table, and so does a host access. -/
theorem tableChangeClearsTreeValid : Obligations.TableChangeClearsTreeValid := by
  intro s t stepped changed
  obtain ⟨l, happens⟩ := step_cases stepped
  cases happens with
  | command released busy ran =>
    obtain ⟨i, e, bs, allowed, completed⟩ := runPending_completed ran
    obtain ⟨ct, -, -, -, treeValid⟩ := completed.effect
    by_contra valid
    obtain ⟨ct', -⟩ := effect_treeValid allowed (treeValid ▸ Bool.eq_true_of_not_eq_false valid)
    exact changed (ct.trans ct')
  | idle h =>
    subst h
    exact absurd rfl changed
  | access released a h =>
    subst h
    obtain ⟨-, -, -, -, -, -, -, -, -, ct, -⟩ := hostAccess_frame { s with agenda := l } a
    exact absurd ct changed
  | reset level h =>
    subst h
    rfl

end Sys2Proof.Machine
end

-- Proofs: the three commands with a destination window, each in one equation
section
/-! PROOFS. What TABLE_STORE, ENCODE and DECODE leave, check by check in the order of the spec (41_table_serializer.md
R63; 42_encoder.md R70; 43_decode_tree_walker.md R78; 60_exceptions.md R86). -/

namespace Sys2Proof.Machine

/-! ### Windows and records -/

theorem srcFits_of_le {s : State} (h : s.src.toNat + s.srcLen.toNat ≤ 65536) : s.srcFits = true := (srcFits_iff s).2 h

theorem dstFits_of_le {s : State} (h : s.dst.toNat + s.dstCap.toNat ≤ 65536) : s.dstFits = true := (dstFits_iff s).2 h

theorem srcFits_of_lt {s : State} (h : 65536 < s.src.toNat + s.srcLen.toNat) : s.srcFits = false :=
  decide_eq_false (Nat.not_le.2 h)

theorem dstFits_of_lt {s : State} (h : 65536 < s.dst.toNat + s.dstCap.toNat) : s.dstFits = false :=
  decide_eq_false (Nat.not_le.2 h)

/-- Windows inside memory that are not good share a byte. -/
theorem overlap_of_not_windowsGood {s : State} (src : s.src.toNat + s.srcLen.toNat ≤ 65536)
    (dst : s.dst.toNat + s.dstCap.toNat ≤ 65536) (bad : ¬ s.windowsGood) : s.overlap = true := by
  by_contra apart
  exact bad ((windowsGood_iff s).2 ⟨srcFits_of_le src, dstFits_of_le dst, Bool.eq_false_of_not_eq_true apart⟩)

/-- A failure after the bytes `bs` are written from `DST` up. -/
theorem complete_raised (s : State) (bs : List Byte) (c : ErrCode) (pos : Nat) :
    complete noErrorEffect (.raised ((startStep s).memWriteAll s.dst.toNat bs) c pos) =
      (s.affected s.noEffect bs).errRecord c.byte.toNat pos bs.length := by
  rw [Run.memWriteAll_eq]
  simp only [complete, noErrorEffect, completeError, State.errRecord, BitVec.ofNat_toNat, BitVec.setWidth_eq,
    startStep_written, Nat.zero_add]
  rfl

/-- A success that wrote `bs`: the record, and the bytes from `DST` up. -/
theorem okRecord_isRecordWith (s : State) (bs : List Byte) (o b p n : Nat) :
    ((s.affected s.noEffect bs).okRecord o b p n).isRecordWith (s.okRecord o b p n) s s.dst.toNat bs :=
  isRecordWith_of_writeBytes rfl rfl rfl

/-- A failure that wrote `bs`: the record, and the bytes from `DST` up. -/
theorem errRecord_isRecordWith (s : State) (bs : List Byte) (c pos : Nat) :
    ((s.affected s.noEffect bs).errRecord c pos bs.length).isRecordWith (s.errRecord c pos bs.length) s
      s.dst.toNat bs :=
  isRecordWith_of_writeBytes rfl rfl rfl

/-! ### TABLE_STORE -/

/-- R63: TABLE_STORE. -/
theorem exec_tableStore_eq (s : State) : exec .tableStore s = .next (
    if 65536 < s.dst.toNat + s.dstCap.toNat then s.errRecord 0x02 1 0
    else if s.dstCap.toNat < (imageBytes s.ct.records).length then
      s.errRecord 0x05 (imageBytes s.ct.records).length 0
    else (s.affected s.noEffect (imageBytes s.ct.records)).okRecord (imageBytes s.ct.records).length 0 0
      s.ct.records.length) := by
  have body : exec .tableStore s = .next (complete noErrorEffect (tableStoreBody (startStep s))) := rfl
  rw [body, tableStoreBody]
  simp only [startStep_st, startState_windows, startState_fields, imageSize_eq, image_eq]
  by_cases window : 65536 < s.dst.toNat + s.dstCap.toNat
  · rw [if_pos window, dstFits_of_lt window]
    exact congrArg _ (raise_start s .range 1)
  rw [if_neg window, dstFits_of_le (by omega)]
  by_cases full : s.dstCap.toNat < (imageBytes s.ct.records).length
  · rw [if_neg (by simp), if_pos full, if_pos full]
    exact congrArg _ (raise_start s .dstOverflow _)
  · rw [if_neg (by simp), if_neg full, if_neg full, Run.memWriteAll_eq, Table.records, List.length_map]
    rfl

/-! ### ENCODE -/

/-- R68, R70: what ENCODE makes of a state with good windows, by its first input symbol without a codeword. -/
def State.encoded (s : State) : Option Nat → State
  | some j => s.errRecord 0x04 j 0
  | none =>
    let out := artifact s.ct s.ctrl.padMode s.inputSymbols
    if s.dstCap.toNat < out.length then s.errRecord 0x05 out.length 0
    else (s.affected s.noEffect out).okRecord out.length (streamBits s.ct s.inputSymbols)
      (padding (streamBits s.ct s.inputSymbols) s.ctrl.padMode) s.srcLen.toNat

/-- R70: ENCODE when its windows are good. -/
theorem exec_encode_of_windowsGood {s : State} (good : s.windowsGood) :
    exec .encode s = .next (s.encoded (firstUncovered s.ct s.inputSymbols)) := by
  obtain ⟨src, dst, apart⟩ := (windowsGood_iff s).1 good
  rw [encode_exec, encodeBody]
  simp only [startStep_st, startState_windows, startState_inputSymbols, startState_fields, src, dst, apart,
    Bool.not_true, Bool.false_eq_true, if_false]
  cases firstUncovered s.ct s.inputSymbols with
  | some j => exact congrArg _ (raise_start s .symbolNotInTable j)
  | none =>
    simp only [State.encoded, artifact_length]
    by_cases full : s.dstCap.toNat < 1 + payloadBytes (streamBits s.ct s.inputSymbols) s.ctrl.padMode
    · rw [if_pos full, if_pos full]
      exact congrArg _ (raise_start s .dstOverflow _)
    · rw [if_neg full, if_neg full, Run.memWriteAll_eq, State.okRecord, BitVec.ofNat_toNat, BitVec.setWidth_eq]
      rfl

/-! ### DECODE -/

/-- R77: DECODE's walk from the root over the artifact in the source window, with the completion step after it. -/
def State.walked (s : State) : State :=
  complete noErrorEffect (decodeWalk s.header (s.payloadBits - s.header) 0 0 0 (startStep s))

/-- R78: DECODE when its windows are good. -/
theorem exec_decode_of_windowsGood {s : State} (good : s.windowsGood) : exec .decode s = .next (
    if s.status.treeValid = false then s.errRecord 0x06 0 0
    else if s.srcLen = 0#32 then s.errRecord 0x07 0 0
    else if s.payloadBits < s.header then s.errRecord 0x08 s.header 0
    else s.walked) := by
  have body : exec .decode s = .next (complete noErrorEffect (decodeBody (startStep s))) := rfl
  have header : (startState s).header = s.header := rfl
  have bits : (startState s).payloadBits = s.payloadBits := rfl
  obtain ⟨src, dst, apart⟩ := (windowsGood_iff s).1 good
  rw [body, decodeBody]
  simp only [startStep_st, startState_windows, startState_fields, src, dst, apart, Bool.not_true, Bool.false_eq_true,
    if_false, header, bits]
  cases s.status.treeValid
  · exact congrArg _ (raise_start s .noTree 0)
  by_cases empty : s.srcLen = 0#32
  · simp only [empty]
    exact congrArg _ (raise_start s .artifactEmpty 0)
  by_cases exceeds : s.payloadBits < s.header
  · rw [if_neg (by simp), if_neg empty, if_pos exceeds, if_neg (by simp), if_neg empty, if_pos exceeds]
    exact congrArg _ (raise_start s .padExceeds _)
  · rw [if_neg (by simp), if_neg empty, if_neg exceeds, if_neg (by simp), if_neg empty, if_neg exceeds, State.walked]

/-! ### The window checks of ENCODE and DECODE (R36, R86) -/

/-- ENCODE and DECODE end alike where their bodies raise the same error before any write. -/
theorem exec_of_raised {s : State} {i : Instr} (reads : i = .encode ∨ i = .decode) {c : ErrCode} {pos : Nat}
    (encode : encodeBody (startStep s) = .raised (startStep s) c pos)
    (decode : decodeBody (startStep s) = .raised (startStep s) c pos) :
    exec i s = .next (s.errRecord c.byte.toNat pos 0) := by
  obtain rfl | rfl := reads
  · exact congrArg Host.Outcome.next ((congrArg (complete noErrorEffect) encode).trans (raise_start s c pos))
  · exact congrArg Host.Outcome.next ((congrArg (complete noErrorEffect) decode).trans (raise_start s c pos))

theorem exec_of_windowsBad {s : State} {i : Instr} (reads : i = .encode ∨ i = .decode) :
    (65536 < s.src.toNat + s.srcLen.toNat → exec i s = .next (s.errRecord 0x02 0 0)) ∧
    (s.src.toNat + s.srcLen.toNat ≤ 65536 → 65536 < s.dst.toNat + s.dstCap.toNat →
      exec i s = .next (s.errRecord 0x02 1 0)) ∧
    (s.src.toNat + s.srcLen.toNat ≤ 65536 → s.dst.toNat + s.dstCap.toNat ≤ 65536 → ¬ s.windowsGood →
      exec i s = .next (s.errRecord 0x03 0 0)) := by
  refine ⟨fun src => exec_of_raised (c := .range) reads ?_ ?_,
    fun src dst => exec_of_raised (c := .range) reads ?_ ?_,
    fun src dst bad => exec_of_raised (c := .overlap) reads ?_ ?_⟩
  · simp [encodeBody, srcFits_of_lt src]
  · simp [decodeBody, srcFits_of_lt src]
  · simp [encodeBody, srcFits_of_le src, dstFits_of_lt dst]
  · simp [decodeBody, srcFits_of_le src, dstFits_of_lt dst]
  · simp [encodeBody, srcFits_of_le src, dstFits_of_le dst, overlap_of_not_windowsGood src dst bad]
  · simp [decodeBody, srcFits_of_le src, dstFits_of_le dst, overlap_of_not_windowsGood src dst bad]

end Sys2Proof.Machine
end

-- Proofs: the serializer
section
/-! PROOFS. TABLE_STORE's image and errors, what TABLE_LOAD makes of good records, and where it stops
(41_table_serializer.md R62 to R64). -/

namespace Sys2Proof.Machine

/-! ### TABLE_STORE -/

/-- Settles O20: the image's records are those of the present symbols, and TABLE_STORE without an error writes it. -/
theorem tableStoreWritesTheImage : Obligations.TableStoreWritesTheImage := by
  intro s
  refine ⟨?size, fun window fits => ?written⟩
  case size => rw [← imageSize_eq, imageSize_present, Table.present_eq]
  case written =>
    refine ⟨_, exec_tableStore_eq s, ?_⟩
    rw [if_neg (by omega), if_neg (by omega)]
    exact okRecord_isRecordWith s _ _ _ _ _

/-- Settles O21: both errors come before the first write. -/
theorem tableStoreErrors : Obligations.TableStoreErrors := by
  intro s
  rw [exec_tableStore_eq]
  exact ⟨fun outside => by rw [if_pos outside], fun window full => by rw [if_neg (by omega), if_pos full]⟩

/-! ### TABLE_LOAD of good records -/

/-- Settles O22: the table read from good records has their codewords and no other. -/
theorem tableLoadReadsEveryWellFormedImage : Obligations.TableLoadReadsEveryWellFormedImage := by
  intro s recs good image
  obtain ⟨distinct, lengths⟩ := good
  refine ⟨_, exec_tableLoad_of_sourceHolds ⟨distinct, lengths⟩ image, fun r listed => ?word,
    fun sym unlisted => ?absent, fun sym => ?tail, rfl⟩
  all_goals rw [okRecord_entry, entry_withTable]
  case word => rw [get_putRecords distinct listed, entryOf_word (lengths r listed)]
  case absent =>
    rw [get_putRecords_of_not_mem unlisted, Table.get_empty]
    rfl
  case tail => exact loadImage_zeroTail (loadImage_good ⟨distinct, lengths⟩ image).1 sym

/-! ### TABLE_LOAD's errors -/

/-- R64: a bad image leaves the table empty and `TREE_VALID` 0, with the offset where it is bad. -/
theorem exec_tableLoad_of_error {s : State} {o : Nat} (window : s.src.toNat + s.srcLen.toNat ≤ 65536)
    (bad : loadImage s = .error o) : exec .tableLoad s =
      .next ({ s.withoutTree with ct := Table.empty }.errRecord 0x0D o 0) := by
  rw [exec_tableLoad, if_pos window, bad]

/-- R64: what a good image leaves. -/
theorem exec_tableLoad_of_ok {s : State} {n : Nat} {ct : Table} (window : s.src.toNat + s.srcLen.toNat ≤ 65536)
    (read : loadImage s = .ok (n, ct)) : exec .tableLoad s =
      .next ({ s.withoutTree with ct := ct }.okRecord 0 0 0 n) := by
  rw [exec_tableLoad, if_pos window, read]

theorem imageByte_of_lt {s : State} {o : Nat} (h : o < s.srcLen.toNat) :
    s.imageByte o = some (s.byteAt (s.src.toNat + o)) := if_pos h

theorem imageByte_of_ge {s : State} {o : Nat} (h : s.srcLen.toNat ≤ o) : s.imageByte o = none :=
  if_neg (Nat.not_lt.2 h)

/-- R64: an image without its two count bytes, or with a count above 256. -/
theorem loadImage_count_error (s : State) :
    (s.srcLen.toNat = 0 → loadImage s = .error 0) ∧ (s.srcLen.toNat = 1 → loadImage s = .error 1) ∧
    (2 ≤ s.srcLen.toNat → 256 < (s.byteAt s.src.toNat).toNat + 256 * (s.byteAt (s.src.toNat + 1)).toNat →
      loadImage s = .error 0) := by
  refine ⟨fun h => ?_, fun h => ?_, fun h above => ?_⟩ <;> rw [loadImage]
  · rw [imageByte_of_ge (by omega)]
  · rw [imageByte_of_lt (by omega), imageByte_of_ge (by omega)]
  · rw [imageByte_of_lt (by omega), imageByte_of_lt (by omega)]
    exact if_pos above

/-- Settles O23: past the window check every error is that of a bad image, at an offset inside it. -/
theorem tableLoadErrors : Obligations.TableLoadErrors := by
  intro s
  obtain ⟨noByte, oneByte, above⟩ := loadImage_count_error s
  refine ⟨fun outside => ?range, fun window t loaded failed => ?inside, fun window len => ?zero,
    fun window len => ?one, fun window len count => exec_tableLoad_of_error window (above len count)⟩
  case range => rw [exec_tableLoad, if_neg (by omega)]
  case inside =>
    cases read : loadImage s with
    | error o =>
      obtain rfl := Host.Outcome.next.inj ((exec_tableLoad_of_error window read).symm.trans loaded)
      exact ⟨o, loadImage_le read, rfl⟩
    | ok r =>
      obtain rfl := Host.Outcome.next.inj ((exec_tableLoad_of_ok window read).symm.trans loaded)
      cases failed
  case zero => exact exec_tableLoad_of_error (by simp [len]; omega) (noByte (by simp [len]))
  case one => exact exec_tableLoad_of_error (by simp [len]; omega) (oneByte (by simp [len]))

/-! ### The first bad byte -/

section
variable {s : State} {o : Nat} {ct : Table}

theorem loadRecord_missing (h : o = s.srcLen.toNat) : loadRecord s o ct = .error o := by
  rw [loadRecord, imageByte_of_ge (by omega)]

theorem loadRecord_repeated (h : o < s.srcLen.toNat) (present : (ct.get (s.byteAt (s.src.toNat + o))).len ≠ 0#8) :
    loadRecord s o ct = .error o := by
  rw [loadRecord, imageByte_of_lt h]
  exact if_pos present

variable (inside : o < s.srcLen.toNat) (absent : (ct.get (s.byteAt (s.src.toNat + o))).len = 0#8)
include inside absent

theorem loadRecord_noLength (h : o + 1 = s.srcLen.toNat) : loadRecord s o ct = .error (o + 1) := by
  rw [loadRecord, imageByte_of_lt inside, imageByte_of_ge (by omega)]
  exact if_neg (not_not.2 absent)

theorem loadRecord_zeroLength (h : o + 1 < s.srcLen.toNat) (zero : s.byteAt (s.src.toNat + (o + 1)) = 0#8) :
    loadRecord s o ct = .error (o + 1) := by
  rw [loadRecord, imageByte_of_lt inside, imageByte_of_lt h]
  exact (if_neg (not_not.2 absent)).trans (if_pos zero)

/-- R64: a record whose character `j` is missing or is neither 0x30 nor 0x31. -/
theorem loadRecord_badCharacter (h : o + 1 < s.srcLen.toNat) {j : Nat}
    (below : j < (s.byteAt (s.src.toNat + (o + 1))).toNat)
    (good : ∀ i < j, s.imageByte (o + 2 + i) = some 0x30#8 ∨ s.imageByte (o + 2 + i) = some 0x31#8)
    (bad : s.imageByte (o + 2 + j) ≠ some 0x30#8 ∧ s.imageByte (o + 2 + j) ≠ some 0x31#8) :
    loadRecord s o ct = .error (o + 2 + j) := by
  have positive : s.byteAt (s.src.toNat + (o + 1)) ≠ 0#8 := byte_ne_zero.2 (by omega)
  rw [loadRecord, imageByte_of_lt inside, imageByte_of_lt h]
  simp only [absent, positive, ne_eq, not_true_eq_false, if_false, loadBits_error below good bad]

end

theorem get_putRecords_len {recs : List (Byte × List Bool)} (good : recordsGood recs) (x : Byte) :
    ((putRecords Table.empty recs).get x).len ≠ 0#8 ↔ x ∈ recs.map Prod.fst := by
  obtain ⟨distinct, lengths⟩ := good
  constructor
  · intro present
    by_contra unlisted
    rw [get_putRecords_of_not_mem unlisted, Table.get_empty] at present
    exact present rfl
  · intro listed
    obtain ⟨r, hr, rfl⟩ := List.mem_map.1 listed
    rw [get_putRecords distinct hr]
    exact (entryOf_len (lengths r hr)).1

/-- R64: after good records, fewer than the count says, an image is bad where the next record is. -/
theorem loadImage_error_of_next {s : State} {n e : Nat} {recs : List (Byte × List Bool)} (hn : n ≤ 256)
    (fewer : recs.length < n) (good : recordsGood recs)
    (head : s.imageHas 0 (countBytes n ++ recs.flatMap recordBytes))
    (next : loadRecord s (countBytes n ++ recs.flatMap recordBytes).length (putRecords Table.empty recs) = .error e) :
    loadImage s = .error e := by
  obtain ⟨m, hm⟩ : ∃ m, n - recs.length = m + 1 := ⟨n - recs.length - 1, by omega⟩
  rw [loadImage_records hn fewer.le good head, hm, loadRecords, next]

/-- R64: after as many good records as the count says, a further byte is bad. -/
theorem loadImage_error_of_trailing {s : State} {n : Nat} {recs : List (Byte × List Bool)} (hn : n ≤ 256)
    (all : recs.length = n) (good : recordsGood recs)
    (head : s.imageHas 0 (countBytes n ++ recs.flatMap recordBytes))
    (further : (countBytes n ++ recs.flatMap recordBytes).length < s.srcLen.toNat) :
    loadImage s = .error (countBytes n ++ recs.flatMap recordBytes).length := by
  rw [loadImage_records hn all.le good head, all, Nat.sub_self, loadRecords]
  exact if_pos (by omega)

/-- Settles O24: after the good records the reader is at offset `o` with their table, and fails at the first byte of
the next record that is missing or wrong. -/
theorem tableLoadReportsTheFirstBadByte : Obligations.TableLoadReportsTheFirstBadByte := by
  intro s n recs good o window count le recsGood rfl rfl inside bytes
  have head : s.imageHas 0 (countBytes n ++ recs.flatMap recordBytes) := State.imageHas_of_bytes inside bytes
  refine ⟨fun fewer => ?_, fun all further =>
    exec_tableLoad_of_error window (loadImage_error_of_trailing count all recsGood head further)⟩
  have stops := fun e next =>
    exec_tableLoad_of_error window (loadImage_error_of_next (e := e) count fewer recsGood head next)
  refine ⟨fun ends => stops _ (loadRecord_missing ends), fun more listed =>
    stops _ (loadRecord_repeated more ((get_putRecords_len recsGood _).2 listed)), fun more unlisted => ?_⟩
  have absent := not_not.1 (mt (get_putRecords_len recsGood _).1 unlisted)
  refine ⟨fun ends => stops _ (loadRecord_noLength more absent ends), fun more' zero =>
    stops _ (loadRecord_zeroLength more absent more' zero), fun more' j below goodBits badBit =>
    stops _ (loadRecord_badCharacter more absent more' below (fun i hi => ?_) ?_)⟩
  · obtain ⟨present, bit⟩ := goodBits i hi
    rw [imageByte_of_lt present]
    exact bit.imp (congrArg some) (congrArg some)
  · obtain ends | ⟨present, no0, no1⟩ := badBit
    · rw [imageByte_of_ge ends.ge]
      exact ⟨nofun, nofun⟩
    · rw [imageByte_of_lt present]
      exact ⟨fun h => no0 (Option.some.inj h), fun h => no1 (Option.some.inj h)⟩

end Sys2Proof.Machine
end

-- Proofs: the encoder
section
/-! PROOFS. The padding ranges, what a successful ENCODE leaves, and its errors in their order (42_encoder.md R67 to
R70). -/

namespace Sys2Proof.Machine

/-- Settles O26: both modes are arithmetic modulo 8. -/
theorem paddingRanges : Obligations.PaddingRanges := by
  intro len
  have mode0 : padding len false = 8 - len % 8 := rfl
  have mode1 : padding len true = (8 - len % 8) % 8 := rfl
  rw [mode0, mode1]
  omega

/-- Settles O27: ENCODE writes the artifact of its input, whose bytes are the padding count and the packed bits. -/
theorem encodeWritesTheArtifact : Obligations.EncodeWritesTheArtifact := by
  intro s syms L pad good input present bits padBits fits
  obtain rfl : syms = s.inputSymbols := input
  obtain rfl : L = streamBits s.ct s.inputSymbols := bits
  obtain rfl : pad = padding (streamBits s.ct s.inputSymbols) s.ctrl.padMode := padBits
  have size := artifact_length s.ct s.ctrl.padMode s.inputSymbols
  have payload := payloadBytes_mul (streamBits s.ct s.inputSymbols) s.ctrl.padMode
  have encoded := exec_encode_of_windowsGood good
  rw [firstUncovered_eq_none.2 present, State.encoded, if_neg (size ▸ Nat.not_lt.2 fits)] at encoded
  obtain ⟨record, written, kept⟩ := okRecord_isRecordWith s (artifact s.ct s.ctrl.padMode s.inputSymbols)
    (artifact s.ct s.ctrl.padMode s.inputSymbols).length (streamBits s.ct s.inputSymbols)
    (padding (streamBits s.ct s.inputSymbols) s.ctrl.padMode) s.srcLen.toNat
  refine ⟨_, encoded, record.trans (by rw [size]; rfl), ?header, fun k inside => ?bits, fun a outside =>
    kept a (size ▸ outside)⟩
  case header =>
    exact (congrArg BitVec.toNat (written 0 (by omega))).trans (artifact_head _ _ _ (by omega))
  case bits =>
    have inside' : k < 8 * payloadBytes (streamBits s.ct s.inputSymbols) s.ctrl.padMode := payload ▸ inside
    have stored : 1 + k / 8 < (artifact s.ct s.ctrl.padMode s.inputSymbols).length := by omega
    rw [Nat.add_assoc, written _ stored]
    exact artifact_bit _ _ _ stored

/-- Settles O28: the window checks, then the first input symbol without a codeword, then the size. -/
theorem encodeErrors : Obligations.EncodeErrors := by
  rintro s L pad rfl rfl
  obtain ⟨src, dst, overlap⟩ := exec_of_windowsBad (s := s) (.inl rfl)
  refine ⟨src, dst, overlap, fun good j inside absent first => ?uncovered, fun good present full => ?overflow⟩
  case uncovered =>
    have uncovered : firstUncovered s.ct s.inputSymbols = some j := firstUncovered_eq_some.2
      ⟨by simpa using inside, by simpa [State.entry] using absent, fun i before => by
        simpa [State.entry] using first i before⟩
    rw [exec_encode_of_windowsGood good, uncovered, State.encoded]
  case overflow =>
    have covered : firstUncovered s.ct s.inputSymbols = none := firstUncovered_eq_none.2 fun x listed => by
      obtain ⟨j, inside, rfl⟩ := List.mem_map.1 listed
      exact present j (List.mem_range.1 inside)
    have bits : ((List.range s.srcLen.toNat).map fun j => (s.entry (s.byteAt (s.src.toNat + j))).len.toNat).sum =
        streamBits s.ct s.inputSymbols := by
      rw [streamBits, State.inputSymbols, List.map_map]
      rfl
    rw [bits] at full ⊢
    have size : (artifact s.ct s.ctrl.padMode s.inputSymbols).length = _ := artifact_length _ _ _
    rw [exec_encode_of_windowsGood good, covered, State.encoded, size]
    exact congrArg _ (if_pos full)

end Sys2Proof.Machine
end

-- Proofs: TREE_BUILD
section
/-! PROOFS. When TREE_BUILD succeeds, and what a failed one reports (43_decode_tree_walker.md R73, R74; 60_exceptions.md
R83, R84). -/

namespace Sys2Proof.Machine

/-- R13: where no codeword begins another, no two present symbols conflict. -/
theorem Table.prefixFree.no_conflict {ct : Table} (free : ct.prefixFree) {x y : Byte} (other : x ≠ y)
    (presentX : (ct.get x).len ≠ 0#8) (presentY : (ct.get y).len ≠ 0#8) :
    ¬ wordsConflict (ct.get x).word (ct.get y).word := by
  rintro (begins | begins)
  · exact free x y other presentX presentY begins
  · exact free y x other.symm presentY presentX begins

theorem Table.prefixFree_of_pairwise {ct : Table}
    (free : ct.present.Pairwise fun x y => ¬ wordsConflict (ct.get x).word (ct.get y).word) : ct.prefixFree :=
  fun _ _ other presentX presentY begins => no_conflict_of_pairwise free (Table.mem_present.2 presentX)
    (Table.mem_present.2 presentY) other (.inl begins)

/-- R74: the tree of a table is built exactly when no codeword begins another and the prefixes fit the arena, one node
for each. -/
theorem buildTree_ok_iff {d : Draw} {ar : Arena} {ct : Table} {n : Nat} (prefixes : ct.prefixCount 256 n) :
    (∃ b, buildTree d ar ct = .ok b ∧ b.count = n) ↔ ct.prefixFree ∧ n ≤ 512 := by
  have spec := buildTree_spec d ar ct
  cases built : buildTree d ar ct with
  | ok b =>
    rw [built] at spec
    obtain ⟨⟨path, inv⟩, free⟩ := spec
    have count := count_eq inv prefixes
    exact iff_of_true ⟨b, rfl, count.symm⟩ ⟨Table.prefixFree_of_pairwise free, count ▸ inv.le⟩
  | error e =>
    rw [built] at spec
    obtain ⟨u, v, split, -, cause⟩ := spec
    obtain ⟨present, before⟩ := sorted_split split
    refine iff_of_false (fun ⟨b, h, _⟩ => by cases h) fun ⟨free, fits⟩ => ?_
    obtain ⟨-, x, hx, conflict⟩ | ⟨-, -, b, path, inv, full, w, begins, missing⟩ := cause
    · obtain ⟨smaller, presentX⟩ := (before x).1 hx
      have other : x ≠ e.2 := by
        rintro rfl
        exact lt_irrefl _ smaller
      exact free.no_conflict other presentX present conflict
    · have := count_over split inv begins missing e.2.isLt prefixes
      omega

/-- Settles O30: TREE_BUILD succeeds when the tree of the table can be built, and fails otherwise. -/
theorem treeBuildSucceedsExactlyOnPrefixFreeTablesThatFit :
    Obligations.TreeBuildSucceedsExactlyOnPrefixFreeTablesThatFit := by
  intro s n prefixes
  have iff := buildTree_ok_iff (d := s.arenaDraw) (ar := s.arena) prefixes
  rw [exec_treeBuild]
  refine ⟨fun free fits => ?succeeds, fun unfit => ?fails⟩
  case succeeds =>
    obtain ⟨b, built, rfl⟩ := iff.2 ⟨free, fits⟩
    rw [built, Table.present_eq]
    exact ⟨_, rfl, rfl⟩
  case fails =>
    cases built : buildTree s.arenaDraw s.arena s.ct with
    | error e => exact ⟨_, rfl, rfl⟩
    | ok b =>
      have spec := buildTree_spec s.arenaDraw s.arena s.ct
      rw [built] at spec
      obtain ⟨⟨path, inv⟩, -⟩ := spec
      exact absurd (iff.1 ⟨b, built, (count_eq inv prefixes).symm⟩) unfit

/-- Settles O31: the symbols before the one TREE_BUILD stops at are the smaller present ones, they have no conflict
among them, and their prefixes alone fit the arena. -/
theorem treeBuildNamesTheSymbolItStoppedAt : Obligations.TreeBuildNamesTheSymbolItStoppedAt := by
  intro s t built failed
  rw [exec_treeBuild] at built
  have spec := buildTree_spec s.arenaDraw s.arena s.ct
  cases tree : buildTree s.arenaDraw s.arena s.ct with
  | ok b =>
    rw [tree] at built
    obtain rfl := Host.Outcome.next.inj built
    cases failed
  | error e =>
    obtain ⟨code, sym⟩ := e
    rw [tree] at built spec
    obtain rfl := Host.Outcome.next.inj built
    obtain ⟨u, v, split, free, cause⟩ := spec
    obtain ⟨present, before⟩ := sorted_split split
    have quiet : ∀ x y : Byte, x.toNat < y.toNat → y.toNat < sym.toNat → ¬ s.ct.conflict x y := by
      rintro x y smaller below ⟨presentX, presentY, conflict⟩
      have other : x ≠ y := by
        rintro rfl
        exact lt_irrefl _ smaller
      exact no_conflict_of_pairwise free ((before x).2 ⟨smaller.trans below, presentX⟩)
        ((before y).2 ⟨below, presentY⟩) other conflict
    obtain ⟨rfl, x, hx, conflict⟩ | ⟨rfl, alone, b, path, inv, full, w, begins, missing⟩ := cause
    · obtain ⟨smaller, presentX⟩ := (before x).1 hx
      exact ⟨0x0B, sym, .inl rfl, present, rfl, quiet, fun _ => ⟨x, smaller, presentX, present, conflict⟩, nofun⟩
    · refine ⟨0x0C, sym, .inr rfl, present, rfl, quiet, nofun, fun _ => ⟨?_,
        fun n prefixes => full ▸ count_below split inv prefixes,
        fun n prefixes => full ▸ count_over split inv begins missing (Nat.lt_succ_self _) prefixes⟩⟩
      rintro x smaller ⟨presentX, -, conflict⟩
      exact alone x ((before x).2 ⟨smaller, presentX⟩) conflict

end Sys2Proof.Machine
end

-- Proofs: DECODE
section
/-! PROOFS. DECODE's errors before the walk, what each end of the walk leaves, and the frame of DECODE
(43_decode_tree_walker.md R77, R78; 60_exceptions.md R83, R86). -/

namespace Sys2Proof.Machine

/-- Settles O33: a valid tree of the current table leads each codeword to its symbol. -/
theorem decodeRecoversTheSymbols : Obligations.DecodeRecoversTheSymbols := by
  rintro s syms p ⟨windows, valid, ofTable⟩ present art payload room
  exact exec_decode_of_stream windows valid (TreeFacts.of_treeOfTable ofTable) present art payload room

/-- Settles O34: the window checks, then the tree, then the artifact's header. -/
theorem decodeErrorsBeforeTheWalk : Obligations.DecodeErrorsBeforeTheWalk := by
  intro s
  obtain ⟨src, dst, overlap⟩ := exec_of_windowsBad (s := s) (.inr rfl)
  refine ⟨src, dst, overlap, fun good invalid => ?noTree, fun good valid empty => ?empty,
    fun good valid nonempty exceeds => ?exceeds⟩
  all_goals rw [exec_decode_of_windowsGood good]
  case noTree => rw [if_pos invalid]
  case empty => rw [if_neg (by simp [valid]), if_pos empty]
  case exceeds =>
    rw [if_neg (by simp [valid]), if_neg nonempty]
    exact congrArg _ (if_pos exceeds)

/-! ### The walk errors -/

/-- A walk that writes `syms` and then fails. -/
theorem exec_decode_of_raised {s : State} {syms : List Byte} {r : Run} {c : ErrCode} {pos : Nat}
    (written : r = (startStep s).memWriteAll s.dst.toNat syms) (raised : decodeBody (startStep s) = .raised r c pos) :
    ∃ t, exec .decode s = .next t ∧
      t.isRecordWith (s.errRecord c.byte.toNat pos syms.length) s s.dst.toNat syms := by
  have decoded : exec .decode s = .next (complete noErrorEffect (decodeBody (startStep s))) := rfl
  rw [raised, written, complete_raised] at decoded
  exact ⟨_, decoded, errRecord_isRecordWith s syms _ _⟩

/-- R77: after the codewords of `syms` the walk is at the root again, over the bits `rest`, with the same table and
tree. -/
theorem decodeBody_after_symbols {s : State} {syms : List Byte} {rest : List Bool} {p B : Nat} (ready : s.walkReady)
    (present : ∀ x ∈ syms, (s.entry x).len ≠ 0#8) (room : syms.length ≤ s.dstCap.toNat) (art : s.holdsArtifact p B)
    (length : (s.ct.stream syms ++ rest).length ≤ B) (payload : s.payloadBegins (s.ct.stream syms ++ rest)) :
    ∃ r, r = (startStep s).memWriteAll s.dst.toNat syms ∧ (∀ x, r.st.entry x = s.entry x) ∧
      r.st.dstCap = s.dstCap ∧ TreeFacts r.st ∧ r.st.bitsFrom (s.ct.stream syms).length rest ∧
      decodeBody (startStep s) =
        decodeWalk p (B - (s.ct.stream syms).length) (s.ct.stream syms).length syms.length 0 r := by
  obtain ⟨windows, valid, ofTable⟩ := ready
  obtain ⟨r, written, tree, bits, body⟩ := decodeBody_symbols windows valid (TreeFacts.of_treeOfTable ofTable) art
    syms present room rest length payload
  have fields := written
  rw [Run.memWriteAll_eq] at fields
  refine ⟨r, written, fun x => ?_, ?_, tree, bits, body⟩
  · rw [fields]
    rfl
  · rw [fields]
    rfl

/-- From the root, or inside a codeword, the walk follows the bits `u`. -/
theorem decodeWalk_begun {p m k n : Nat} {r : Run} (tree : TreeFacts r.st) {u : List Bool}
    (begun : u = [] ∨ ∃ y, (r.st.entry y).len ≠ 0#8 ∧ u <+: (r.st.entry y).word ∧ u ≠ (r.st.entry y).word)
    (bits : r.st.bitsFrom k u) : ∃ q, r.st.follow 0 u = some q ∧ (u ≠ [] → q ≠ 0) ∧
      decodeWalk p (u.length + m) k n 0 r = decodeWalk p m (k + u.length) n q r := by
  obtain rfl | ⟨y, present, begins, proper⟩ := begun
  · exact ⟨0, rfl, fun h => absurd rfl h, by simp⟩
  · exact decodeWalk_inside tree present begins proper bits

/-- Settles O35: no path goes on by the bit `b`, so the node that the bits before it lead to has no such child. -/
theorem decodeNullChildKeepsTheEmittedSymbols : Obligations.DecodeNullChildKeepsTheEmittedSymbols := by
  intro s syms u b p B ready present room begun stray art length payload
  rw [List.append_assoc] at length payload
  obtain ⟨r, written, entry, -, tree, bits, body⟩ :=
    decodeBody_after_symbols ready present room art length payload
  simp only [← entry] at begun stray
  obtain ⟨bitsU, bitB⟩ := State.bitsFrom_append bits
  obtain ⟨m, hm⟩ : ∃ m, B - (s.ct.stream syms).length = u.length + (m + 1) :=
    ⟨B - (s.ct.stream syms).length - u.length - 1, by simp at length; omega⟩
  obtain ⟨q, path, -, walk⟩ := decodeWalk_begun (p := p) (m := m + 1) (n := syms.length) tree begun bitsU
  have nowhere := follow_concat path b
  rw [tree.nowhere _ (by simp) stray] at nowhere
  have childless : (r.st.nodeAt q).child b = 0 := by
    by_contra child
    rw [if_neg child] at nowhere
    cases nowhere
  have bit : r.st.payloadBit ((s.ct.stream syms).length + u.length) = b := bitB 0 (by simp)
  rw [hm, walk, decodeWalk, bit, if_pos childless, ← List.length_append] at body
  exact exec_decode_of_raised written body

/-- Settles O36: inside a codeword the walk is not at the root. -/
theorem decodeTruncatedKeepsTheEmittedSymbols : Obligations.DecodeTruncatedKeepsTheEmittedSymbols := by
  intro s syms u p ready present room nonempty begun art payload
  obtain ⟨r, written, entry, -, tree, bits, body⟩ :=
    decodeBody_after_symbols ready present room art le_rfl payload
  simp only [← entry] at begun
  obtain ⟨q, -, inside, walk⟩ := decodeWalk_begun (p := p) (m := 0) (n := syms.length) tree (.inr begun) bits
  rw [List.length_append, Nat.add_sub_cancel_left, ← Nat.add_zero u.length, walk, decodeWalk,
    if_pos (inside nonempty), ← List.length_append] at body
  exact exec_decode_of_raised written body

/-- Settles O37: the last bit of one more codeword finds the destination window full. -/
theorem decodeOverflowKeepsTheEmittedSymbols : Obligations.DecodeOverflowKeepsTheEmittedSymbols := by
  intro s syms last p B ready present presentLast full art length payload
  have stream : s.ct.stream (syms ++ [last]) = s.ct.stream syms ++ (s.entry last).word := by
    simp [Table.stream, State.entry]
  rw [stream] at length payload ⊢
  obtain ⟨r, written, entry, dstCap, tree, bits, body⟩ :=
    decodeBody_after_symbols ready present full.le art length payload
  rw [← entry] at length presentLast bits ⊢
  rw [List.length_append] at length ⊢
  obtain ⟨m, hm⟩ : ∃ m, B - (s.ct.stream syms).length = (r.st.entry last).word.length + m :=
    ⟨B - (s.ct.stream syms).length - (r.st.entry last).word.length, by omega⟩
  rw [hm, decodeWalk_codeword tree presentLast bits, if_pos (by rw [full, dstCap])] at body
  exact exec_decode_of_raised written body

end Sys2Proof.Machine
end

-- Proofs: the frame of DECODE, and what a command depends on
section
/-! PROOFS. What DECODE leaves whatever its outcome (43_decode_tree_walker.md R78), that a command reads memory through
its source window only (20_memory.md R36), and that only ENCODE reads `CTRL` (10_state.md R26). -/

namespace Sys2Proof.Machine

/-! ### The frame of DECODE -/

/-- The walk's success: the results of R78. -/
theorem complete_decodeResults (s : State) (out : List Byte) (n B p : Nat) :
    complete noErrorEffect (.done (((startStep s).memWriteAll s.dst.toNat out).decodeResults n B p)) =
      (s.affected s.noEffect out).okRecord n B p n := by
  rw [Run.memWriteAll_eq]
  rfl

/-- Everything the walk can leave: the symbols it emitted, which fit the window, and their count in `OUT_LEN`. -/
theorem walked_cases (s : State) : ∃ out : List Byte, out.length ≤ s.dstCap.toNat ∧
    Completed s s.noEffect out s.walked ∧ s.walked.outLen = BitVec.ofNat 32 out.length := by
  obtain ⟨out, fits, done | ⟨c, q, -, raised⟩⟩ :=
    decodeWalk_cases s.header (s.payloadBits - s.header) 0 0 0 (startStep s) (Nat.zero_le _)
  all_goals
    simp only [startStep_st, startState_fields, Nat.zero_add] at fits
    refine ⟨out, fits, ?_⟩
  · have left : s.walked = (s.affected s.noEffect out).okRecord out.length (s.payloadBits - s.header) s.header
        out.length := by
      rw [State.walked, done, Nat.zero_add, Nat.zero_add]
      exact complete_decodeResults s out _ _ _
    rw [left]
    exact ⟨.ok _ _ _ _, rfl⟩
  · have left : s.walked = (s.affected s.noEffect out).errRecord c.byte.toNat q out.length := by
      rw [State.walked, raised]
      exact complete_raised s out c q
    rw [left]
    exact ⟨.err c q, rfl⟩

/-- Everything DECODE can leave. -/
theorem exec_decode_cases (s : State) : ∃ t, exec .decode s = .next t ∧ ∃ out : List Byte,
    out.length ≤ s.dstCap.toNat ∧ Completed s s.noEffect out t ∧ t.outLen = BitVec.ofNat 32 out.length := by
  have early : ∀ (c : ErrCode) (pos : Nat), exec .decode s = .next (s.errRecord c.byte.toNat pos 0) →
      ∃ t, exec .decode s = .next t ∧ ∃ out : List Byte, out.length ≤ s.dstCap.toNat ∧
        Completed s s.noEffect out t ∧ t.outLen = BitVec.ofNat 32 out.length :=
    fun c pos h => ⟨_, h, [], Nat.zero_le _, .err c pos, rfl⟩
  obtain ⟨src, dst, overlap⟩ := exec_of_windowsBad (s := s) (i := .decode) (.inr rfl)
  by_cases good : s.windowsGood
  · have decoded := exec_decode_of_windowsGood good
    split_ifs at decoded
    · exact early .noTree 0 decoded
    · exact early .artifactEmpty 0 decoded
    · exact early .padExceeds _ decoded
    · exact ⟨_, decoded, walked_cases s⟩
  · by_cases srcFits : s.src.toNat + s.srcLen.toNat ≤ 65536
    · by_cases dstFits : s.dst.toNat + s.dstCap.toNat ≤ 65536
      · exact early .overlap 0 (overlap srcFits dstFits good)
      · exact early .range 1 (dst srcFits (by omega))
    · exact early .range 0 (src (by omega))

/-- A command without an effect changes its record, `BUSY`, `DONE`, `ERR` and memory. -/
theorem Completed.frame_of_noEffect {s t : State} {bs : List Byte} (completed : Completed s s.noEffect bs t) :
    t = { s with
      errCode := t.errCode, errPos := t.errPos, outLen := t.outLen, bitLen := t.bitLen, pad := t.pad,
      symCount := t.symCount, dmem := t.dmem,
      status := { s.status with busy := false, done := true, err := decide (t.errCode ≠ 0#8) } } := by
  cases completed with
  | ok o b p n => rfl
  | err c pos =>
    rw [errRecord_errCode, decide_eq_true (errCode_byte_ne_zero c), State.errRecord, BitVec.ofNat_toNat,
      BitVec.setWidth_eq]
    rfl

/-- Settles O38: DECODE has no effect but its record and the symbols it wrote. -/
theorem decodeFrame : Obligations.DecodeFrame := by
  intro s t decoded
  obtain ⟨t', decoded', out, fits, completed, outLen⟩ := exec_decode_cases s
  obtain rfl : t' = t := Host.Outcome.next.inj (decoded'.symm.trans decoded)
  have length : t'.outLen.toNat = out.length := by
    have := s.dstCap.isLt
    rw [outLen, BitVec.toNat_ofNat, Nat.mod_eq_of_lt (by omega)]
  rw [length]
  exact ⟨fits, fun a outside => by rw [completed.byteAt, dif_neg (by omega)], completed.frame_of_noEffect⟩

/-! ### Memory outside the source window -/

/-- The same machine over another data memory. -/
def State.onMemory (s : State) (m : Memory) (d : Draw) : State := { s with dmem := m, dmemDraw := d }

/-- The two memories hold the same bytes in the source window. -/
def State.agrees (s : State) (m : Memory) (d : Draw) : Prop :=
  ∀ a, s.src.toNat ≤ a → a < s.src.toNat + s.srcLen.toNat → (s.onMemory m d).byteAt a = s.byteAt a

/-- The command ends over both memories with the same effect, bytes and record. -/
inductive EndsAlike (i : Instr) (s : State) (m : Memory) (d : Draw) : Prop where
  | ok (e : Effect) (bs : List Byte) (o b p n : Nat) (ends : exec i s = .next ((s.affected e bs).okRecord o b p n))
      (ends' : exec i (s.onMemory m d) = .next (((s.onMemory m d).affected e bs).okRecord o b p n))
  | err (e : Effect) (bs : List Byte) (c : ErrCode) (pos : Nat)
      (ends : exec i s = .next ((s.affected e bs).errRecord c.byte.toNat pos bs.length))
      (ends' : exec i (s.onMemory m d) = .next (((s.onMemory m d).affected e bs).errRecord c.byte.toNat pos bs.length))

/-- A byte after the same writes over two memories: written in both, or left in both. -/
theorem Completed.byteAt_alike {s s' t u : State} {e : Effect} {bs : List Byte} (dst : s'.dst = s.dst)
    (left : Completed s e bs t) (right : Completed s' e bs u) (a : Nat) :
    u.byteAt a = t.byteAt a ∨ (t.byteAt a = s.byteAt a ∧ u.byteAt a = s'.byteAt a) := by
  rw [left.byteAt, right.byteAt, dst]
  split_ifs
  · exact .inl rfl
  · exact .inr ⟨rfl, rfl⟩

section
variable {s : State} {m : Memory} {d : Draw} (same : s.agrees m d)
include same

theorem byteAt_onMemory {j : Nat} (inside : j < s.srcLen.toNat) :
    (s.onMemory m d).byteAt (s.src.toNat + j) = s.byteAt (s.src.toNat + j) := same _ (by omega) (by omega)

/-! The image of TABLE_LOAD, the input of ENCODE and the artifact of DECODE lie in the source window. -/

theorem loadImage_onMemory : loadImage (s.onMemory m d) = loadImage s := by
  refine loadImage_congr (fun o => ?_) rfl
  have length : (s.onMemory m d).srcLen = s.srcLen := rfl
  by_cases inside : o < s.srcLen.toNat
  · rw [imageByte_of_lt (length ▸ inside), imageByte_of_lt inside]
    exact congrArg some (byteAt_onMemory same inside)
  · rw [imageByte_of_ge (length ▸ Nat.not_lt.1 inside), imageByte_of_ge (Nat.not_lt.1 inside)]

theorem inputSymbols_onMemory : (s.onMemory m d).inputSymbols = s.inputSymbols :=
  List.map_congr_left fun _ inside => byteAt_onMemory same (List.mem_range.1 inside)

theorem header_onMemory (nonempty : s.srcLen ≠ 0#32) : (s.onMemory m d).header = s.header :=
  congrArg BitVec.toNat (byteAt_onMemory same (Nat.pos_of_ne_zero fun h => nonempty (BitVec.eq_of_toNat_eq h)))

theorem payloadBit_onMemory {k : Nat} (inside : k < s.payloadBits) :
    (s.onMemory m d).payloadBit k = s.payloadBit k := by
  rw [State.payloadBits] at inside
  have byte := byteAt_onMemory same (j := 1 + k / 8) (by omega)
  rw [← Nat.add_assoc] at byte
  exact congrArg (·.getLsbD (7 - k % 8)) byte

/-! What each of the three reads, it reads alike over both memories. -/

theorem tableLoad_endsAlike : EndsAlike .tableLoad s m d := by
  have image := loadImage_onMemory same
  by_cases window : s.src.toNat + s.srcLen.toNat ≤ 65536
  · cases read : loadImage s with
    | error o =>
      exact .err { s.noEffect with ct := Table.empty, treeValid := false } [] .tableFormat o
        (exec_tableLoad_of_error window read) (exec_tableLoad_of_error window (image.trans read))
    | ok r =>
      exact .ok { s.noEffect with ct := r.2, treeValid := false } [] 0 0 0 r.1
        (exec_tableLoad_of_ok window read) (exec_tableLoad_of_ok window (image.trans read))
  · exact .err s.noEffect [] .range 0 ((exec_tableLoad s).trans (if_neg window))
      ((exec_tableLoad (s.onMemory m d)).trans (if_neg window))

theorem encode_endsAlike (good : s.windowsGood) : EndsAlike .encode s m d := by
  have encoded := exec_encode_of_windowsGood good
  have encoded' := exec_encode_of_windowsGood (s := s.onMemory m d) good
  have input := inputSymbols_onMemory same
  have ct : (s.onMemory m d).ct = s.ct := rfl
  rw [input, ct] at encoded'
  cases covered : firstUncovered s.ct s.inputSymbols with
  | some j =>
    rw [covered] at encoded encoded'
    exact .err s.noEffect [] .symbolNotInTable j encoded encoded'
  | none =>
    rw [covered, State.encoded] at encoded encoded'
    rw [input] at encoded'
    by_cases full : s.dstCap.toNat < (artifact s.ct s.ctrl.padMode s.inputSymbols).length
    · exact .err s.noEffect [] .dstOverflow _ (encoded.trans (congrArg _ (if_pos full)))
        (encoded'.trans (congrArg _ (if_pos full)))
    · exact .ok s.noEffect _ _ _ _ _ (encoded.trans (congrArg _ (if_neg full)))
        (encoded'.trans (congrArg _ (if_neg full)))

/-- The walk over an artifact of the source window writes into the other window only, so both walks read alike. -/
theorem walked_endsAlike (good : s.windowsGood) (nonempty : s.srcLen ≠ 0#32)
    (decoded : exec .decode s = .next s.walked)
    (decoded' : exec .decode (s.onMemory m d) = .next (s.onMemory m d).walked) : EndsAlike .decode s m d := by
  have bits : (s.onMemory m d).payloadBits = s.payloadBits := rfl
  have alike := decodeWalk_sim s.header (s.payloadBits - s.header) 0 0 0 (startStep s) (startStep (s.onMemory m d)) rfl
    (Nat.zero_le _) (fun i hi => payloadBit_onMemory same (by omega)) fun i hi j hj => by
      have := windowsGood_ne good (i := 1 + (0 + i) / 8) (by rw [State.payloadBits] at hi; omega) hj
      rwa [← Nat.add_assoc] at this
  rw [State.walked] at decoded decoded'
  rw [bits, header_onMemory same nonempty] at decoded'
  obtain ⟨out, -, ⟨done, done'⟩ | ⟨c, q, raised, raised'⟩⟩ := alike
  · rw [done] at decoded
    rw [done'] at decoded'
    exact .ok s.noEffect out _ _ _ _ (decoded.trans (congrArg _ (complete_decodeResults s out _ _ _)))
      (decoded'.trans (congrArg _ (complete_decodeResults (s.onMemory m d) out _ _ _)))
  · rw [raised] at decoded
    rw [raised'] at decoded'
    exact .err s.noEffect out c q (decoded.trans (congrArg _ (complete_raised s out c q)))
      (decoded'.trans (congrArg _ (complete_raised (s.onMemory m d) out c q)))

theorem decode_endsAlike (good : s.windowsGood) : EndsAlike .decode s m d := by
  have decoded := exec_decode_of_windowsGood good
  have decoded' := exec_decode_of_windowsGood (s := s.onMemory m d) good
  have fields : (s.onMemory m d).status = s.status ∧ (s.onMemory m d).srcLen = s.srcLen ∧
    (s.onMemory m d).payloadBits = s.payloadBits := ⟨rfl, rfl, rfl⟩
  simp only [fields] at decoded'
  by_cases invalid : s.status.treeValid = false
  · rw [if_pos invalid] at decoded decoded'
    exact .err s.noEffect [] .noTree 0 decoded decoded'
  rw [if_neg invalid] at decoded decoded'
  by_cases empty : s.srcLen = 0#32
  · rw [if_pos empty] at decoded decoded'
    exact .err s.noEffect [] .artifactEmpty 0 decoded decoded'
  rw [if_neg empty] at decoded decoded'
  rw [header_onMemory same empty] at decoded'
  by_cases exceeds : s.payloadBits < s.header
  · rw [if_pos exceeds] at decoded decoded'
    exact .err s.noEffect [] .padExceeds _ decoded decoded'
  rw [if_neg exceeds] at decoded decoded'
  exact walked_endsAlike same good empty decoded decoded'

end

/-- Where the windows are not good, ENCODE and DECODE read no memory. -/
theorem endsAlike_of_windowsBad {i : Instr} {s : State} (reads : i = .encode ∨ i = .decode) (bad : ¬ s.windowsGood)
    (m : Memory) (d : Draw) : EndsAlike i s m d := by
  obtain ⟨src, dst, overlap⟩ := exec_of_windowsBad (s := s) reads
  obtain ⟨src', dst', overlap'⟩ := exec_of_windowsBad (s := s.onMemory m d) reads
  by_cases srcFits : s.src.toNat + s.srcLen.toNat ≤ 65536
  · by_cases dstFits : s.dst.toNat + s.dstCap.toNat ≤ 65536
    · exact .err s.noEffect [] .overlap 0 (overlap srcFits dstFits bad) (overlap' srcFits dstFits bad)
    · exact .err s.noEffect [] .range 1 (dst srcFits (Nat.not_le.1 dstFits)) (dst' srcFits (Nat.not_le.1 dstFits))
  · exact .err s.noEffect [] .range 0 (src (Nat.not_le.1 srcFits)) (src' (Nat.not_le.1 srcFits))

/-- TABLE_STORE and TREE_BUILD read no memory. -/
theorem tableStore_endsAlike (s : State) (m : Memory) (d : Draw) : EndsAlike .tableStore s m d := by
  have stored := exec_tableStore_eq s
  have stored' := exec_tableStore_eq (s.onMemory m d)
  have fields : (s.onMemory m d).dst = s.dst ∧ (s.onMemory m d).dstCap = s.dstCap ∧ (s.onMemory m d).ct = s.ct :=
    ⟨rfl, rfl, rfl⟩
  simp only [fields] at stored'
  split_ifs at stored stored'
  · exact .err s.noEffect [] .range 1 stored stored'
  · exact .err s.noEffect [] .dstOverflow _ stored stored'
  · exact .ok s.noEffect _ _ _ _ _ stored stored'

theorem treeBuild_endsAlike (s : State) (m : Memory) (d : Draw) : EndsAlike .treeBuild s m d := by
  have built := exec_treeBuild s
  have built' := exec_treeBuild (s.onMemory m d)
  cases tree : buildTree s.arenaDraw s.arena s.ct with
  | error e =>
    have tree' : buildTree (s.onMemory m d).arenaDraw (s.onMemory m d).arena (s.onMemory m d).ct = .error e := tree
    rw [tree] at built
    rw [tree'] at built'
    exact .err { s.noEffect with arena := [], arenaDraw := s.arenaDraw.next, nodeCount := 0#32, treeValid := false } []
      e.1 e.2.toNat built built'
  | ok b =>
    have tree' : buildTree (s.onMemory m d).arenaDraw (s.onMemory m d).arena (s.onMemory m d).ct = .ok b := tree
    rw [tree] at built
    rw [tree'] at built'
    exact .ok { s.noEffect with arena := b.arena, nodeCount := BitVec.ofNat 32 b.count, treeValid := true } [] 0 0 0 _
      built built'

/-- R36: a command ends alike over two memories that hold the same bytes in its source window. -/
theorem exec_endsAlike (i : Instr) {s : State} {m : Memory} {d : Draw} (same : s.agrees m d) : EndsAlike i s m d := by
  cases i with
  | nop => exact .ok s.noEffect [] 0 0 0 0 rfl rfl
  | tableClear => exact .ok { s.noEffect with ct := Table.empty, treeValid := false } [] 0 0 0 0 rfl rfl
  | entryWrite =>
    exact .ok { s.noEffect with ct := s.ct.put s.esym s.stagedEntry, treeValid := false } [] 0 0 0 0 rfl rfl
  | entryRead =>
    exact .ok { s.noEffect with elen := s.entryCopied.elen, ecode := s.entryCopied.ecode } [] 0 0 0 0 rfl rfl
  | tableStore => exact tableStore_endsAlike s m d
  | tableLoad => exact tableLoad_endsAlike same
  | encode => exact (em s.windowsGood).elim (encode_endsAlike same) (endsAlike_of_windowsBad (.inl rfl) · m d)
  | treeBuild => exact treeBuild_endsAlike s m d
  | decode => exact (em s.windowsGood).elim (decode_endsAlike same) (endsAlike_of_windowsBad (.inr rfl) · m d)

/-- Settles O11: two runs that end alike differ in the bytes neither of them wrote. -/
theorem commandsReadOnlyTheSourceWindow : Obligations.CommandsReadOnlyTheSourceWindow := by
  intro i s m d same
  cases exec_endsAlike i same with
  | ok e bs o b p n ends ends' =>
    exact ⟨_, _, ends, ends', rfl, Completed.byteAt_alike (s' := s.onMemory m d) rfl (.ok o b p n) (.ok o b p n)⟩
  | err e bs c pos ends ends' =>
    exact ⟨_, _, ends, ends', rfl, Completed.byteAt_alike (s' := s.onMemory m d) rfl (.err c pos) (.err c pos)⟩

/-! ### CTRL -/

/-- The same machine under another `CTRL`. -/
def State.withCtrl (s : State) (c : Ctrl) : State := { s with ctrl := c }

/-- The same run under another `CTRL`. -/
def Run.withCtrl (r : Run) (c : Ctrl) : Run := { r with st := r.st.withCtrl c }

/-- The same end of a body under another `CTRL`. -/
def Ended.withCtrl (c : Ctrl) : Ended → Ended
  | .done r => .done (r.withCtrl c)
  | .raised r code pos => .raised (r.withCtrl c) code pos

/-- The completion step does not read `CTRL`. -/
theorem complete_withCtrl {errorEffect : ErrCode → State → State} (c : Ctrl)
    (blind : ∀ code s, errorEffect code (s.withCtrl c) = (errorEffect code s).withCtrl c) (x : Ended) :
    complete errorEffect (x.withCtrl c) = (complete errorEffect x).withCtrl c := by
  cases x with
  | done r => rfl
  | raised r code pos => exact blind code (completeError r code pos)

/-- A command whose body and error effect do not read `CTRL` does the same under another `CTRL`. -/
theorem runCommand_withCtrl {errorEffect : ErrCode → State → State} {body : Run → Ended} (s : State) (c : Ctrl)
    (blindEffect : ∀ code s, errorEffect code (s.withCtrl c) = (errorEffect code s).withCtrl c)
    (blindBody : ∀ r, body (r.withCtrl c) = (body r).withCtrl c) :
    runCommand errorEffect body (s.withCtrl c) = (runCommand errorEffect body s).withCtrl c := by
  have start : startStep (s.withCtrl c) = (startStep s).withCtrl c := rfl
  rw [runCommand, start, blindBody, complete_withCtrl c blindEffect, runCommand]

theorem tableStoreBody_withCtrl (r : Run) (c : Ctrl) :
    tableStoreBody (r.withCtrl c) = (tableStoreBody r).withCtrl c := by
  simp only [tableStoreBody, Run.memWriteAll_eq, apply_ite (Ended.withCtrl c)]
  rfl

theorem tableLoadBody_withCtrl (r : Run) (c : Ctrl) : tableLoadBody (r.withCtrl c) = (tableLoadBody r).withCtrl c := by
  have image : loadImage ((r.st.withCtrl c).clearTable.setTreeValid false) =
    loadImage (r.st.clearTable.setTreeValid false) := loadImage_congr (fun _ => rfl) rfl
  simp only [tableLoadBody, apply_ite (Ended.withCtrl c), Run.withCtrl, image]
  cases loadImage (r.st.clearTable.setTreeValid false) <;> rfl

theorem treeBuildBody_withCtrl (r : Run) (c : Ctrl) : treeBuildBody (r.withCtrl c) = (treeBuildBody r).withCtrl c := by
  have fields : (r.withCtrl c).st.arenaDraw = r.st.arenaDraw ∧ (r.withCtrl c).st.arena = r.st.arena ∧
    (r.withCtrl c).st.ct = r.st.ct := ⟨rfl, rfl, rfl⟩
  simp only [treeBuildBody, setTreeValid_fields, fields]
  cases buildTree r.st.arenaDraw r.st.arena r.st.ct <;> rfl

theorem decodeWalk_withCtrl (c : Ctrl) (p m k n : Nat) (pos : Fin 512) (r : Run) :
    decodeWalk p m k n pos (r.withCtrl c) = (decodeWalk p m k n pos r).withCtrl c := by
  induction m generalizing k n pos r with
  | zero =>
    rw [decodeWalk, decodeWalk, apply_ite (Ended.withCtrl c)]
    rfl
  | succ m ih =>
    simp only [decodeWalk, apply_ite (Ended.withCtrl c), ← ih]
    rfl

theorem decodeBody_withCtrl (r : Run) (c : Ctrl) : decodeBody (r.withCtrl c) = (decodeBody r).withCtrl c := by
  simp only [decodeBody, apply_ite (Ended.withCtrl c), ← decodeWalk_withCtrl]
  rfl

theorem tableLoadErrorEffect_withCtrl (code : ErrCode) (s : State) (c : Ctrl) :
    tableLoadErrorEffect code (s.withCtrl c) = (tableLoadErrorEffect code s).withCtrl c := by
  rw [tableLoadErrorEffect, tableLoadErrorEffect, apply_ite (State.withCtrl · c)]
  rfl

/-- A command is its body in the frame of R82 and R83; where neither reads `CTRL`, it does the same under another. -/
theorem exec_withCtrl {i : Instr} {errorEffect : ErrCode → State → State} {body : Run → Ended} {c : Ctrl}
    (executed : ∀ s, exec i s = .next (runCommand errorEffect body s))
    (blindEffect : ∀ code s, errorEffect code (s.withCtrl c) = (errorEffect code s).withCtrl c)
    (blindBody : ∀ r, body (r.withCtrl c) = (body r).withCtrl c) (s : State) :
    ∃ t, exec i s = .next t ∧ exec i (s.withCtrl c) = .next (t.withCtrl c) :=
  ⟨_, executed s, (executed _).trans (congrArg _ (runCommand_withCtrl s c blindEffect blindBody))⟩

/-- Settles O12: no body but ENCODE's reads `CTRL`. -/
theorem onlyEncodeReadsThePaddingMode : Obligations.OnlyEncodeReadsThePaddingMode := by
  intro i s c notEncode
  cases i with
  | encode => exact absurd rfl notEncode
  | nop => exact exec_withCtrl (body := nopBody) (fun _ => rfl) (fun _ _ => rfl) (fun _ => rfl) s
  | tableClear => exact exec_withCtrl (body := tableClearBody) (fun _ => rfl) (fun _ _ => rfl) (fun _ => rfl) s
  | entryWrite => exact exec_withCtrl (body := entryWriteBody) (fun _ => rfl) (fun _ _ => rfl) (fun _ => rfl) s
  | entryRead => exact exec_withCtrl (body := entryReadBody) (fun _ => rfl) (fun _ _ => rfl) (fun _ => rfl) s
  | tableStore => exact exec_withCtrl (fun _ => rfl) (fun _ _ => rfl) (tableStoreBody_withCtrl · c) s
  | tableLoad =>
    exact exec_withCtrl (fun _ => rfl) (tableLoadErrorEffect_withCtrl · · c) (tableLoadBody_withCtrl · c) s
  | treeBuild => exact exec_withCtrl (fun _ => rfl) (fun _ _ => rfl) (treeBuildBody_withCtrl · c) s
  | decode => exact exec_withCtrl (fun _ => rfl) (fun _ _ => rfl) (decodeBody_withCtrl · c) s

end Sys2Proof.Machine
end

-- Proofs: command words, the turns of a step, and reset
section
/-! PROOFS. What a step does on each turn (60_exceptions.md R81, R82; 70_reset_and_hazards.md R93, R94), on a legal and
an illegal command word (30_encoding.md R51, R52), and the state after reset (10_state.md R33). -/

namespace Sys2Proof.Machine

/-! ### Turns -/

theorem engineTurn_of_busy {s : State} (busy : s.status.busy = true) (released : s.resetLine = false) :
    engineTurn s = runPending s := if_pos (by simp [State.pending, busy, released])

theorem engineTurn_of_idle {s : State} (idle : s.status.busy = false) : engineTurn s = .next s :=
  if_neg (by simp [State.pending, idle])

theorem step_engine_of_busy {s : State} (busy : s.status.busy = true) (released : s.resetLine = false)
    (rest : List Turn) : step { s with agenda := .engine :: rest } = runPending { s with agenda := rest } :=
  engineTurn_of_busy (s := { s with agenda := rest }) busy released

theorem step_engine_of_idle {s : State} (idle : s.status.busy = false) (rest : List Turn) :
    step { s with agenda := .engine :: rest } = .next { s with agenda := rest } :=
  engineTurn_of_idle (s := { s with agenda := rest }) idle

theorem hostTurn_of_released {s : State} (released : s.resetLine = false) (a : HostAccess) :
    hostTurn a s = .next (hostAccess a s) := if_neg (by simp [released])

theorem step_host_of_released {s : State} (released : s.resetLine = false) (a : HostAccess) (rest : List Turn) :
    step { s with agenda := .host a :: rest } = .next (hostAccess a { s with agenda := rest }) :=
  hostTurn_of_released (s := { s with agenda := rest }) released a

/-- Log 1: with an empty agenda the turn is the engine's. -/
theorem step_of_agenda_nil {s : State} (empty : s.agenda = []) : step s = engineTurn s := by
  rw [step, nextTurn, empty]
  rfl

/-! ### Command words -/

theorem runPending_of_legal {s : State} {i : Instr} (legal : decode s.cmd = .ok i) : runPending s = exec i s := by
  rw [runPending, legal]

/-- R52, R82: a word that is no command's is not decoded, and its transition is the failure `ILLEGAL_CMD`. -/
theorem runPending_of_illegal {s : State} (illegal : ∀ i, s.cmd ≠ encode i) :
    runPending s = .next (s.errRecord 0x01 0 0) := by
  rw [runPending, ← runIllegal_eq]
  cases decoded : decode s.cmd with
  | ok i => exact absurd (eq_encode_of_decode decoded) (illegal i)
  | error e => rfl

/-- R21: `CMD` accepts any word while no command is pending. -/
theorem hostAccess_wr_cmd_idle {s : State} (idle : s.status.busy = false) (w : Word) :
    hostAccess (.wr32 0x010#17 w) s =
      { s with cmd := w, status := { s.status with busy := true, done := false, err := false } }.answered .ack := by
  rw [hostAccess_wr_reg _ _ _ target32_cmd, hostWrite_reg_of_idle _ _ _ idle]
  rfl

/-- Settles O2: both fields of each word are read off its digits. -/
theorem wordsDecodeAsTheTableSays : Obligations.WordsDecodeAsTheTableSays := ⟨rfl, rfl, rfl, rfl, rfl, rfl⟩

/-- Settles O3: the word is accepted as any other, and the decoder answers no command. -/
theorem illegalWordCompletesWithIllegalCmd : Obligations.IllegalWordCompletesWithIllegalCmd := by
  intro s w illegal
  refine ⟨fun idle => hostAccess_wr_cmd_idle idle w, ?_⟩
  rintro rfl busy released rest
  exact (step_engine_of_busy busy released rest).trans (runPending_of_illegal illegal)

/-- Settles O4: the engine runs what the decoder answers. -/
theorem stepRunsTheDecodedCommand : Obligations.StepRunsTheDecodedCommand := by
  intro s i decoded busy released
  refine ⟨fun rest => ?_, fun empty => ?_⟩
  · exact (step_engine_of_busy busy released rest).trans (runPending_of_legal decoded)
  · rw [step_of_agenda_nil empty, engineTurn_of_busy busy released, runPending_of_legal decoded]

/-- Settles O5: a placed word stands as an accepted one does, with the engine's turn before all others. -/
theorem stepTakesHostAndIdleTurns : Obligations.StepTakesHostAndIdleTurns := by
  refine ⟨fun s a rest released => step_host_of_released released a rest, fun s rest idle =>
    step_engine_of_idle idle rest, fun s idle empty => ?idleEmpty, fun s i => ?placed⟩
  case idleEmpty => rw [step_of_agenda_nil empty, engineTurn_of_idle idle]
  case placed =>
    have word : BitVec.ofNat 32 ((encode i).toNat % 2 ^ 32) = encode i := by
      rw [Nat.mod_eq_of_lt (encode i).isLt, BitVec.ofNat_toNat, BitVec.setWidth_eq]
    rw [State.withFetchWord, word]
    exact (step_engine_of_busy (s := { s.acceptCommand (encode i) with resetLine := false }) rfl rfl s.agenda).trans
      (runPending_of_legal (decode_encode i))

/-! ### Reset -/

/-- Settles O6: registers hold their reset values, and nothing is listed in memory or arena. -/
theorem resetLeavesEveryRegisterAtItsValue : Obligations.ResetLeavesEveryRegisterAtItsValue := by
  refine ⟨fun r => ?registers, fun sym => ?entries, fun n => rfl, fun a => rfl, rfl, rfl⟩
  case registers =>
    cases r with
    | ecode n => exact Vector.getElem_replicate n.isLt
    | _ => rfl
  case entries =>
    have entry : State.reset.entry sym = CTEntry.empty := Table.get_empty sym
    rw [entry]
    exact ⟨rfl, CTEntry.empty_pos⟩

/-- Settles O7: both edges apply reset, and in between no command is pending and no access is defined. -/
theorem resetInputResetsFromAnyState : Obligations.ResetInputResetsFromAnyState := fun _ _ =>
  ⟨_, rfl, rfl, rfl, rfl, fun _ => rfl, rfl, fun _ => rfl, _, rfl, rfl⟩

end Sys2Proof.Machine
end

-- Proofs: registers and memory at the host port
section
/-! PROOFS. What each offset reads and takes, idle and busy, and which accesses are bus errors (10_state.md R16 to R25;
20_memory.md R37 to R44). -/

namespace Sys2Proof.Machine

/-! ### Registers at their offsets (R16) -/

theorem target32_regOffset (r : Reg) : target32 (regOffset r) = some (.reg r) := by
  cases r with
  | ecode n =>
    revert n
    decide
  | _ => decide

/-- R17, R44: a read at a register's offset, where it is exact. -/
theorem rd32_regOffset {s : State} {r : Reg} (exactly : s.status.busy = false ∨ r.exactWhileBusy = true) :
    hostAccess (.rd32 (regOffset r)) s = s.answered (.data32 (s.readReg r)) := by
  rw [hostAccess_rd_reg _ _ _ (target32_regOffset r), hostRead_reg_of_exact _ _ exactly]

/-- R17: a write at a register's offset while no command is pending. -/
theorem wr32_regOffset {s : State} (idle : s.status.busy = false) (r : Reg) (v : Word) :
    hostAccess (.wr32 (regOffset r) v) s = (s.writeReg v r).answered .ack := by
  rw [hostAccess_wr_reg _ _ _ (target32_regOffset r), hostWrite_reg_of_idle _ _ _ idle]

/-- R19: `CTRL` reads its three flags and zeros. -/
theorem ctrl_word_bits (c : Ctrl) : c.word.getLsbD 0 = c.ieDone ∧ c.word.getLsbD 1 = c.ieErr ∧
    c.word.getLsbD 2 = c.padMode ∧ c.word.toNat < 8 := by
  have every : ∀ a b d : Bool, (Ctrl.mk a b d).word.getLsbD 0 = a ∧ (Ctrl.mk a b d).word.getLsbD 1 = b ∧
    (Ctrl.mk a b d).word.getLsbD 2 = d ∧ (Ctrl.mk a b d).word.toNat < 8 := by decide
  exact every c.ieDone c.ieErr c.padMode

/-- R20: `STATUS` reads its five flags and zeros. -/
theorem status_word_bits (t : Status) : t.word.getLsbD 0 = t.busy ∧ t.word.getLsbD 1 = t.done ∧
    t.word.getLsbD 2 = t.err ∧ t.word.getLsbD 3 = t.treeValid ∧ t.word.getLsbD 4 = t.collision ∧
    t.word.toNat < 32 := by
  have every : ∀ a b c d e : Bool, (Status.mk a b c d e).word.getLsbD 0 = a ∧
    (Status.mk a b c d e).word.getLsbD 1 = b ∧ (Status.mk a b c d e).word.getLsbD 2 = c ∧
    (Status.mk a b c d e).word.getLsbD 3 = d ∧ (Status.mk a b c d e).word.getLsbD 4 = e ∧
    (Status.mk a b c d e).word.toNat < 32 := by decide
  exact every t.busy t.done t.err t.treeValid t.collision

/-! ### Bus errors (R39) -/

theorem hostAccess_of_target_none {a : HostAccess} (illegal : a.target = none) (s : State) :
    hostAccess a s = s.answered .error := by
  rw [hostAccess, illegal]
  rfl

theorem target32_of_misaligned {off : BitVec 17} (h : off.toNat % 4 ≠ 0) : target32 off = none := if_pos h

theorem target32_of_no_register {off : BitVec 17} (low : 0x068 ≤ off.toNat) (high : off.toNat < 0x10000) :
    target32 off = none := by
  rw [target32, regAt_none low, if_pos (show off.toNat < Config.dmemWindow from high)]
  exact ite_self _

theorem target8_of_lt {off : BitVec 17} (h : off.toNat < 0x10000) : target8 off = none := if_pos h

/-- Settles O50: no illegal access has a target. -/
theorem illegalAccessesGetABusError : Obligations.IllegalAccessesGetABusError := by
  intro s a illegal
  refine hostAccess_of_target_none ?_ s
  have word : ∀ off : BitVec 17, off.toNat % 4 ≠ 0 ∨ (0x068 ≤ off.toNat ∧ off.toNat < 0x10000) →
      target32 off = none :=
    fun off h => h.elim target32_of_misaligned fun ⟨low, high⟩ => target32_of_no_register low high
  cases a with
  | rd8 off => exact target8_of_lt illegal
  | wr8 off b => exact target8_of_lt illegal
  | rd32 off => exact word off illegal
  | wr32 off v => exact word off illegal
  | otherWidth off => rfl

/-- Settles O44: each offset is its register's, and reads it exactly while no command is pending. -/
theorem registerMap : Obligations.RegisterMap := by
  refine ⟨fun s idle => ?reads, ?resetValues, fun s off v low high => ?errors⟩
  case reads =>
    have read : ∀ r, hostAccess (.rd32 (regOffset r)) s = s.answered (.data32 (s.readReg r)) := fun r =>
      rd32_regOffset (.inl idle)
    exact ⟨read .id, read .version, ⟨_, read .ctrl, ctrl_word_bits s.ctrl⟩,
      ⟨_, read .status, status_word_bits s.status⟩, read .cmd, read .errCode, read .errPos, read .src, read .srcLen,
      read .dst, read .dstCap, read .outLen, read .bitLen, read .pad, read .symCount, read .nodeCount, read .esym,
      read .elen, fun n => read (.ecode n)⟩
  case resetValues =>
    intro p listed
    have ofRegister : p ∈ allRegs.map fun r => (regOffset r, State.reset.readReg r) := listed
    obtain ⟨r, -, rfl⟩ := List.mem_map.1 ofRegister
    rw [rd32_regOffset (.inl rfl)]
    rfl
  case errors =>
    have illegal := target32_of_no_register low high
    exact ⟨hostAccess_of_target_none (a := .rd32 off) illegal s,
      hostAccess_of_target_none (a := .wr32 off v) illegal s⟩

/-! ### Writes while no command is pending -/

/-- The registers that take no write (R17, R22, R24). -/
def readOnlyRegs : List Reg := [.id, .version, .errCode, .errPos, .outLen, .bitLen, .pad, .symCount, .nodeCount]

theorem writeReg_of_readOnly {r : Reg} (readOnly : r ∈ readOnlyRegs) (s : State) (v : Word) : s.writeReg v r = s := by
  simp only [readOnlyRegs, List.mem_cons, List.not_mem_nil, or_false] at readOnly
  rcases readOnly with rfl | rfl | rfl | rfl | rfl | rfl | rfl | rfl | rfl <;> rfl

/-- Settles O46: a write to a read-only register is performed and writes nothing. -/
theorem writesToReadOnlyRegistersChangeNothing : Obligations.WritesToReadOnlyRegistersChangeNothing := by
  intro s off v idle listed
  have ofRegister : off ∈ readOnlyRegs.map regOffset := listed
  obtain ⟨r, readOnly, rfl⟩ := List.mem_map.1 ofRegister
  rw [wr32_regOffset idle, writeReg_of_readOnly readOnly]

/-- The low byte of a word, zero-extended. -/
theorem setWidth_lowByte (v : Word) : (v.extractLsb' 0 8).setWidth 32 = v &&& 0xFF#32 := by
  apply BitVec.eq_of_toNat_eq
  have mask : v.toNat &&& 255 = v.toNat % 2 ^ 8 := Nat.and_two_pow_sub_one_eq_mod v.toNat 8
  simp [mask]
  omega

/-- One flag is 1 at its own bit only. -/
theorem getLsbD_flagBit (b : Bool) (i j : Nat) :
    (flagBit b i).getLsbD j = (decide (j < 32) && (decide (i = j) && b)) := by
  cases b
  · simp [flagBit]
  · rw [flagBit, Bool.toNat_true, Nat.one_mul, BitVec.getLsbD_ofNat, Nat.testBit_two_pow, Bool.and_true]

/-- R19: `CTRL` holds the low three bits of what was written. -/
theorem ctrl_word_ofWord (v : Word) : (Ctrl.ofWord v).word = v &&& 7#32 := by
  apply BitVec.eq_of_getLsbD_eq
  intro j inside
  simp only [Ctrl.word, Ctrl.ofWord, BitVec.getLsbD_or, BitVec.getLsbD_and, getLsbD_flagBit, inside]
  rcases j with _ | _ | _ | j
  · simp
  · simp
  · simp
  · have high : Nat.testBit 7 (j + 3) = false := by simp [Nat.testBit_succ]
    simp [BitVec.getLsbD_ofNat, high]

/-- Settles O47: each write sets its register, whose offset reads it back. -/
theorem writtenRegistersReadBack : Obligations.WrittenRegistersReadBack := by
  intro s v idle
  have write := fun r => wr32_regOffset idle r v
  have read (t : State) (idle' : t.status.busy = false) (r : Reg) {w : Word} (holds : t.readReg r = w) :
      hostAccess (.rd32 (regOffset r)) t = t.answered (.data32 w) := holds ▸ rd32_regOffset (.inl idle')
  refine ⟨write .ctrl, ?readCtrl, write .src, read { s with src := v } idle .src rfl,
    write .srcLen, read { s with srcLen := v } idle .srcLen rfl, write .dst, read { s with dst := v } idle .dst rfl,
    write .dstCap, read { s with dstCap := v } idle .dstCap rfl,
    write .esym, read { s with esym := v.extractLsb' 0 8 } idle .esym (setWidth_lowByte v),
    write .elen, read { s with elen := v.extractLsb' 0 8 } idle .elen (setWidth_lowByte v),
    fun n => ⟨_, write (.ecode n), ?written, fun m other => ?others, rfl, ?readEcode⟩⟩
  case readCtrl =>
    rintro c rfl
    exact read { s with ctrl := Ctrl.ofWord v } idle .ctrl (ctrl_word_ofWord v)
  case written => exact Vector.getElem_set_self n.isLt
  case others => exact Vector.getElem_set_ne n.isLt m.isLt fun same => other (Fin.ext same.symm)
  case readEcode =>
    exact congrArg State.busResp
      (read ((s.writeReg v (.ecode n)).answered .ack) idle (.ecode n) (Vector.getElem_set_self n.isLt))

/-- Settles O48: `STATUS` is read and written alike whether or not a command is pending. -/
theorem statusIsWriteOneToClear : Obligations.StatusIsWriteOneToClear := by
  intro s v
  refine ⟨⟨_, rd32_regOffset (r := .status) (.inr rfl), status_word_bits s.status⟩, ?_⟩
  rw [hostAccess_wr_reg _ _ _ target32_status, hostWrite_status, State.acknowledge, writeOneToClear_eq]

/-- Settles O49: acceptance, dropped writes, and the failure of an illegal word. -/
theorem cmdWriteAcceptsACommand : Obligations.CmdWriteAcceptsACommand := by
  intro s c
  refine ⟨fun idle => hostAccess_wr_cmd_idle idle c, fun busy => ?dropped, rd32_regOffset (r := .cmd) (.inr rfl), rfl,
    ?_⟩
  case dropped =>
    rw [hostAccess_wr_reg _ _ _ target32_cmd, hostWrite_dropped busy (by simp)]
    rfl
  rintro busy rfl illegal released
  refine ⟨fun rest => ⟨_, (step_engine_of_busy busy released rest).trans (runPending_of_illegal illegal), rfl⟩,
    fun empty => ⟨_, (step_of_agenda_nil empty).trans
      ((engineTurn_of_busy busy released).trans (runPending_of_illegal illegal)), rfl⟩⟩

/-! ### Memory -/

/-- R40: byte `i` of a little-endian word. -/
theorem wordAt_byte (s : State) (a : Nat) {i : Nat} (h : i < 4) :
    (s.wordAt a).extractLsb' (8 * i) 8 = s.byteAt (a + i) := by
  have above {w : Nat} (hi : BitVec w) (lo : Byte) (k : Nat) :
      (hi ++ lo).extractLsb' (8 * (k + 1)) 8 = hi.extractLsb' (8 * k) 8 :=
    BitVec.extractLsb'_append_eq_of_le (Nat.le_mul_of_pos_right 8 k.succ_pos)
  match i, h with
  | 0, _ => exact BitVec.extractLsb'_append_eq_right
  | 1, _ => exact (above _ _ 0).trans BitVec.extractLsb'_append_eq_right
  | 2, _ => exact (above _ _ 1).trans ((above _ _ 0).trans BitVec.extractLsb'_append_eq_right)
  | 3, _ => exact (above _ _ 2).trans ((above _ _ 1).trans BitVec.extractLsb'_append_eq_left)

/-- Settles O51: the memory accesses of both widths, byte by byte. -/
theorem idleMemoryAccesses : Obligations.IdleMemoryAccesses := by
  intro s a v b idle inside
  refine ⟨hostAccess_rd8_mem idle inside, ⟨_, rfl, ?frame8, byteAt_wr8_mem idle inside b⟩, fun aligned =>
    ⟨⟨_, hostAccess_rd32_mem idle inside aligned, fun i => wordAt_byte s a⟩, _, rfl, ?frame32,
      byteAt_wr32_mem idle inside aligned v⟩⟩
  case frame8 =>
    rw [hostAccess_wr8_mem idle inside]
    rfl
  case frame32 =>
    rw [hostAccess_wr32_mem idle inside aligned]
    rfl

/-! ### Reads while a command is pending (R44) -/

/-- R44: a read that is not exact while a command is pending takes the next draw. -/
theorem hostRead_of_busy {s : State} (busy : s.status.busy = true) {t : Target} (free : t.unspecifiedWhileBusy = true) :
    hostRead s t = { s with draws := s.draws.next }.answered
      (t.response (t.unspecifiedValue (Config.unspecifiedRead s.draws))) := if_pos (by simp [busy, free])

/-- R17, R44: the registers that are not exact while a command is pending and hold all 32 bits. -/
theorem unspecified_whole_of_offset {r : Reg}
    (offset : r.offset = 0x018 ∨ (0x02C ≤ r.offset ∧ r.offset ≤ 0x03C) ∨ (0x048 ≤ r.offset ∧ r.offset ≤ 0x064)) :
    r.exactWhileBusy = false ∧ r.implemented = BitVec.allOnes 32 := by
  cases r with
  | errPos | outLen | bitLen | pad | symCount | nodeCount | ecode n => exact ⟨rfl, rfl⟩
  | _ => simp [Reg.offset] at offset

/-- R44: a whole word read while a command is pending, from a register or from memory. -/
theorem rd32_unspecified {s : State} {off : BitVec 17} (busy : s.status.busy = true) (aligned : off.toNat % 4 = 0)
    (place : off.toNat = 0x018 ∨ (0x02C ≤ off.toNat ∧ off.toNat ≤ 0x03C) ∨
      (0x048 ≤ off.toNat ∧ off.toNat ≤ 0x064) ∨ 0x10000 ≤ off.toNat) :
    hostAccess (.rd32 off) s =
      { s with draws := s.draws.next }.answered (.data32 (Config.unspecifiedRead s.draws)) := by
  by_cases memory : 0x10000 ≤ off.toNat
  · have word : target32 off = some (.word (off.toNat - Config.dmemWindow)) := by
      rw [target32, if_neg (by omega), if_neg (show ¬ off.toNat < Config.dmemWindow from Nat.not_lt.2 memory)]
    rw [hostAccess_rd32_of_target s word, hostRead_of_busy busy rfl]
    rfl
  · obtain ⟨r, hr⟩ := Option.isSome_iff_exists.1 (regAt_isSome aligned (show off.toNat < 0x068 by omega))
    have reg : target32 off = some (.reg r) := by
      rw [target32, if_neg (by omega), if_pos (show off.toNat < Config.dmemWindow from Nat.not_le.1 memory), hr]
      rfl
    have offset := offset_of_regAt hr
    obtain ⟨free, whole⟩ := unspecified_whole_of_offset (r := r) (by omega)
    rw [hostAccess_rd32_of_target s reg, hostRead_of_busy busy (by simp [Target.unspecifiedWhileBusy, free]),
      Target.unspecifiedValue, whole, BitVec.and_allOnes]
    rfl

/-- Settles O54: ten registers are exact, `ERRCODE` and `ELEN` keep their reserved bits, and the rest is whole. -/
theorem busyReadsAreExactOrUnspecified : Obligations.BusyReadsAreExactOrUnspecified := by
  intro s off busy
  have read {r : Reg} (exactly : r.exactWhileBusy = true) : off = regOffset r →
      hostAccess (.rd32 off) s = s.answered (.data32 (s.readReg r)) := by
    rintro rfl
    exact rd32_regOffset (.inr exactly)
  have free (r : Reg) (inexact : r.exactWhileBusy = false) : hostAccess (.rd32 (regOffset r)) s =
      { s with draws := s.draws.next }.answered (.data32 (Config.unspecifiedRead s.draws &&& r.implemented)) := by
    rw [hostAccess_rd_reg _ _ _ (target32_regOffset r),
      hostRead_of_busy busy (by simp [Target.unspecifiedWhileBusy, inexact])]
    rfl
  refine ⟨read (r := .src) rfl, read (r := .srcLen) rfl, read (r := .dst) rfl, read (r := .dstCap) rfl,
    read (r := .cmd) rfl, read (r := .ctrl) rfl, read (r := .status) rfl, read (r := .esym) rfl, read (r := .id) rfl,
    read (r := .version) rfl, ?reserved, rd32_unspecified busy, fun memory => ?byte⟩
  case reserved =>
    rintro (rfl | rfl)
    · exact free .errCode rfl
    · exact free .elen rfl
  case byte =>
    rw [hostAccess_rd8_of_target s (target8_of_ge memory), hostRead_of_busy busy rfl]
    rfl

/-! ### No read has a side effect (R42) -/

theorem hostRead_frame (s : State) (t : Target) : ∃ r k, hostRead s t = { s with draws := k }.answered r := by
  rw [hostRead]
  split_ifs
  · exact ⟨_, _, rfl⟩
  · exact ⟨_, s.draws, rfl⟩

theorem readTarget_answered (s : State) (r : BusResp) (t : Target) : (s.answered r).readTarget t = s.readTarget t := by
  cases t with
  | reg r => cases r <;> rfl
  | byte a => rfl
  | word a => rfl

/-- Settles O55: a read leaves the response and the count of draws, and the response is not read. -/
theorem hostReadsHaveNoSideEffect : Obligations.HostReadsHaveNoSideEffect := by
  intro s off
  refine ⟨?word, ?byte, fun idle => ?again⟩
  case word =>
    cases target : target32 off with
    | none => exact ⟨.error, s.draws, hostAccess_of_target_none (a := .rd32 off) target s⟩
    | some t => exact hostAccess_rd32_of_target s target ▸ hostRead_frame s t
  case byte =>
    cases target : target8 off with
    | none => exact ⟨.error, s.draws, hostAccess_of_target_none (a := .rd8 off) target s⟩
    | some t => exact hostAccess_rd8_of_target s target ▸ hostRead_frame s t
  case again =>
    cases target : target32 off with
    | none =>
      have error := hostAccess_of_target_none (a := .rd32 off) target
      exact ⟨.error, error s, by rw [error s, error]; rfl⟩
    | some t =>
      have read {u : State} (idle' : u.status.busy = false) :
          hostAccess (.rd32 off) u = u.answered (t.response (u.readTarget t)) := by
        rw [hostAccess_rd32_of_target u target, hostRead_of_idle idle']
      refine ⟨_, read idle, ?_⟩
      rw [read idle]
      refine (read (u := s.answered _) idle).trans ?_
      rw [readTarget_answered]
      rfl

/-- Settles O57: the two windows are the 0x20000 addresses from the base. -/
theorem platformAddressesMapToOffsets : Obligations.PlatformAddressesMapToOffsets := by
  refine fun base addr => ⟨fun k inside => ?_, platformOffset_outside⟩
  have offset : (BitVec.ofNat 17 k).toNat = k := Nat.mod_eq_of_lt inside
  simpa only [offset] using platformOffset_inside base (BitVec.ofNat 17 k)

end Sys2Proof.Machine
end

-- Proofs: platforms of several HBEs
section
/-! PROOFS. A step of a platform is a step of one HBE, and keeps the HBEs and their draws apart (60_exceptions.md
R91). -/

namespace Sys2Proof.Machine

namespace Platform

/-- R91: setting one HBE's state changes no other HBE and no base. -/
theorem differsAt_set {p : Platform} {k : Nat} {sl : PlatformSlot} (place : p[k]? = some sl) (s : State) :
    p.differsAt (p.set k { sl with hbe := s }) k s := by
  obtain ⟨inside, -⟩ := List.getElem?_eq_some_iff.1 place
  exact ⟨List.length_set, ⟨sl, place, List.getElem?_set_self inside⟩, fun j other => List.getElem?_set_ne other.symm⟩

theorem map_base_set {p : Platform} {k : Nat} {sl : PlatformSlot} (place : p[k]? = some sl) (s : State) :
    (p.set k { sl with hbe := s }).map PlatformSlot.base = p.map PlatformSlot.base := by
  obtain ⟨inside, rfl⟩ := List.getElem?_eq_some_iff.1 place
  have base : p[k].base = (p.map PlatformSlot.base)[k]'(by rwa [List.length_map]) := (List.getElem_map _).symm
  rw [List.map_set]
  exact (congrArg _ base).trans (List.set_getElem_self _)

/-- Whether HBEs are apart depends on their bases only. -/
theorem apart_congr {p p' : Platform} (bases : p'.map PlatformSlot.base = p.map PlatformSlot.base) (h : p.apart) :
    p'.apart := by
  have ofBases : ∀ q : Platform, q.apart ↔
      (q.map PlatformSlot.base).Pairwise fun a b => a + 0x20000 ≤ b ∨ b + 0x20000 ≤ a := fun q => by
    rw [Platform.apart, List.pairwise_map]
  rw [ofBases, bases, ← ofBases]
  exact h

/-- A step of HBE `k` leaves each HBE draws of its own. -/
theorem ownDraws_set {p : Platform} {k : Nat} {sl : PlatformSlot} (place : p[k]? = some sl) {t : Turn} {s : State}
    (stepped : step { sl.hbe with agenda := t :: sl.hbe.agenda } = .next s) (own : p.ownDraws) :
    ownDraws (p.set k { sl with hbe := s }) := by
  intro j inside'
  have inside : j < p.length := by rwa [List.length_set] at inside'
  rw [List.getElem_set]
  split_ifs with same
  · subst same
    obtain ⟨_, rfl⟩ := List.getElem?_eq_some_iff.1 place
    obtain ⟨dmem, arena, reads⟩ := own k inside
    obtain ⟨dmem', arena', reads'⟩ := step_sameUnit stepped
    exact ⟨dmem'.trans dmem, arena'.trans arena, reads'.trans reads⟩
  · exact own j inside

end Platform

/-- Settles O58: the turn of HBE `k` is its own step, put in its place. -/
theorem instancesShareNoState : Obligations.InstancesShareNoState := by
  refine fun p => ⟨fun k inside t s stepped => ?_, fun addr op outside => ?_⟩
  · have place : p[k]? = some p[k] := List.getElem?_eq_getElem inside
    have turn := Platform.turnAt_next place stepped
    refine ⟨_, Platform.differsAt_set place s, ?engine, ?assert, ?release, fun apart off op access => ?bus⟩
    case engine =>
      rintro rfl
      exact turn
    case assert =>
      rintro rfl
      exact turn
    case release =>
      rintro rfl
      exact turn
    case bus =>
      subst access
      rw [platformStep, Platform.route_some apart place]
      exact turn
  · rw [platformStep, Platform.route_none outside]

/-- Settles O59: a step sets the state of one HBE, whose draws stay its own. -/
theorem platformStepKeepsInstancesApart : Obligations.PlatformStepKeepsInstancesApart := by
  refine ⟨fun p p' t apart own stepped => ?step, fun n k inside => ?reset⟩
  case step =>
    obtain rfl | ⟨k, sl, x, s, place, stepped', rfl⟩ := platformStep_cases stepped
    · exact ⟨apart, own, rfl⟩
    · have bases := Platform.map_base_set place s
      exact ⟨Platform.apart_congr bases apart, Platform.ownDraws_set place stepped' own, bases⟩
  case reset =>
    simp only [Platform.reset, List.getElem_map, List.getElem_range]
    exact ⟨rfl, rfl, rfl⟩

end Sys2Proof.Machine
end

-- Proofs: the host program RUN
section
/-! PROOFS. What one line of a host program does (30_encoding.md R53), and the run of `RUN op` with the engine's turn
after its accepting write (30_encoding.md R54; 60_exceptions.md R81). -/

namespace Sys2Proof.Machine

/-- R53: a line with a bus operation is that access, and its variable takes the datum. -/
theorem hostLineStep_access {p : List HostLine} {h : HostProc} {s t : State} {ln : HostLine} {a : HostAccess}
    (line : p[h.line]? = some ln) (access : ln.access = some a) (released : s.resetLine = false)
    (answer : hostAccess a s = t) :
    hostLineStep p h s = .moved { line := h.line + 1, vars := h.receive ln.variable? t.busResp } t := by
  subst answer
  rw [hostLineStep, line]
  simp only [access, step_host_of_released released a s.agenda]

/-- R53: a label only names the next line. -/
theorem hostLineStep_label {p : List HostLine} {h : HostProc} {l : Nat} (line : p[h.line]? = some (.label l))
    (s : State) : hostLineStep p h s = .moved { h with line := h.line + 1 } s := by
  rw [hostLineStep, line]
  rfl

/-- R53: a branch whose masked variable is 0 goes on at the next line. -/
theorem hostLineStep_bnz_zero {p : List HostLine} {h : HostProc} {t l n : Nat} {mask v : Word}
    (line : p[h.line]? = some (.bnz t mask l)) (read : findCell h.vars t = some v) (label : labelLine p l = some n)
    (zero : v &&& mask = 0#32) (s : State) : hostLineStep p h s = .moved { h with line := h.line + 1 } s := by
  rw [hostLineStep, line]
  simp only [HostLine.access, read, label, zero, ne_eq, not_true_eq_false, if_false]

theorem runHostProgram_host {p : List HostLine} {h h' : HostProc} {s s' : State} (turns : List Bool)
    (moved : hostLineStep p h s = .moved h' s') :
    runHostProgram p (false :: turns) h s = runHostProgram p turns h' s' := by
  rw [runHostProgram, moved]

theorem runHostProgram_engine {p : List HostLine} {s s' : State} (turns : List Bool) (h : HostProc)
    (stepped : step { s with agenda := .engine :: s.agenda } = .next s') :
    runHostProgram p (true :: turns) h s = runHostProgram p turns h s' := by
  rw [runHostProgram, stepped]

/-- R20: `STATUS` masked with its bit 0 is 0 when `BUSY` is. -/
theorem status_word_and_one {t : Status} (idle : t.busy = false) : t.word &&& 0x1#32 = 0#32 := by
  have every : ∀ b c d e : Bool, (Status.mk false b c d e).word &&& 0x1#32 = 0#32 := by decide
  obtain ⟨busy, b, c, d, e⟩ := t
  subst idle
  exact every b c d e

/-- R54: the label of `WAIT` names its second line in `RUN`. -/
theorem labelLine_linesRun (i : Instr) (l v : Nat) : labelLine (linesRun i l v) l = some 1 := by
  have first : (HostLine.wr32 (regOffset .cmd) (encode i) == .label l) = false := rfl
  simp [labelLine, linesRun, linesCmd, linesWait, List.findIdx_cons, first]

/-- R21: the machine after an accepted write of `w` to `CMD`. -/
def State.accepted (s : State) (w : Word) : State := (s.acceptCommand w).answered .ack

/-- Settles O60: acceptance, the command, the label, a read of `STATUS` with `BUSY` 0, and the branch not taken. -/
theorem runProgramPerformsTheCommand : Obligations.RunProgramPerformsTheCommand := by
  intro s i l v idle released
  obtain ⟨t, e, bs, executed, -, -, completed⟩ := exists_completed i (s.accepted (encode i))
  obtain ⟨done, -⟩ := completed.record
  obtain ⟨-, -, -, -, -, -, -, -, resetLine, -⟩ := completed.frame
  have accept : hostLineStep (linesRun i l v) ⟨0, []⟩ s = .moved ⟨1, []⟩ (s.accepted (encode i)) :=
    hostLineStep_access (h := ⟨0, []⟩) (ln := .wr32 (regOffset .cmd) (encode i)) (t := s.accepted (encode i)) rfl rfl
      released (hostAccess_wr_cmd_idle idle (encode i))
  have engine : step { s.accepted (encode i) with agenda := .engine :: (s.accepted (encode i)).agenda } = .next t :=
    (step_engine_of_busy (s := s.accepted (encode i)) rfl released _).trans
      ((runPending_of_legal (s := s.accepted (encode i)) (decode_encode i)).trans executed)
  have label : hostLineStep (linesRun i l v) ⟨1, []⟩ t = .moved ⟨2, []⟩ t := hostLineStep_label rfl t
  have read : hostLineStep (linesRun i l v) ⟨2, []⟩ t =
      .moved ⟨3, [(v, t.status.word)]⟩ (t.answered (.data32 t.status.word)) :=
    hostLineStep_access (h := ⟨2, []⟩) (ln := .rd32 (regOffset .status) v) rfl rfl (resetLine.trans released)
      (rd32_regOffset (r := .status) (.inr rfl))
  have branch : hostLineStep (linesRun i l v) ⟨3, [(v, t.status.word)]⟩ (t.answered (.data32 t.status.word)) =
      .moved ⟨4, [(v, t.status.word)]⟩ (t.answered (.data32 t.status.word)) :=
    hostLineStep_bnz_zero rfl (by simp [findCell]) (labelLine_linesRun i l v) (status_word_and_one done) _
  refine ⟨t, [(v, t.status.word)], executed, ?_⟩
  rw [runHostProgram_host _ accept, runHostProgram_engine _ _ engine, runHostProgram_host _ label,
    runHostProgram_host _ read, runHostProgram_host _ branch, runHostProgram]

end Sys2Proof.Machine
end
